-- ==== Sys2Proof/Word.lean ====
section
/-! DEFINITION. Word types of the androidradar CORE.

Every number on the wire is a pattern of 8, 16 or 32 bits (spec/00_scope.md section 5.2). A signed
reading is `BitVec.toInt`, an unsigned one `BitVec.toNat`; no rule of the spec relies on wrap-around
(R185), so counts, cursors and lengths are `Nat` and comparisons of wire words are made on `Int`. -/

namespace Sys2Proof

/-- A byte of the stream (spec/00_scope.md section 5.1). -/
abbrev Byte := BitVec 8

/-- A 16-bit pattern: a coordinate or a temperature (R55). -/
abbrev Half := BitVec 16

/-- A 32-bit pattern: a header field, a TLV word, a range bin, or a binary32 number (R56, R57). -/
abbrev Word := BitVec 32

end Sys2Proof
end

