-- ==== Sys2Proof/Config.lean ====
section
/-! DEFINITION. What is fixed when an instance is built: the named constants and the parameters of
spec/00_scope.md rule R5, and the one free value of the spec (`NAN_RESULT`, R214). -/

namespace Sys2Proof.Config

/-- `MAGIC`: the eight bytes in stream order, first byte on the wire first (R5, R83). -/
def magic : List Byte := [0x02, 0x01, 0x04, 0x03, 0x06, 0x05, 0x08, 0x07]

/-- `MAGIC_LEN` (R5). -/
def magicLen : Nat := 8

/-- `HEADER_LEN` (R5). -/
def headerLen : Nat := 40

/-- `PKT_LEN_LO`, the exclusive lower bound of `total_packet_len` (R5, R153). -/
def pktLenLo : Nat := 40

/-- `PKT_LEN_HI`, the exclusive upper bound of `total_packet_len` (R5, R153). -/
def pktLenHi : Nat := 10000

/-- `TLV_HDR_LEN` (R5). -/
def tlvHdrLen : Nat := 8

/-- `TYPE_POINTS` (R5, R85). -/
def typePoints : Word := 301

/-- `TYPE_RANGE` (R5, R85). -/
def typeRange : Word := 302

/-- `TYPE_STATS` (R5, R85). -/
def typeStats : Word := 306

/-- `UNIT_HDR_LEN` (R5). -/
def unitHdrLen : Nat := 20

/-- `POINT_REC_LEN` (R5). -/
def pointRecLen : Nat := 10

/-- `RANGE_BIN_LEN` (R5). -/
def rangeBinLen : Nat := 4

/-- `STATS_MIN_LEN` (R5). -/
def statsMinLen : Nat := 24

/-- The two parameters of an instance, fixed when it is built (R5, R30). They stand in `State` as data
that no operation writes, so that a statement over all states is a statement for every value of the
parameters (93_implementation_defined.md I1); log entry 2. -/
structure Params where
  /-- `SYNC_ABANDON_THRESHOLD`, default 4096 (R5, R125, decision D1). -/
  syncAbandonThreshold : Nat
  /-- `BUF_CAP`: capacity of the accumulation buffer, `none` for unbounded, the default (R53, D2). -/
  bufCap : Option Nat
deriving DecidableEq, Repr

/-- The parameters at their defaults (R5): threshold 4096, capacity unbounded. -/
def Params.default : Params := ⟨4096, none⟩

/-- `NAN_RESULT` (R214, decision D10): the free value behind the pattern of a NaN result. Nothing
constrains it; `Machine.nanPattern` forces the exponent and a non-zero fraction onto it, the one limit
the spec sets. The argument is a counter that State holds, so that each product draws afresh. -/
opaque nanDraw : Nat → Word

end Sys2Proof.Config
end

