-- ==== Sys2Proof/Syntax.lean ====
section
/-! DEFINITION. The syntax: one constructor of `Instr` for each row of spec/opcode_table.json, the
records its operands are made of, and `Selector`, the data that selects an operation.

The block executes no instructions. Its operations are those of spec/30_encoding.md rule R80, its wire
formats those of rules R82 to R90; the opcode table has one row for each (R94). -/

namespace Sys2Proof

/-- The Frame Header: eight 32-bit registers in wire order (R23, R82, R151). The magic word has none. -/
structure Header where
  version : Word
  totalPacketLen : Word
  platform : Word
  frameNumber : Word
  timeCpuCycles : Word
  numDetectedObj : Word
  numTlvs : Word
  subFrameNumber : Word
deriving DecidableEq, Repr

/-- The four scale units of the Point Unit Header, binary32 patterns (R25, R86). -/
structure Units where
  xyz : Word
  doppler : Word
  snr : Word
  noise : Word
deriving DecidableEq, Repr

/-- The raw integers of one compact point record (R87): four `i16`, two `u8`. -/
structure RawPoint where
  x : Half
  y : Half
  z : Half
  doppler : Half
  snr : Byte
  noise : Byte
deriving DecidableEq, Repr

/-- Radar Statistics: two `i32` times and four `i16` temperatures (R26, R89, R231). -/
structure Stats where
  interFrameProcTime : Word
  transmitOutTime : Word
  tempRx : Half
  tempTx : Half
  tempPm : Half
  tempDig : Half
deriving DecidableEq, Repr

/-- The two diagnostic events and what each carries (R256). -/
inductive Diag where
  /-- `DIAG_SYNC_ABANDON(dropped)`. -/
  | syncAbandon (dropped : Nat)
  /-- `DIAG_BAD_HEADER(total_packet_len, dropped)`. -/
  | badHeader (totalPacketLen : Word) (dropped : Nat)
deriving DecidableEq, Repr

/-- The operations and wire formats of the block, one constructor per row of spec/opcode_table.json,
in the table's order. -/
inductive Instr where
  /-- `RESET` (R310). -/
  | reset
  /-- `PUSH` (R120, R121): one chunk of any length. -/
  | push (chunk : List Byte)
  /-- `SEEK` (R123 to R126). -/
  | seek
  /-- `HDR` (R127, R128). -/
  | hdr
  /-- `PAYLOAD` (R129, R130). -/
  | payload
  /-- `FRAME` (R83): a frame start, selected by the magic word. -/
  | frame
  /-- `FRAME_ASSEMBLE` (R158): a complete frame view. -/
  | frameAssemble (f : List Byte)
  /-- `TLV_STEP` (R171 to R179). -/
  | tlvStep
  /-- `DEC_POINTS` (R201 to R208) on a value view. -/
  | decPoints (v : List Byte)
  /-- `DEC_RANGE` (R220 to R223) on a value view. -/
  | decRange (v : List Byte)
  /-- `DEC_STATS` (R230 to R233) on a value view. -/
  | decStats (v : List Byte)
  /-- `DEC_SKIP` (R240): any other type, its value not read. -/
  | decSkip (type : Word) (v : List Byte)
  /-- `POINT_DECOMPRESS` (R205) on one compact point record. -/
  | pointDecompress (r : RawPoint)
  /-- `EMIT_FRAME` (R251). -/
  | emitFrame
  /-- `EMIT_DIAG` (R256). -/
  | emitDiag (d : Diag)
  /-- `LAYOUT_FRAME_HEADER` (R82, R151). -/
  | layoutFrameHeader (h : Header)
  /-- `LAYOUT_TLV_RECORD` (R84, R174): type, length (that of the value), value. -/
  | layoutTlvRecord (type : Word) (value : List Byte)
  /-- `LAYOUT_POINT_UNIT_HEADER` (R86, R202): four units and the counts field. -/
  | layoutPointUnitHeader (u : Units) (counts : Word)
  /-- `LAYOUT_COMPACT_POINT` (R87, R205). -/
  | layoutCompactPoint (r : RawPoint)
  /-- `LAYOUT_RANGE_BIN` (R88, R221). -/
  | layoutRangeBin (bin : Word)
  /-- `LAYOUT_STATS` (R89, R231): the six fields, the power-level bytes, and the bytes from offset 24. -/
  | layoutStats (t : Stats) (power : BitVec 64) (rest : List Byte)
deriving DecidableEq, Repr

/-- The fixed sub-formats of the wire, the rows of format `layout` (R94). -/
inductive LayoutKind where
  | frameHeader
  | tlvRecord
  | pointUnitHeader
  | compactPoint
  | rangeBin
  | stats
deriving DecidableEq, Repr

/-- What selects an operation: the 'what selects it' column of R80 and the formats of R94. -/
inductive Selector where
  /-- The `rst` input, or the model's reset call. -/
  | rst
  /-- An input event carrying a chunk. -/
  | chunk (bytes : List Byte)
  /-- Format `st`: the 2-bit synchronizer state. -/
  | stCode (code : BitVec 2)
  /-- Format `stream`: eight bytes of the stream, in stream order. -/
  | stream (window : List Byte)
  /-- A complete frame view. -/
  | frameView (bytes : List Byte)
  /-- The loop of the walk. -/
  | walkStep
  /-- Format `tlv`: one record, type, length and value bytes. -/
  | tlv (record : List Byte)
  /-- One 10-byte compact point record inside `DEC_POINTS`. -/
  | pointRecord (bytes : List Byte)
  /-- The end of `FRAME_ASSEMBLE` inside `PAYLOAD`. -/
  | frameDone
  /-- A diagnostic beat: `diag_kind` and `diag_info` (R256). -/
  | diag (kind : BitVec 1) (info : BitVec 64)
  /-- Format `layout`: the bytes of a fixed sub-format. -/
  | layout (kind : LayoutKind) (bytes : List Byte)
deriving DecidableEq, Repr

/-- Why a selector selects nothing. -/
inductive Reject where
  /-- `st = 3`, which no rule writes (R21, R93). -/
  | noSuchState
  /-- Eight bytes that are not the magic word (R83). -/
  | notMagic
  /-- A frame view outside 41..9999 bytes (R158). -/
  | frameViewLength
  /-- Fewer than 8 bytes of record (R173). -/
  | truncatedTlvHeader
  /-- A TLV length that is negative or exceeds the bytes given (R175, R176). -/
  | tlvLengthExceedsBuffer
  /-- More bytes than one record or layout holds. -/
  | trailingBytes
  /-- A layout given with fewer bytes than its size. -/
  | layoutTooShort
  /-- A `diag_info` whose upper half must be zero and is not (R256). -/
  | diagInfoNotZero
deriving DecidableEq, Repr

end Sys2Proof
end

