-- ==== Sys2Proof/Machine/Operands.lean ====
section
/-! DEFINITION. Operand forms: views, the read primitives of spec/20_memory.md (R51, R54 to R59), the
field assembly of the wire formats (R82 to R89), and the byte order in which a field is written out
(R95), which only the encoder uses. -/

namespace Sys2Proof.Machine

/-- `MemRead(V, a, n)`: the `n` bytes `V[a : a+n]`, defined only when `a + n <= len(V)` (R51). -/
def memRead (v : List Byte) (a n : Nat) : Option (List Byte) :=
  if a + n ≤ v.length then some ((v.drop a).take n) else none

/-- `u8(V, a)` (R59); no value at or past the end of the view (R51). -/
def u8 (v : List Byte) (a : Nat) : Option Byte := v[a]?

/-- `u16le(V, a)`, and, as a pattern, `i16le(V, a)` (R55): the byte at the lower offset is the less
significant (R54). -/
def u16le (v : List Byte) (a : Nat) : Option Half := do
  let b0 ← u8 v a
  let b1 ← u8 v (a + 1)
  pure (b1 ++ b0)

/-- `u32le(V, a)`, and, as a pattern, `i32le(V, a)` and `f32le(V, a)` (R56, R57). -/
def u32le (v : List Byte) (a : Nat) : Option Word := do
  let h0 ← u16le v a
  let h1 ← u16le v (a + 2)
  pure (h1 ++ h0)

/-- Eight bytes as one little-endian number; only the power-level field of R89, which no operation
reads, is as wide as this. -/
def u64le (v : List Byte) (a : Nat) : Option (BitVec 64) := do
  let w0 ← u32le v a
  let w1 ← u32le v (a + 4)
  pure (w1 ++ w0)

/-- `le16(v)` of R95: two bytes, least significant first. -/
def le16 (h : Half) : List Byte := [h.extractLsb' 0 8, h.extractLsb' 8 8]

/-- `le32(v)` of R95: four bytes, least significant first. -/
def le32 (w : Word) : List Byte := le16 (w.extractLsb' 0 16) ++ le16 (w.extractLsb' 16 16)

/-- Eight bytes, least significant first. -/
def le64 (d : BitVec 64) : List Byte := le32 (d.extractLsb' 0 32) ++ le32 (d.extractLsb' 32 32)

/-- The `n` bytes of the number `w`, bit 0 the least significant bit of the first byte. -/
def bytesOf : Nat → Nat → List Byte
  | 0, _ => []
  | n + 1, w => BitVec.ofNat 8 w :: bytesOf n (w / 256)

/-- `decode_header(H)` (R151): the eight fields at offsets 8, 12, ..., 36. -/
def readHeader (h : List Byte) : Option Header := do
  let version ← u32le h 8
  let totalPacketLen ← u32le h 12
  let platform ← u32le h 16
  let frameNumber ← u32le h 20
  let timeCpuCycles ← u32le h 24
  let numDetectedObj ← u32le h 28
  let numTlvs ← u32le h 32
  let subFrameNumber ← u32le h 36
  pure ⟨version, totalPacketLen, platform, frameNumber, timeCpuCycles, numDetectedObj, numTlvs,
    subFrameNumber⟩

/-- The Point Unit Header's four scale units at offsets 0, 4, 8, 12 (R86, R202). -/
def readUnits (v : List Byte) : Option Units := do
  let xyz ← u32le v 0
  let doppler ← u32le v 4
  let snr ← u32le v 8
  let noise ← u32le v 12
  pure ⟨xyz, doppler, snr, noise⟩

/-- The six raw fields of a compact point record at offsets 0, 2, 4, 6, 8, 9 (R87). -/
def readRawPoint (r : List Byte) : Option RawPoint := do
  let x ← u16le r 0
  let y ← u16le r 2
  let z ← u16le r 4
  let doppler ← u16le r 6
  let snr ← u8 r 8
  let noise ← u8 r 9
  pure ⟨x, y, z, doppler, snr, noise⟩

/-- The six fields of a statistics record at offsets 0, 4, 16, 18, 20, 22 (R89, R231). -/
def readStats (v : List Byte) : Option Stats := do
  let interFrameProcTime ← u32le v 0
  let transmitOutTime ← u32le v 4
  let tempRx ← u16le v 16
  let tempTx ← u16le v 18
  let tempPm ← u16le v 20
  let tempDig ← u16le v 22
  pure ⟨interFrameProcTime, transmitOutTime, tempRx, tempTx, tempPm, tempDig⟩

/-- The eight header fields written out in wire order, after the magic word (R82). -/
def headerBytes (h : Header) : List Byte :=
  Config.magic ++ le32 h.version ++ le32 h.totalPacketLen ++ le32 h.platform ++ le32 h.frameNumber
    ++ le32 h.timeCpuCycles ++ le32 h.numDetectedObj ++ le32 h.numTlvs ++ le32 h.subFrameNumber

/-- A TLV record written out: type, length of the value, value (R84). -/
def recordBytes (type : Word) (v : List Byte) : List Byte :=
  le32 type ++ le32 (BitVec.ofNat 32 v.length) ++ v

/-- The Point Unit Header written out (R86). -/
def unitsBytes (u : Units) (counts : Word) : List Byte :=
  le32 u.xyz ++ le32 u.doppler ++ le32 u.snr ++ le32 u.noise ++ le32 counts

/-- A compact point record written out (R87). -/
def rawPointBytes (r : RawPoint) : List Byte :=
  le16 r.x ++ le16 r.y ++ le16 r.z ++ le16 r.doppler ++ [r.snr, r.noise]

/-- A statistics record written out (R89). -/
def statsBytes (t : Stats) (power : BitVec 64) : List Byte :=
  le32 t.interFrameProcTime ++ le32 t.transmitOutTime ++ le64 power
    ++ le16 t.tempRx ++ le16 t.tempTx ++ le16 t.tempPm ++ le16 t.tempDig

end Sys2Proof.Machine
end

