-- ==== Sys2Proof/WellFormed.lean ====
section
/-! DEFINITION. When a term of `Instr` is an operation the wire can select: the operand limits of the
formats of spec/30_encoding.md. -/

namespace Sys2Proof

/-- A value whose length a TLV length word can state: it is read as a signed 32-bit number and a
negative one fails guard 2 (R84, R176). -/
def encodableLength (v : List Byte) : Bool := v.length < 2 ^ 31

/-- A byte count that fits bits 31:0 of `diag_info` (R256). -/
def encodableCount (n : Nat) : Bool := n < 2 ^ 32

/-- The three types of the closed registry (R85, R200). -/
def registeredType (type : Word) : Bool :=
  type == Config.typePoints || type == Config.typeRange || type == Config.typeStats

/-- The operand limits of each operation. -/
def Instr.wf : Instr → Bool
  | .reset => true
  | .push _ => true
  | .seek => true
  | .hdr => true
  | .payload => true
  | .frame => true
  | .frameAssemble f => Config.headerLen < f.length && f.length < Config.pktLenHi
  | .tlvStep => true
  | .decPoints v => encodableLength v
  | .decRange v => encodableLength v
  | .decStats v => encodableLength v
  | .decSkip type v => !registeredType type && encodableLength v
  | .pointDecompress _ => true
  | .emitFrame => true
  | .emitDiag (.syncAbandon dropped) => encodableCount dropped
  | .emitDiag (.badHeader _ dropped) => encodableCount dropped
  | .layoutFrameHeader _ => true
  | .layoutTlvRecord _ value => encodableLength value
  | .layoutPointUnitHeader _ _ => true
  | .layoutCompactPoint _ => true
  | .layoutRangeBin _ => true
  | .layoutStats _ _ _ => true

end Sys2Proof
end

