-- ==== Sys2Proof/Decode.lean ====
section
/-! DEFINITION. The decoder, total on any selector and any bytes, and after it the encoder.

The block decodes no instructions; what selects an operation is an input event, the 2-bit state, the
64-bit magic word, the 32-bit TLV type, or the step that calls it (spec/30_encoding.md R80, R94). The
byte layouts are those of R82 to R89; a refusal names its reason. -/

namespace Sys2Proof

open Machine

/-- Format `st`: the step selected by the synchronizer state (R122, R94). -/
def decodeState (code : BitVec 2) : Except Reject Instr :=
  if code = 0 then .ok .seek
  else if code = 1 then .ok .hdr
  else if code = 2 then .ok .payload
  else .error .noSuchState

/-- Format `stream`: eight bytes are a frame start iff they are the magic word, byte by byte (R83). -/
def decodeStream (window : List Byte) : Except Reject Instr :=
  if window = Config.magic then .ok .frame else .error .notMagic

/-- Format `tlv`, the type word: all 32 bits are compared with the three registered types, every other
pattern is the default row (R85). -/
def decodeType (type : Word) (v : List Byte) : Instr :=
  if type = Config.typePoints then .decPoints v
  else if type = Config.typeRange then .decRange v
  else if type = Config.typeStats then .decStats v
  else .decSkip type v

/-- A record at the head of `bytes`: its type, its value and the bytes after it (R84), under the two
ordered guards (R173, R175, R176). -/
def splitRecord (bytes : List Byte) : Except Reject (Word × List Byte × List Byte) :=
  match u32le bytes 0, u32le bytes 4 with
  | some type, some len =>
    if len.toInt < 0 ∨ (bytes.length - 8 : Int) < len.toInt then .error .tlvLengthExceedsBuffer
    else .ok (type, (bytes.drop 8).take len.toNat, (bytes.drop 8).drop len.toNat)
  | _, _ => .error .truncatedTlvHeader

/-- Format `tlv`: exactly one record (R84, R85). -/
def decodeRecord (bytes : List Byte) : Except Reject Instr :=
  match splitRecord bytes with
  | .ok (type, v, []) => .ok (decodeType type v)
  | .ok _ => .error .trailingBytes
  | .error r => .error r

/-- A frame view is selected when it is complete: 41 to 9999 bytes (R158). -/
def decodeFrameView (f : List Byte) : Except Reject Instr :=
  if Config.headerLen < f.length ∧ f.length < Config.pktLenHi then .ok (.frameAssemble f)
  else .error .frameViewLength

/-- A layout of exactly `size` bytes: too few and too many are refused by name. -/
def exactSize (size : Nat) (bytes : List Byte) (i : Option Instr) : Except Reject Instr :=
  match i with
  | none => .error .layoutTooShort
  | some i => if bytes.length ≤ size then .ok i else .error .trailingBytes

/-- A compact point record inside `DEC_POINTS` (R87, R205). -/
def decodePointRecord (bytes : List Byte) : Except Reject Instr :=
  exactSize Config.pointRecLen bytes ((readRawPoint bytes).map .pointDecompress)

/-- A diagnostic beat (R256): `diag_info` holds `dropped` below and, for kind 1, the rejected length
above. -/
def decodeDiag (kind : BitVec 1) (info : BitVec 64) : Except Reject Instr :=
  if kind = 1 then
    .ok (.emitDiag (.badHeader (info.extractLsb' 32 32) (info.extractLsb' 0 32).toNat))
  else if info.extractLsb' 32 32 = 0 then
    .ok (.emitDiag (.syncAbandon (info.extractLsb' 0 32).toNat))
  else .error .diagInfoNotZero

/-- The fixed sub-formats. A header standing alone must begin with the magic word (R152). -/
def decodeLayout (kind : LayoutKind) (bytes : List Byte) : Except Reject Instr :=
  match kind with
  | .frameHeader =>
    if bytes.take Config.magicLen = Config.magic then
      exactSize Config.headerLen bytes ((readHeader bytes).map .layoutFrameHeader)
    else .error .notMagic
  | .tlvRecord =>
    match splitRecord bytes with
    | .ok (type, v, []) => .ok (.layoutTlvRecord type v)
    | .ok _ => .error .trailingBytes
    | .error r => .error r
  | .pointUnitHeader =>
    exactSize Config.unitHdrLen bytes
      (do pure (.layoutPointUnitHeader (← readUnits bytes) (← u32le bytes 16)))
  | .compactPoint =>
    exactSize Config.pointRecLen bytes ((readRawPoint bytes).map .layoutCompactPoint)
  | .rangeBin =>
    exactSize Config.rangeBinLen bytes ((u32le bytes 0).map .layoutRangeBin)
  | .stats =>
    match readStats bytes, u64le bytes 8 with
    | some t, some power => .ok (.layoutStats t power (bytes.drop Config.statsMinLen))
    | _, _ => .error .layoutTooShort

/-- The operation a selector selects (R80, R94). -/
def decode : Selector → Except Reject Instr
  | .rst => .ok .reset
  | .chunk bytes => .ok (.push bytes)
  | .stCode code => decodeState code
  | .stream window => decodeStream window
  | .frameView bytes => decodeFrameView bytes
  | .walkStep => .ok .tlvStep
  | .tlv record => decodeRecord record
  | .pointRecord bytes => decodePointRecord bytes
  | .frameDone => .ok .emitFrame
  | .diag kind info => decodeDiag kind info
  | .layout kind bytes => decodeLayout kind bytes

/-- The selector of an instruction whose table row has `nbits` bits, all its bits being `w`, bit 0 the
least significant bit of the first byte and every bit above `nbits` zero. The width tells the format:
`st` is narrower than a byte, `tlv` is a 32-bit type word (its length word is then 0, an empty value),
`stream` the 64-bit magic word; the layouts have their sizes of R86, R87, R89 and R82. The table's
`size` entries of the rows LAYOUT_COMPACT_POINT (bit 10) and LAYOUT_POINT_UNIT_HEADER (bit 20) are read
as those rows' formats. -/
def tableSelector (nbits w : Nat) : Selector :=
  if nbits ≤ 8 then .stCode (BitVec.ofNat 2 w)
  else if nbits ≤ 16 then .layout .compactPoint (bytesOf 10 w)
  else if nbits ≤ 24 then .layout .pointUnitHeader (bytesOf 20 w)
  else if nbits ≤ 32 then .tlv (bytesOf 8 w)
  else if nbits ≤ 64 then .stream (bytesOf 8 w)
  else if nbits ≤ 80 then .layout .compactPoint (bytesOf 10 w)
  else if nbits ≤ 160 then .layout .pointUnitHeader (bytesOf 20 w)
  else if nbits ≤ 192 then .layout .stats (bytesOf 24 w)
  else .layout .frameHeader (bytesOf 40 w)

/-- The instruction the decoder reads from an opcode-table word. -/
def decodeTableWord (nbits w : Nat) : Option Instr :=
  match decode (tableSelector nbits w) with
  | .ok i => some i
  | .error _ => none

/-- The diagnostic beat of an event (R256): `dropped` in bits 31:0, the rejected length in bits 63:32. A
`dropped` of 2^32 or more, on which the spec is silent, shows its low 32 bits, and the event keeps the whole
count (DESIGN CHOICE, log entry 20). -/
def encodeDiag : Diag → BitVec 1 × BitVec 64
  | .syncAbandon dropped => (0, (0 : Word) ++ (BitVec.ofNat 32 dropped : Word))
  | .badHeader len dropped => (1, len ++ (BitVec.ofNat 32 dropped : Word))

/-- What selects an instruction, written from the formats of R82 to R89 and R94. -/
def encode : Instr → Selector
  | .reset => .rst
  | .push chunk => .chunk chunk
  | .seek => .stCode 0
  | .hdr => .stCode 1
  | .payload => .stCode 2
  | .frame => .stream Config.magic
  | .frameAssemble f => .frameView f
  | .tlvStep => .walkStep
  | .decPoints v => .tlv (recordBytes Config.typePoints v)
  | .decRange v => .tlv (recordBytes Config.typeRange v)
  | .decStats v => .tlv (recordBytes Config.typeStats v)
  | .decSkip type v => .tlv (recordBytes type v)
  | .pointDecompress r => .pointRecord (rawPointBytes r)
  | .emitFrame => .frameDone
  | .emitDiag d => .diag (encodeDiag d).1 (encodeDiag d).2
  | .layoutFrameHeader h => .layout .frameHeader (headerBytes h)
  | .layoutTlvRecord type value => .layout .tlvRecord (recordBytes type value)
  | .layoutPointUnitHeader u counts => .layout .pointUnitHeader (unitsBytes u counts)
  | .layoutCompactPoint r => .layout .compactPoint (rawPointBytes r)
  | .layoutRangeBin bin => .layout .rangeBin (le32 bin)
  | .layoutStats t power rest => .layout .stats (statsBytes t power ++ rest)

end Sys2Proof
end

