-- ==== Sys2Proof/Machine/State.lean ====
section
/-! DEFINITION. The state of one instance, as plain data: everything spec/10_state.md gives the block,
its outputs (spec/44_output_events.md), and what the outside does next. INVENTORY.md lists every piece
with its rule and its reset value. -/

namespace Sys2Proof.Machine

/-- The synchronizer state `st` (R21). Its 2-bit code is `SyncState.code`; the code 3 has no name
because no rule writes it (decision D6 allows an enumeration; log entry 15). -/
inductive SyncState where
  | seekingSync
  | readingHeader
  | readingPayload
deriving DecidableEq, Repr

/-- `pf.error_code` (R26, R29, decision D7); its 2-bit code is `ErrorCode.code`. -/
inductive ErrorCode where
  | none
  | truncatedTlvHeader
  | tlvLengthExceedsBuffer
deriving DecidableEq, Repr

/-- A Radar Point: six binary32 patterns (R26, R205). -/
structure RadarPoint where
  x : Word
  y : Word
  z : Word
  doppler : Word
  snr : Word
  noise : Word
deriving DecidableEq, Repr

/-- The Parsed Frame (R26). The presence of the two optional fields is a flag of R29. -/
structure ParsedFrame where
  frameNumber : Word
  numDetectedObj : Word
  points : List RadarPoint
  rangeProfile : Option (List Word)
  stats : Option Stats
  errorCode : ErrorCode
deriving DecidableEq, Repr

/-- An output event (R250): `FRAME(pf)` or one of the two diagnostic events. -/
inductive Event where
  | frame (pf : ParsedFrame)
  | diag (d : Diag)
deriving DecidableEq, Repr

/-- One beat on the `out_*` port (R32, R254). -/
structure Beat where
  kind : BitVec 3
  data : BitVec 192
deriving DecidableEq, Repr

/-- The scratch of one frame's decode (R24 to R26, and the frame view of R50), with the local variables
of the decoders' pseudocode (R205, R220, R231; log entry 5). Registers hold a value at all times; between
frames the content is dead (R20). -/
structure Scratch where
  /-- The frame view `F`; the payload view is `F[40:]` (R50). -/
  frame : List Byte
  /-- `n`, the payload length (R24, R172). -/
  n : Nat
  /-- `cur`, the cursor into the payload view (R24). -/
  cur : Nat
  /-- `k`, the records completed (R24, R179). -/
  k : Nat
  /-- `tlv_type` (R24, R174). -/
  tlvType : Word
  /-- `tlv_len` (R24, R174). -/
  tlvLen : Word
  /-- The walk goes on: cleared by the `stop` of R171 and by its loop test. -/
  walking : Bool
  /-- The scale units (R25). -/
  unit : Units
  /-- The Parsed Frame under construction (R26). -/
  pf : ParsedFrame
  /-- The raw fields of the compact point record being decompressed (`R` of R205). -/
  raw : RawPoint
  /-- The decompressed point (`p` of R205). -/
  point : RadarPoint
  /-- The bins read so far (`bins` of R220). -/
  bins : List Word
  /-- The statistics read (`s` of R230, R231). -/
  stat : Stats
  /-- How many NaN results have been drawn (the model's own, R214; log entry 6). -/
  draws : Nat
deriving DecidableEq, Repr

/-- What the outside does next (R32, R64): the inputs are served in order. -/
inductive Input where
  /-- An operation, invoked by what selects it: RESET and PUSH are the outside's calls (R80), the other
  operations can be invoked alone by a bench (R287). -/
  | select (sel : Selector)
  /-- The comparison of the eight bytes of `buf` at an offset with the magic word (R83). -/
  | streamAt (offset : Nat)
  /-- A byte offered on the `in_*` port, with `in_last` (R32). -/
  | byte (data : Byte) (last : Bool)
  /-- An edge with `out_ready = 1` (R255). -/
  | outReady
  /-- Two calls that overlap in time (R315). -/
  | overlap (first second : Selector)
deriving DecidableEq, Repr

/-- The accumulation buffer as a byte-addressed space: offset `i` holds the byte at position `i`, and
every offset at or past the length is no address (R51). It is stored as the sequence itself, which is
canonical: equal memories are equal data (log entry 10). -/
abbrev Memory := List Byte

/-- The (address, byte) reading of a memory, addresses from `base` on. -/
def Memory.cellsFrom : Nat → Memory → List Host.Cell
  | _, [] => []
  | base, b :: m => (base, b) :: Memory.cellsFrom (base + 1) m

/-- The (address, byte) pairs of a memory. -/
def Memory.cells (m : Memory) : List Host.Cell := Memory.cellsFrom 0 m

/-- The form a memory must have: it fits the capacity `BUF_CAP` (R53). -/
def Memory.wf (cap : Option Nat) (m : Memory) : Bool :=
  match cap with
  | none => true
  | some c => m.length ≤ c

/-- The state of one instance. -/
structure State where
  /-- The parameters, fixed when the instance is built (R5). -/
  params : Config.Params
  /-- The synchronizer state (R21). -/
  st : SyncState
  /-- The accumulation buffer (R22). -/
  buf : Memory
  /-- The eight registers of the latched header (R23). -/
  hdr : Header
  /-- `hdr_valid` (R23). -/
  hdrValid : Bool
  /-- The scratch of the frame decode (R24 to R26). -/
  dec : Scratch
  /-- The evaluation loop goes on: set by `continue`, cleared by `suspend` (R121). -/
  evaluating : Bool
  /-- Part of a chunk has been accepted on the `in_*` port (R32). -/
  chunkOpen : Bool
  /-- Every event emitted so far, oldest first (R250, R253; log entry 7). -/
  events : List Event
  /-- Beats emitted and not yet accepted on the `out_*` port (R254, R255; log entry 8). -/
  outBeats : List Beat
  /-- What the outside does next, in order (R64). -/
  inputs : List Input
deriving DecidableEq, Repr

/-- Why the machine stops with a fault. The spec has no fault (93_implementation_defined.md, R136). -/
inductive Fault where
  /-- A read at or past the end of a view, an access to an address that does not exist (R51): "no rule
  forms one". Raised by FRAME_ASSEMBLE on a view shorter than a header, by PAYLOAD and TLV_STEP in a state
  whose lengths do not fit each other, never from a coherent state. Safe: it stops where the spec gives
  the read no meaning. -/
  | readPastView
deriving DecidableEq, Repr

/-- Why an operation is given no meaning. -/
inductive Refusal where
  /-- An operation of the table whose meaning the model does not have; raised by an arm of `exec` only.
  Safe. -/
  | notModelled (mnemonic : String)
  /-- A PUSH with `len(buf) + len(chunk) > BUF_CAP` (R53, R120): "refused: the spec gives it no meaning".
  Raised by PUSH. Safe. -/
  | pushExceedsBufCap
  /-- A PUSH that overlaps another call on the instance (R65, R315): "the model refuses them". Raised by
  PUSH while an evaluation or an unfinished chunk is in progress, and by a step whose next input is two
  overlapping calls. Safe. -/
  | overlappingCall
  /-- A selector that selects no operation (R93, R94). Raised by a step. Safe. -/
  | notAnOperation (why : Reject)
deriving DecidableEq, Repr

/-- The header registers' content at reset: the spec gives none (R33); the model's value (log entry 3). -/
def Header.atReset : Header := ⟨0, 0, 0, 0, 0, 0, 0, 0⟩

/-- The Parsed Frame's initial values (R26, R157), with the two copied fields at 0 (log entry 4). -/
def ParsedFrame.atReset : ParsedFrame := ⟨0, 0, [], none, none, .none⟩

/-- The scratch at reset: the spec gives no value (R33); the model's values (log entries 4, 5, 6, 9). -/
def Scratch.atReset : Scratch where
  frame := []
  n := 0
  cur := 0
  k := 0
  tlvType := 0
  tlvLen := 0
  walking := false
  unit := ⟨0, 0, 0, 0⟩
  pf := ParsedFrame.atReset
  raw := ⟨0, 0, 0, 0, 0, 0⟩
  point := ⟨0, 0, 0, 0, 0, 0⟩
  bins := []
  stat := ⟨0, 0, 0, 0, 0, 0⟩
  draws := 0

/-- The machine right after reset (R33, R311): seeking, buffer empty, no header latched, nothing
pending. -/
def State.reset : State where
  params := Config.Params.default
  st := .seekingSync
  buf := []
  hdr := Header.atReset
  hdrValid := false
  dec := Scratch.atReset
  evaluating := false
  chunkOpen := false
  events := []
  outBeats := []
  inputs := []

end Sys2Proof.Machine
end

