-- ==== Sys2Proof/Machine/Flags.lean ====
section
/-! DEFINITION. The status flags of spec/10_state.md rule R29 and the numeric codes of decisions D6 and
D7. There are no arithmetic condition codes and no floating-point exception flags (R29, R213). -/

namespace Sys2Proof.Machine

/-- The 2-bit code of `st` (R21, decision D6). -/
def SyncState.code : SyncState → BitVec 2
  | .seekingSync => 0
  | .readingHeader => 1
  | .readingPayload => 2

/-- The state a code names; 3 names none (R21). -/
def SyncState.ofCode (c : BitVec 2) : Option SyncState :=
  if c = 0 then some .seekingSync
  else if c = 1 then some .readingHeader
  else if c = 2 then some .readingPayload
  else none

/-- The 2-bit code of `pf.error_code` (R26, decision D7). -/
def ErrorCode.code : ErrorCode → BitVec 2
  | .none => 0
  | .truncatedTlvHeader => 1
  | .tlvLengthExceedsBuffer => 2

/-- The presence flag of the range profile (R29). -/
def ParsedFrame.hasRangeProfile (pf : ParsedFrame) : Bool := pf.rangeProfile.isSome

/-- The presence flag of the statistics (R29). -/
def ParsedFrame.hasStats (pf : ParsedFrame) : Bool := pf.stats.isSome

/-- A failing guard sets the error code and ends the walk (R171, R173, R175, R183). -/
def Scratch.raise (e : ErrorCode) (d : Scratch) : Scratch :=
  { d with pf := { d.pf with errorCode := e }, walking := false }

/-- The range profile becomes present with these bins, replacing an earlier one (R220, R223). -/
def Scratch.setRange (bins : List Word) (d : Scratch) : Scratch :=
  { d with pf := { d.pf with rangeProfile := some bins } }

/-- The statistics become present, replacing earlier ones (R230, R232). -/
def Scratch.setStats (t : Stats) (d : Scratch) : Scratch :=
  { d with pf := { d.pf with stats := some t } }

/-- `hdr_valid` (R23, R29). -/
def State.setHdrValid (b : Bool) (s : State) : State := { s with hdrValid := b }

end Sys2Proof.Machine
end

