-- ==== Sys2Proof/Machine/Float32.lean ====
section
/-! DEFINITION. The binary32 arithmetic of the decompressor (spec/43_tlv_decoders.md R210 to R215,
decision D10): exact conversion of a small integer, one multiplication rounded to nearest, ties to even,
subnormals kept, overflow to infinity, a NaN result with a free pattern, no flags.

Every finite binary32 magnitude is a whole multiple of 2^-149, so a product of two is a whole multiple of
2^-298; both are computed as natural numbers of that unit and rounded once. -/

namespace Sys2Proof.Machine

/-- The sign bit alone (bit 31). -/
def signBit : Word := 0x80000000

/-- The magnitude bits of infinity. -/
def infBits : Word := 0x7F800000

/-- The biased exponent (bits 30:23). -/
def expField (w : Word) : BitVec 8 := w.extractLsb' 23 8

/-- The fraction (bits 22:0). -/
def fracField (w : Word) : BitVec 23 := w.extractLsb' 0 23

/-- A NaN: exponent `0xFF` and a non-zero fraction (R214). -/
def isNaN (w : Word) : Bool := expField w == 255 && fracField w != 0

/-- An infinity of either sign. -/
def isInf (w : Word) : Bool := expField w == 255 && fracField w == 0

/-- A zero of either sign. -/
def isZero (w : Word) : Bool := expField w == 0 && fracField w == 0

/-- The magnitude of a finite number in units of 2^-149: the fraction of a subnormal, else the 24-bit
significand at its place. -/
def magnitude (w : Word) : Nat :=
  if expField w = 0 then (fracField w).toNat
  else (2 ^ 23 + (fracField w).toNat) * 2 ^ ((expField w).toNat - 1)

/-- The binary32 magnitude bits nearest to `p` units of 2^-298, ties to even; infinity when that is
above the largest finite number (R212). The last place kept is never below 2^-149, so results down to a
subnormal are produced; the significand `q` added at the exponent's place carries into it by itself. -/
def roundToNearestEven (p : Nat) : Nat :=
  let shift := max 149 (Nat.log2 p - 23)
  let q := p / 2 ^ shift
  let r := p % 2 ^ shift
  let half := 2 ^ (shift - 1)
  let up := if half < r ∨ (r = half ∧ q % 2 = 1) then 1 else 0
  min ((shift - 149) * 2 ^ 23 + q + up) 0x7F800000

/-- A NaN pattern made of free bits: any sign, any non-zero fraction (R214). -/
def nanPattern (bits : Word) : Word :=
  if fracField bits = 0 then bits ||| 0x7F800001 else bits ||| infBits

/-- The `i`-th NaN drawn: parameter `NAN_RESULT` (R214, decision D10). -/
def nanResult (i : Nat) : Word := nanPattern (Config.nanDraw i)

/-- `i_to_f32(r)` (R211): the sign, and the magnitude `|r|`, which is exact for every raw value. -/
def iToF32 (r : Int) : Word :=
  (if r < 0 then signBit else 0) ||| BitVec.ofNat 32 (roundToNearestEven (r.natAbs * 2 ^ 298))

/-- `fmul32(a, b)` (R212, R215): the sign is the exclusive-or of the signs; a NaN operand or `0 * inf`
gives the NaN `nan` (R214). -/
def fmul32 (nan a b : Word) : Word :=
  let sign := (a ^^^ b) &&& signBit
  if isNaN a || isNaN b then nan
  else if isInf a then (if isZero b then nan else sign ||| infBits)
  else if isInf b then (if isZero a then nan else sign ||| infBits)
  else sign ||| BitVec.ofNat 32 (roundToNearestEven (magnitude a * magnitude b))

/-- `physical_value = raw_integer * unit_scale` (R205); a NaN result is the `i`-th draw. -/
def scale (i : Nat) (raw : Int) (unit : Word) : Word := fmul32 (nanResult i) (iToF32 raw) unit

end Sys2Proof.Machine
end

