-- ==== Sys2Proof/Machine/Ops.lean ====
section
/-! DEFINITION. The named operations the meanings are written over: the three mutations of `buf` (R52),
the control transfers `continue` and `suspend` (R121), `emit` (R250), the magic search (R123), the
latches of the header and of the scratch, and the recoveries of spec/60_exceptions.md (R271), which are
all this block has in the place of exceptions: nothing is vectored, saved or returned from (R280, R281). -/

namespace Sys2Proof.Machine

/-! ### The accumulation buffer (R52) -/

/-- `append(chunk)`. -/
def State.append (chunk : List Byte) (s : State) : State := { s with buf := s.buf ++ chunk }

/-- `drop(m)`: a prefix is removed. -/
def State.dropBytes (m : Nat) (s : State) : State := { s with buf := s.buf.drop m }

/-- `clear`. -/
def State.clearBuf (s : State) : State := { s with buf := [] }

/-- Whether `len(buf) + len(chunk) <= BUF_CAP` (R53). -/
def State.fits (chunk : List Byte) (s : State) : Bool := Memory.wf s.params.bufCap (s.buf ++ chunk)

/-! ### Control (R121) -/

/-- `st <- S; continue`. -/
def State.continueIn (st : SyncState) (s : State) : State := { s with st := st, evaluating := true }

/-- `suspend`. -/
def State.suspend (s : State) : State := { s with evaluating := false }

/-! ### Latches -/

/-- The eight header registers, written together (R151). -/
def State.latchHeader (h : Header) (s : State) : State := { s with hdr := h }

/-- The scratch of the frame decode. -/
def State.withDec (d : Scratch) (s : State) : State := { s with dec := d }

/-! ### Output (R250, R254) -/

/-- `emit E`. -/
def State.emit (e : Event) (s : State) : State := { s with events := s.events ++ [e] }

/-- Beats offered on the `out_*` port, behind those that wait (R255). -/
def State.offerBeats (bs : List Beat) (s : State) : State := { s with outBeats := s.outBeats ++ bs }

/-! ### The magic search (R83, R123, R124) -/

/-- `first_match(s, p)`: the least offset at which `p` stands whole in `s` (spec/00_scope.md 5.4). -/
def firstMatch (p : List Byte) : List Byte → Option Nat
  | [] => if p.isEmpty then some 0 else none
  | b :: bs => if p.isPrefixOf (b :: bs) then some 0 else (firstMatch p bs).map (· + 1)

/-! ### Header validation (R153) -/

/-- `header_ok(hdr)`: `40 < total_packet_len < 10000`, both strict, on the signed value. -/
def headerOk (h : Header) : Bool :=
  (Config.pktLenLo : Int) < h.totalPacketLen.toInt && h.totalPacketLen.toInt < (Config.pktLenHi : Int)

/-- Parsed Frame creation (R157). -/
def newParsedFrame (h : Header) : ParsedFrame where
  frameNumber := h.frameNumber
  numDetectedObj := h.numDetectedObj
  points := []
  rangeProfile := none
  stats := none
  errorCode := .none

/-! ### The scratch (R24 to R26) -/

/-- The payload view `P = F[40:]` (R50). -/
def Scratch.payload (d : Scratch) : List Byte := d.frame.drop Config.headerLen

/-- The start of a frame's decode: the frame view, a new Parsed Frame, and the walk at its beginning
(R157, R158, R171, R172). The other registers keep what they held; each is written before it is read. -/
def Scratch.begin (f : List Byte) (h : Header) (d : Scratch) : Scratch :=
  { d with
    frame := f
    n := (f.drop Config.headerLen).length
    cur := 0
    k := 0
    walking := true
    pf := newParsedFrame h }

/-- The type and length words of a record, and the cursor moved past them (R174). -/
def Scratch.loadRecordHeader (type len : Word) (d : Scratch) : Scratch :=
  { d with tlvType := type, tlvLen := len, cur := d.cur + Config.tlvHdrLen }

/-- The cursor moved past the value, and the record counted (R178, R179). -/
def Scratch.advance (len : Nat) (d : Scratch) : Scratch := { d with cur := d.cur + len, k := d.k + 1 }

/-- The end of the walk by its loop test (R171). -/
def Scratch.endWalk (d : Scratch) : Scratch := { d with walking := false }

/-- The four unit registers (R202). -/
def Scratch.loadUnits (u : Units) (d : Scratch) : Scratch := { d with unit := u }

/-- The raw fields of a compact point record (R87). -/
def Scratch.loadRaw (r : RawPoint) (d : Scratch) : Scratch := { d with raw := r }

/-- `decompress` (R205): six independent products of a raw field and its unit. Each product has a NaN
draw of its own (R214). -/
def decompress (r : RawPoint) (u : Units) (i : Nat) : RadarPoint where
  x := scale i r.x.toInt u.xyz
  y := scale (i + 1) r.y.toInt u.xyz
  z := scale (i + 2) r.z.toInt u.xyz
  doppler := scale (i + 3) r.doppler.toInt u.doppler
  snr := scale (i + 4) r.snr.toNat u.snr
  noise := scale (i + 5) r.noise.toNat u.noise

/-- The point `p` of the raw fields under the unit registers (R205). -/
def Scratch.decompressRaw (d : Scratch) : Scratch :=
  { d with point := decompress d.raw d.unit d.draws, draws := d.draws + 6 }

/-- `pf.points <- pf.points ++ [p]` (R204). -/
def Scratch.appendPoint (d : Scratch) : Scratch :=
  { d with pf := { d.pf with points := d.pf.points ++ [d.point] } }

/-- `bins <- []` (R220). -/
def Scratch.clearBins (d : Scratch) : Scratch := { d with bins := [] }

/-- `bins <- bins ++ [bin]` (R220). -/
def Scratch.appendBin (bin : Word) (d : Scratch) : Scratch := { d with bins := d.bins ++ [bin] }

/-- The local `s` of the statistics decoder (R231). -/
def Scratch.loadStat (t : Stats) (d : Scratch) : Scratch := { d with stat := t }

/-! ### Recoveries (R271) -/

/-- `SyncAbandon` (R125, R272): the diagnostic event, then the whole buffer is cleared. -/
def State.raiseSyncAbandon (s : State) : State :=
  (s.emit (.diag (.syncAbandon s.buf.length))).clearBuf.suspend

/-- `BadHeader` (R128, R273): the diagnostic event, then the whole buffer is cleared and the block seeks
again. -/
def State.raiseBadHeader (s : State) : State :=
  (((s.emit (.diag (.badHeader s.hdr.totalPacketLen s.buf.length))).clearBuf).setHdrValid false).continueIn
    .seekingSync

/-- `TruncatedTlvHeader` (R173, R274): error code 1, the walk stops. -/
def Scratch.raiseTruncatedTlvHeader (d : Scratch) : Scratch := d.raise .truncatedTlvHeader

/-- `TlvLengthExceedsBuffer` (R175, R176, R275): error code 2, the walk stops. -/
def Scratch.raiseTlvLengthExceedsBuffer (d : Scratch) : Scratch := d.raise .tlvLengthExceedsBuffer

/-- `MalformedSubRecord` (R201, R230, R276): nothing at all is changed. -/
def Scratch.raiseMalformedSubRecord (d : Scratch) : Scratch := d

/-! ### Outcomes -/

/-- The outcome of an operation whose reads are all inside its views, or the fault of one that is not
(R51). -/
def orFault (o : Option State) : Host.Outcome State Fault Refusal :=
  match o with
  | some s => .next s
  | none => .fault .readPastView

end Sys2Proof.Machine
end

