-- ==== Sys2Proof/Machine/Outputs.lean ====
section
/-! DEFINITION. The output events (spec/44_output_events.md): EMIT_FRAME, EMIT_DIAG, and the beats of a
frame on the `out_*` port (R254). -/

namespace Sys2Proof.Machine

/-- A length as the 32-bit field of a beat (R254). -/
def lengthField (n : Nat) : Word := BitVec.ofNat 32 n

/-- `FRAME_BEGIN`, kind 0. -/
def frameBeginBeat (pf : ParsedFrame) : Beat :=
  ⟨0, (0 : BitVec 96) ++ lengthField pf.points.length ++ pf.numDetectedObj ++ pf.frameNumber⟩

/-- `POINT`, kind 1: `x` in bits 31:0, `noise` in bits 191:160. -/
def pointBeat (p : RadarPoint) : Beat := ⟨1, p.noise ++ p.snr ++ p.doppler ++ p.z ++ p.y ++ p.x⟩

/-- `RANGE_BEGIN`, kind 2. -/
def rangeBeginBeat (bins : List Word) : Beat := ⟨2, (0 : BitVec 160) ++ lengthField bins.length⟩

/-- `RANGE_BIN`, kind 3. -/
def rangeBinBeat (bin : Word) : Beat := ⟨3, (0 : BitVec 160) ++ bin⟩

/-- `STATS`, kind 4. -/
def statsBeat (t : Stats) : Beat :=
  ⟨4, (0 : BitVec 64) ++ t.tempDig ++ t.tempPm ++ t.tempTx ++ t.tempRx ++ t.transmitOutTime
    ++ t.interFrameProcTime⟩

/-- `FRAME_END`, kind 5. -/
def frameEndBeat (pf : ParsedFrame) : Beat := ⟨5, (0 : BitVec 190) ++ pf.errorCode.code⟩

/-- The beats of the range profile: none when it is absent. -/
def rangeBeats : Option (List Word) → List Beat
  | none => []
  | some bins => rangeBeginBeat bins :: bins.map rangeBinBeat

/-- The beat of the statistics: none when they are absent. -/
def statsBeats : Option Stats → List Beat
  | none => []
  | some t => [statsBeat t]

/-- The beats of a Parsed Frame, in order (R254). -/
def frameBeats (pf : ParsedFrame) : List Beat :=
  frameBeginBeat pf :: (pf.points.map pointBeat ++ (rangeBeats pf.rangeProfile
    ++ (statsBeats pf.stats ++ [frameEndBeat pf])))

/-- `emit FRAME(pf)` (R251), and its beats offered on the port (R254). -/
def State.emitFrame (s : State) : State := (s.emit (.frame s.dec.pf)).offerBeats (frameBeats s.dec.pf)

/-- `diag_kind` of a diagnostic event (R256). -/
def diagKind (d : Diag) : BitVec 1 := (encodeDiag d).1

/-- `diag_info` of a diagnostic event (R256). -/
def diagInfo (d : Diag) : BitVec 64 := (encodeDiag d).2

/-- `EMIT_FRAME` (R251): the event carries the Parsed Frame as it stands. -/
def execEmitFrame (s : State) : Host.Outcome State Fault Refusal := .next s.emitFrame

/-- `EMIT_DIAG` (R256): the event, and no other change (R257). -/
def execEmitDiag (d : Diag) (s : State) : Host.Outcome State Fault Refusal :=
  .next (s.emit (.diag d))

end Sys2Proof.Machine
end

