-- ==== Sys2Proof/Machine/Decoders.lean ====
section
/-! DEFINITION. The registered decoders, the skip, the decompressor, and the layouts of the value
formats (spec/43_tlv_decoders.md). Each decoder is a function of its value view and of the scratch it
extends (R58), so it can change neither `buf` nor the header nor the walk's cursor (R177, R241). -/

namespace Sys2Proof.Machine

/-- The record loop of `DEC_POINTS` (R204): `count` records of 10 bytes, with the early stop of R206. -/
def pointLoop : Nat → List Byte → Scratch → Option Scratch
  | 0, _, d => some d
  | count + 1, v, d =>
    if v.length < Config.pointRecLen then some d
    else do
      let r ← readRawPoint v
      pointLoop count (v.drop Config.pointRecLen) ((d.loadRaw r).decompressRaw.appendPoint)

/-- `dec_points(V, pf)` (R201 to R208). -/
def decPoints (v : List Byte) (d : Scratch) : Option Scratch :=
  if v.length < Config.unitHdrLen then some d.raiseMalformedSubRecord
  else do
    let u ← readUnits v
    pointLoop ((v.length - Config.unitHdrLen) / Config.pointRecLen) (v.drop Config.unitHdrLen)
      (d.loadUnits u)

/-- The bin loop of `DEC_RANGE` (R220, R221), with the early stop of R222. -/
def binLoop : Nat → List Byte → Scratch → Option Scratch
  | 0, _, d => some d
  | count + 1, v, d =>
    if v.length < Config.rangeBinLen then some d
    else do
      let bin ← u32le v 0
      binLoop count (v.drop Config.rangeBinLen) (d.appendBin bin)

/-- `dec_range(V, pf)` (R220 to R223). -/
def decRange (v : List Byte) (d : Scratch) : Option Scratch := do
  let d' ← binLoop (v.length / Config.rangeBinLen) v d.clearBins
  pure (d'.setRange d'.bins)

/-- `dec_stats(V, pf)` (R230 to R233). -/
def decStats (v : List Byte) (d : Scratch) : Option Scratch :=
  if v.length < Config.statsMinLen then some d.raiseMalformedSubRecord
  else do
    let t ← readStats v
    let d' := d.loadStat t
    pure (d'.setStats d'.stat)

/-- No decoder for the type: the value is not read and nothing changes (R240). -/
def decSkip (_type : Word) (_v : List Byte) (d : Scratch) : Option Scratch := some d

/-- The dispatch on the 32-bit type word (R85, R177, R200). -/
def dispatch (type : Word) (v : List Byte) (d : Scratch) : Option Scratch :=
  if type = Config.typePoints then decPoints v d
  else if type = Config.typeRange then decRange v d
  else if type = Config.typeStats then decStats v d
  else decSkip type v d

/-- `DEC_POINTS`. -/
def execDecPoints (v : List Byte) (s : State) : Host.Outcome State Fault Refusal :=
  orFault ((decPoints v s.dec).map (s.withDec ·))

/-- `DEC_RANGE`. -/
def execDecRange (v : List Byte) (s : State) : Host.Outcome State Fault Refusal :=
  orFault ((decRange v s.dec).map (s.withDec ·))

/-- `DEC_STATS`. -/
def execDecStats (v : List Byte) (s : State) : Host.Outcome State Fault Refusal :=
  orFault ((decStats v s.dec).map (s.withDec ·))

/-- `DEC_SKIP`. -/
def execDecSkip (type : Word) (v : List Byte) (s : State) : Host.Outcome State Fault Refusal :=
  orFault ((decSkip type v s.dec).map (s.withDec ·))

/-- `POINT_DECOMPRESS` (R205): the record's raw fields, then the six products, left in `p`. -/
def execPointDecompress (r : RawPoint) (s : State) : Host.Outcome State Fault Refusal :=
  .next (s.withDec (s.dec.loadRaw r).decompressRaw)

/-- `LAYOUT_POINT_UNIT_HEADER` (R202): the four unit registers; the counts have no effect. -/
def execLayoutPointUnitHeader (u : Units) (_counts : Word) (s : State) :
    Host.Outcome State Fault Refusal :=
  .next (s.withDec (s.dec.loadUnits u))

/-- `LAYOUT_COMPACT_POINT` (R87): the six raw fields. -/
def execLayoutCompactPoint (r : RawPoint) (s : State) : Host.Outcome State Fault Refusal :=
  .next (s.withDec (s.dec.loadRaw r))

/-- `LAYOUT_RANGE_BIN` (R88, R220): one more bin. -/
def execLayoutRangeBin (bin : Word) (s : State) : Host.Outcome State Fault Refusal :=
  .next (s.withDec (s.dec.appendBin bin))

/-- `LAYOUT_STATS` (R231): the six fields; the power levels and the bytes from offset 24 have no effect. -/
def execLayoutStats (t : Stats) (_power : BitVec 64) (_rest : List Byte) (s : State) :
    Host.Outcome State Fault Refusal :=
  .next (s.withDec (s.dec.loadStat t))

end Sys2Proof.Machine
end

