-- ==== Sys2Proof/Machine/Walk.lean ====
section
/-! DEFINITION. The TLV walk (spec/42_tlv_walker.md) and frame assembly (spec/41_header_parser.md R158):
functions of the scratch and of the header's record count, reading the payload view only (R58, R170). -/

namespace Sys2Proof.Machine

/-- The loop test `k < hdr.num_tlvs`, a signed comparison (R171, R181). -/
def recordsLeft (numTlvs : Word) (d : Scratch) : Bool := (d.k : Int) < numTlvs.toInt

/-- Guard 1 fails: fewer than 8 bytes remain, `n - cur < 8` (R173). -/
def guardOneFails (d : Scratch) : Bool := (d.n : Int) - d.cur < Config.tlvHdrLen

/-- Guard 2 fails: the length is negative or exceeds the bytes remaining after the record header
(R175, R176). -/
def guardTwoFails (d : Scratch) : Bool := d.tlvLen.toInt < 0 || (d.n : Int) - d.cur < d.tlvLen.toInt

/-- Reading the record header at the cursor (R174). -/
def readRecordHeader (d : Scratch) : Option Scratch := do
  let type ← u32le d.payload d.cur
  let len ← u32le d.payload (d.cur + 4)
  pure (d.loadRecordHeader type len)

/-- The value view `V = P[cur : cur + tlv_len]` (R177). -/
def Scratch.value (d : Scratch) : Option (List Byte) := memRead d.payload d.cur d.tlvLen.toNat

/-- The rest of a step whose record header has been read: guard 2, dispatch on the isolated view,
advance, count (R175 to R179). -/
def walkRecord (d : Scratch) : Option Scratch :=
  if guardTwoFails d then some d.raiseTlvLengthExceedsBuffer
  else do
    let v ← d.value
    let d' ← dispatch d.tlvType v d
    pure (d'.advance d.tlvLen.toNat)

/-- One `TLV_STEP` (R171 to R179): the loop test, guard 1, the record header, then `walkRecord`. -/
def tlvStep (numTlvs : Word) (d : Scratch) : Option Scratch :=
  if recordsLeft numTlvs d then
    if guardOneFails d then some d.raiseTruncatedTlvHeader
    else do
      let d' ← readRecordHeader d
      walkRecord d'
  else some d.endWalk

/-- The walk: steps until one says stop (R171). -/
def walkLoop (numTlvs : Word) : Nat → Scratch → Option Scratch
  | 0, d => some d
  | fuel + 1, d =>
    if d.walking then do
      let d' ← tlvStep numTlvs d
      walkLoop numTlvs fuel d'
    else some d

/-- A bound on the steps of a walk: every completed step uses at least 8 payload bytes (R6, R182). -/
def walkFuel (d : Scratch) : Nat := d.n / Config.tlvHdrLen + 2

/-- `frame_assemble(F)` (R158): decode the header, create the Parsed Frame, walk the payload. -/
def frameAssemble (f : List Byte) (s : State) : Option State := do
  let h ← readHeader (f.take Config.headerLen)
  let d := s.dec.begin f h
  let d' ← walkLoop h.numTlvs (walkFuel d) d
  pure ((s.latchHeader h).withDec d')

/-- `TLV_STEP`: one record of the walk under the latched header's count. The spec has it only inside the
walk; invoked alone it does not consult `walking`, so after the walk has stopped, or with none begun, it runs
the step again and may write an error code over an earlier one (DESIGN CHOICE, log entry 12). -/
def execTlvStep (s : State) : Host.Outcome State Fault Refusal :=
  orFault ((tlvStep s.hdr.numTlvs s.dec).map (s.withDec ·))

/-- `FRAME_ASSEMBLE` (R158). -/
def execFrameAssemble (f : List Byte) (s : State) : Host.Outcome State Fault Refusal :=
  orFault (frameAssemble f s)

/-- `LAYOUT_TLV_RECORD` (R174): the type and length words, the cursor moved past them; the value is
not read. -/
def execLayoutTlvRecord (type : Word) (value : List Byte) (s : State) :
    Host.Outcome State Fault Refusal :=
  .next (s.withDec (s.dec.loadRecordHeader type (BitVec.ofNat 32 value.length)))

end Sys2Proof.Machine
end

