-- ==== Sys2Proof/Machine/Synchronizer.lean ====
section
/-! DEFINITION. The Frame Synchronizer (spec/40_frame_synchronizer.md): SEEK, HDR, PAYLOAD, the frame
start, the evaluation loop, PUSH, and RESET (spec/70_reset_and_hazards.md R310). -/

namespace Sys2Proof.Machine

/-- A frame start at offset `i`: the bytes before it are dropped and the header is read next (R123). -/
def State.startFrameAt (i : Nat) (s : State) : State := (s.dropBytes i).continueIn .readingHeader

/-- `SEEK` (R123 to R126): a match wins over the abandon (R279). -/
def seekStep (s : State) : State :=
  match firstMatch Config.magic s.buf with
  | some i => s.startFrameAt i
  | none => if s.params.syncAbandonThreshold < s.buf.length then s.raiseSyncAbandon else s.suspend

/-- `HDR` (R127, R128): wait for 40 bytes, latch the header, accept or reject. -/
def hdrStep (s : State) : Option State :=
  if s.buf.length < Config.headerLen then some s.suspend
  else do
    let h ← readHeader (s.buf.take Config.headerLen)
    let s' := s.latchHeader h
    pure (if headerOk h then (s'.setHdrValid true).continueIn .readingPayload else s'.raiseBadHeader)

/-- `PAYLOAD` (R129, R130): wait for `total_packet_len` bytes, slice the frame, decode and emit it. -/
def payloadStep (s : State) : Option State :=
  if (s.buf.length : Int) < s.hdr.totalPacketLen.toInt then some s.suspend
  else do
    let len := s.hdr.totalPacketLen.toInt.toNat
    let s' ← frameAssemble (s.buf.take len) (s.dropBytes len)
    pure ((s'.emitFrame.setHdrValid false).continueIn .seekingSync)

/-- The step `st` selects (R122). -/
def loopStep (s : State) : Option State :=
  match s.st with
  | .seekingSync => some (seekStep s)
  | .readingHeader => hdrStep s
  | .readingPayload => payloadStep s

/-- The evaluation loop (R121): steps until one says suspend. -/
def evalLoop : Nat → State → Option State
  | 0, s => some s
  | fuel + 1, s =>
    if s.evaluating then do
      let s' ← loopStep s
      evalLoop fuel s'
    else some s

/-- The bound of R132 on the steps of an evaluation. -/
def evalFuel (s : State) : Nat := 3 * (s.buf.length / 40) + 3

/-- An evaluation, from the arrival of a chunk's last byte to the suspension (R120, R121). -/
def evaluate (s : State) : Option State := evalLoop (evalFuel s) (s.continueIn s.st)

/-- `PUSH` (R120): one atomic transition (R64). Refused while another call is in progress (R315) and
beyond the capacity (R53). -/
def execPush (chunk : List Byte) (s : State) : Host.Outcome State Fault Refusal :=
  if s.evaluating || s.chunkOpen then .refused .overlappingCall
  else if s.fits chunk then orFault (evaluate (s.append chunk))
  else .refused .pushExceedsBufCap

/-- `RESET` (R310, R33): the reset state, with no event emitted. The parameters are the instance's
(R30); the events already emitted, the inputs still to come and the count of NaN draws are not the
block's state (log entries 1, 6, 7). -/
def execReset (s : State) : Host.Outcome State Fault Refusal :=
  .next { State.reset with
    params := s.params
    events := s.events
    inputs := s.inputs
    dec := { Scratch.atReset with draws := s.dec.draws } }

/-- `SEEK`. -/
def execSeek (s : State) : Host.Outcome State Fault Refusal := .next (seekStep s)

/-- `HDR`. -/
def execHdr (s : State) : Host.Outcome State Fault Refusal := orFault (hdrStep s)

/-- `PAYLOAD`. -/
def execPayload (s : State) : Host.Outcome State Fault Refusal := orFault (payloadStep s)

/-- `FRAME` (R83, R123): the first occurrence of the magic word in `buf` starts a frame; without one
nothing happens. -/
def execFrame (s : State) : Host.Outcome State Fault Refusal :=
  match firstMatch Config.magic s.buf with
  | some i => .next (s.startFrameAt i)
  | none => .next s

/-- `LAYOUT_FRAME_HEADER` (R151): the eight header registers, written together; `hdr_valid` is HDR's
(R127). -/
def execLayoutFrameHeader (h : Header) (s : State) : Host.Outcome State Fault Refusal :=
  .next (s.latchHeader h)

end Sys2Proof.Machine
end

