-- ==== Sys2Proof/Machine/Dispatch.lean ====
section
/-! DEFINITION. `exec`: one arm per constructor of `Instr`, each one direct call of its meaning. -/

namespace Sys2Proof.Machine

/-- What an operation does in a state. -/
def exec (i : Instr) (s : State) : Host.Outcome State Fault Refusal :=
  match i with
  | .reset => Sys2Proof.Machine.execReset s
  | .push chunk => Sys2Proof.Machine.execPush chunk s
  | .seek => Sys2Proof.Machine.execSeek s
  | .hdr => Sys2Proof.Machine.execHdr s
  | .payload => Sys2Proof.Machine.execPayload s
  | .frame => Sys2Proof.Machine.execFrame s
  | .frameAssemble f => Sys2Proof.Machine.execFrameAssemble f s
  | .tlvStep => Sys2Proof.Machine.execTlvStep s
  | .decPoints v => Sys2Proof.Machine.execDecPoints v s
  | .decRange v => Sys2Proof.Machine.execDecRange v s
  | .decStats v => Sys2Proof.Machine.execDecStats v s
  | .decSkip type v => Sys2Proof.Machine.execDecSkip type v s
  | .pointDecompress r => Sys2Proof.Machine.execPointDecompress r s
  | .emitFrame => Sys2Proof.Machine.execEmitFrame s
  | .emitDiag d => Sys2Proof.Machine.execEmitDiag d s
  | .layoutFrameHeader h => Sys2Proof.Machine.execLayoutFrameHeader h s
  | .layoutTlvRecord type value => Sys2Proof.Machine.execLayoutTlvRecord type value s
  | .layoutPointUnitHeader u counts => Sys2Proof.Machine.execLayoutPointUnitHeader u counts s
  | .layoutCompactPoint r => Sys2Proof.Machine.execLayoutCompactPoint r s
  | .layoutRangeBin bin => Sys2Proof.Machine.execLayoutRangeBin bin s
  | .layoutStats t power rest => Sys2Proof.Machine.execLayoutStats t power rest s

end Sys2Proof.Machine
end

