-- ==== Sys2Proof/Machine/Ports.lean ====
section
/-! DEFINITION. The signal-level binding of spec/10_state.md rule R32, as transactions: a byte offered
on the `in_*` port, a beat taken from the `out_*` port. No clock is modelled (R326); no rule depends on
this binding (decisions D3, D4). -/

namespace Sys2Proof.Machine

/-- `in_ready`: low while an evaluation is running or `buf` is full (R32, R53). -/
def State.inReady (s : State) : Bool := !s.evaluating && s.fits [0]

/-- An accepted byte: it is appended; after the last of its chunk the evaluation loop runs (R32). -/
def acceptByte (data : Byte) (last : Bool) (s : State) : Option State :=
  if last then evaluate { s.append [data] with chunkOpen := false }
  else some { s.append [data] with chunkOpen := true }

/-- A byte offered: without `in_ready` it stays offered and nothing changes, for ever when nothing
frees space (R318); else it is accepted and is no longer offered. The byte stays at the head of the one
queue of inputs, so nothing behind it is served while it is held: no `out_ready`, no RESET (DESIGN CHOICE,
log entry 21). -/
def offerByte (data : Byte) (last : Bool) (rest : List Input) (s : State) :
    Host.Outcome State Fault Refusal :=
  if s.inReady then orFault (acceptByte data last { s with inputs := rest }) else .next s

/-- `out_valid`: a beat waits. -/
def State.outValid (s : State) : Bool := !s.outBeats.isEmpty

/-- An edge with `out_ready = 1`: the oldest beat, if any, is gone; none is reordered (R255). -/
def State.takeBeat (s : State) : State := { s with outBeats := s.outBeats.tail }

/-- The eight bytes of the stream at an offset of `buf` (R83). -/
def State.window (i : Nat) (s : State) : List Byte := (s.buf.drop i).take Config.magicLen

/-- `PUSH` of chunk after chunk, the transport reader's calls in order (R64). -/
def pushAll : List (List Byte) → State → Host.Outcome State Fault Refusal
  | [], s => .next s
  | c :: cs, s =>
    match execPush c s with
    | .next s' => pushAll cs s'
    | .fault f => .fault f
    | .refused r => .refused r

/-- The bytes of a chunk offered one by one on the `in_*` port, the last with `in_last` (R32). -/
def chunkBytes : List Byte → List Input
  | [] => []
  | [b] => [.byte b true]
  | b :: bs => .byte b false :: chunkBytes bs

end Sys2Proof.Machine
end

