-- ==== Sys2Proof/Machine/Step.lean ====
section
/-! DEFINITION. One step. While an evaluation is in progress the block takes the step its state `st`
selects (R121, R122); at rest it takes the next input, and without one it stays as it is (R288). PUSH is
one transition, append and whole evaluation (R64), so a run from reset is at rest after every step. -/

namespace Sys2Proof.Machine

/-- The operation a selector selects, run in `s`; a selector of no operation is refused by name. -/
def runSelected (sel : Selector) (s : State) : Host.Outcome State Fault Refusal :=
  match decode sel with
  | .ok i => exec i s
  | .error why => .refused (.notAnOperation why)

/-- One step of the machine. -/
def step (s : State) : Host.Outcome State Fault Refusal :=
  if s.evaluating then runSelected (.stCode s.st.code) s
  else
    match s.inputs with
    | [] => .next s
    | .select sel :: rest => runSelected sel { s with inputs := rest }
    | .streamAt i :: rest => runSelected (.stream (s.window i)) { s with inputs := rest }
    | .byte data last :: rest => offerByte data last rest s
    | .outReady :: rest => .next { s.takeBeat with inputs := rest }
    | .overlap _ _ :: _ => .refused .overlappingCall

/-- `s` awaiting a payload, with PAYLOAD selected: where no header is latched, the least that R34 (c) asks
of that state is placed too, an accepted header (41 bytes, the least length) in `hdr` and at the head of
`buf`; with nothing more buffered, PAYLOAD waits (R129; log entry 1). -/
def State.selectPayload (s : State) : State :=
  let h := { s.hdr with totalPacketLen := 41 }
  if s.hdrValid then s.continueIn .readingPayload
  else { (((s.latchHeader h).setHdrValid true).continueIn .readingPayload) with buf := headerBytes h }

/-- `s` with the instruction of an opcode-table word where `step` finds its next one: for format `st`,
in `st` itself with an evaluation in progress; for format `stream`, at the head of `buf` with the
comparison at offset 0 next; else as the next input (log entry 1). -/
def State.withFetchWord (s : State) (nbits w : Nat) : State :=
  match tableSelector nbits w with
  | .stCode code =>
    match SyncState.ofCode code with
    | some .readingPayload => s.selectPayload
    | some st => s.continueIn st
    | none => s
  | .stream window =>
    { s with evaluating := false, buf := window ++ s.buf, inputs := .streamAt 0 :: s.inputs }
  | sel => { s with evaluating := false, inputs := .select sel :: s.inputs }

end Sys2Proof.Machine
end

