-- ==== Sys2Proof/Safety.lean ====
section
/-! DEFINITION. What counts as a good state and a safe run, in the terms the statements use: the
invariants of spec/10_state.md rule R34, and the numbers and frames as the rules write them. -/

namespace Sys2Proof.Machine

/-- The part of R34 that holds at every moment, inside an evaluation and inside an unfinished chunk as
well: what each synchronizer state promises about `buf` and `hdr`. -/
def Coherent (s : State) : Prop :=
  match s.st with
  | .seekingSync => s.hdrValid = false
  | .readingHeader => s.hdrValid = false ∧ s.buf.take 8 = Config.magic
  | .readingPayload =>
    s.hdrValid = true ∧ s.buf.take 8 = Config.magic ∧ 40 ≤ s.buf.length ∧
      40 < s.hdr.totalPacketLen.toInt ∧ s.hdr.totalPacketLen.toInt < 10000 ∧
      readHeader (s.buf.take 40) = some s.hdr

/-- The part of R34 that holds once the evaluation loop has suspended: no step can make progress. -/
def Settled (s : State) : Prop :=
  match s.st with
  | .seekingSync =>
    firstMatch Config.magic s.buf = none ∧ s.buf.length ≤ s.params.syncAbandonThreshold
  | .readingHeader => s.buf.length ≤ 39
  | .readingPayload => (s.buf.length : Int) < s.hdr.totalPacketLen.toInt

/-- At rest: between input events (R34, spec/00_scope.md section 6). -/
def AtRest (s : State) : Prop :=
  s.evaluating = false ∧ s.chunkOpen = false ∧ Coherent s ∧ Settled s

/-- An input the outside can give the block: a call of RESET or PUSH, or a signal of the port binding
(R80, R278, R283). The inner operations are steps the block takes by itself. -/
def Input.external : Input → Bool
  | .select .rst => true
  | .select (.chunk _) => true
  | .select _ => false
  | .streamAt _ => false
  | .byte _ _ => true
  | .outReady => true
  | .overlap _ _ => true

/-- The invariant of every run: the outside drives the block through its interface only, the buffer fits
its capacity, the state is coherent, and between input events it is settled. -/
def Inv (s : State) : Prop :=
  (∀ i ∈ s.inputs, i.external = true) ∧ Memory.wf s.params.bufCap s.buf = true ∧ Coherent s ∧
    (s.evaluating = false → s.chunkOpen = false → Settled s)

/-- A walk whose registers fit the payload view (R24, R172): what every walk of the block has. -/
def WalkFits (d : Scratch) : Prop := d.n = d.payload.length ∧ d.cur ≤ d.n

/-- One operation run `k` times, to the first stop. -/
def repeatExec (i : Instr) : Nat → State → Host.Outcome State Fault Refusal
  | 0, s => .next s
  | k + 1, s =>
    match exec i s with
    | .next t => repeatExec i k t
    | .fault f => .fault f
    | .refused r => .refused r

/-- Whether an outcome is a next state. -/
def Completes (o : Host.Outcome State Fault Refusal) : Prop := ∃ t, o = .next t

/-- The diagnostic events among the events of a run. -/
def diagnostics : List Event → List Diag
  | [] => []
  | .frame _ :: es => diagnostics es
  | .diag d :: es => d :: diagnostics es

/-- The Parsed Frames among the events of a run (R257: the projection onto its FRAME events). -/
def frames : List Event → List ParsedFrame
  | [] => []
  | .frame pf :: es => pf :: frames es
  | .diag _ :: es => frames es

/-! ### Numbers and frames, as the rules write them -/

/-- The unsigned number of the four bytes from offset `a`, as R56 writes it. -/
def wireU32 (v : List Byte) (a : Nat) : Nat :=
  (v.getD a 0).toNat + 2 ^ 8 * (v.getD (a + 1) 0).toNat + 2 ^ 16 * (v.getD (a + 2) 0).toNat
    + 2 ^ 24 * (v.getD (a + 3) 0).toNat

/-- The unsigned number of the two bytes from offset `a`, as R55 writes it. -/
def wireU16 (v : List Byte) (a : Nat) : Nat := (v.getD a 0).toNat + 256 * (v.getD (a + 1) 0).toNat

/-- A finite binary32 number. -/
def isFinite (w : Word) : Bool := expField w != 255

/-- The value of a finite binary32 number, in units of 2^-149. -/
def floatValue (w : Word) : Int := if w.getLsbD 31 then -(magnitude w : Int) else magnitude w

/-- The raw integers a compact point record can hold (R211). -/
def isRaw (raw : Int) : Prop := -32768 ≤ raw ∧ raw ≤ 32767

/-- A frame as its header and its payload, with an accepted length that says how long it is (R62, R153). -/
def FrameFits (f : Header × List Byte) : Prop :=
  f.1.totalPacketLen.toInt = 40 + (f.2.length : Int) ∧ 1 ≤ f.2.length ∧ f.2.length ≤ 9959

/-- The bytes of a frame (R81, R82). -/
def wireFrame (f : Header × List Byte) : List Byte := headerBytes f.1 ++ f.2

end Sys2Proof.Machine
end

