-- ==== Sys2Proof/Certificates/Slice0/Obligations.lean ====
section
/-! DEFINITION. The statements for the provers, each the sentence of spec/ its docstring names. A
statement that rests on a choice of the model's (a log entry) says so. -/

open Sys2Proof Sys2Proof.Machine

/-! ### Reset, the step, the invariant -/

/-- R33: the reset state has `st = ST_SEEKING_SYNC`, `buf = []`, `hdr_valid = 0`, no event pending, no
evaluation in progress; it is case (a) of R34. -/
def Obligations.ResetLeavesTheInitialState : Prop :=
  State.reset.st = .seekingSync ∧ State.reset.buf = [] ∧ State.reset.hdrValid = false ∧
    State.reset.events = [] ∧ State.reset.outBeats = [] ∧ State.reset.dec.walking = false ∧
    AtRest State.reset

/-- R310, R33: from any state RESET goes to `ST_SEEKING_SYNC` with an empty buffer and no valid header, abandons
any decode, and emits nothing; in the reset state it changes nothing. That the events emitted before, the inputs
still to come and the parameters stay (log entries 7, 1, 2), that an open chunk is closed (log entry 9) and that the
beats still waiting are gone, R33's "no output event is pending" (log entry 8), are the model's readings. -/
def Obligations.ResetReturnsToSeeking : Prop :=
  (∀ s : State, ∃ t, exec .reset s = .next t ∧ t.st = .seekingSync ∧ t.buf = [] ∧ t.hdrValid = false ∧
    t.evaluating = false ∧ t.dec.walking = false ∧ t.outBeats = [] ∧ t.events = s.events ∧ t.params = s.params ∧
    t.inputs = s.inputs ∧ AtRest t) ∧
  exec .reset State.reset = .next State.reset

/-- The invariant holds at reset. -/
def Obligations.ResetMeetsTheInvariant : Prop := Inv State.reset

/-- Every step keeps the invariant: R34 between input events, its part `Coherent` at every moment, the
buffer inside its capacity (R53). -/
def Obligations.StepKeepsTheInvariant : Prop :=
  ∀ s t : State, Inv s → step s = .next t → Inv t

/-- R51, R136: no step of a run reads past a view; the block has no fault. -/
def Obligations.StepNeverFaults : Prop :=
  ∀ (s : State) (f : Fault), Inv s → step s ≠ .fault f

/-- A step runs the operation that is selected: at rest the one the next input's selector decodes to (or the
frame start, when the eight bytes at the given offset are the magic word), inside an evaluation the one `st`
selects (R122); without an input the block stays at rest (R288). The queue of inputs is the model's
(log entry 1). -/
def Obligations.StepRunsTheSelectedOperation : Prop :=
  (∀ (s : State) (sel : Selector) (rest : List Input) (i : Instr), s.evaluating = false →
    s.inputs = .select sel :: rest → decode sel = .ok i → step s = exec i { s with inputs := rest }) ∧
  (∀ (s : State) (a : Nat) (rest : List Input), s.evaluating = false → s.inputs = .streamAt a :: rest →
    (s.buf.drop a).take 8 = Config.magic → step s = exec .frame { s with inputs := rest }) ∧
  (∀ s : State, s.evaluating = true → s.st = .seekingSync → step s = exec .seek s) ∧
  (∀ s : State, s.evaluating = true → s.st = .readingHeader → step s = exec .hdr s) ∧
  (∀ s : State, s.evaluating = true → s.st = .readingPayload → step s = exec .payload s) ∧
  (∀ s : State, s.evaluating = false → s.inputs = [] → step s = .next s)

/-! ### PUSH -/

/-- R136, R121, R34: at rest and within the capacity, PUSH is defined and returns, with the block at rest
again; the parameters and the pending inputs are unchanged, and events are only added. -/
def Obligations.PushAlwaysReturnsToRest : Prop :=
  ∀ (s : State) (chunk : List Byte), AtRest s →
    (∀ cap, s.params.bufCap = some cap → s.buf.length + chunk.length ≤ cap) →
    ∃ t, exec (.push chunk) s = .next t ∧ AtRest t ∧ t.params = s.params ∧ t.inputs = s.inputs ∧
      ∃ es, t.events = s.events ++ es

/-- R53: a PUSH with `len(buf) + len(chunk) > BUF_CAP` is refused. -/
def Obligations.PushBeyondCapacityIsRefused : Prop :=
  ∀ (s : State) (chunk : List Byte) (cap : Nat), s.evaluating = false → s.chunkOpen = false →
    s.params.bufCap = some cap → cap < s.buf.length + chunk.length →
    exec (.push chunk) s = .refused .pushExceedsBufCap

/-- R315: two calls that overlap are refused. That a PUSH inside another call's evaluation or inside an unfinished
chunk of the byte port is such a call, and so is refused as well, is the model's inference (log entry 11), and the
queue of inputs is the model's (log entry 1). -/
def Obligations.OverlappingCallsAreRefused : Prop :=
  (∀ (s : State) (a b : Selector) (rest : List Input), s.evaluating = false →
    s.inputs = .overlap a b :: rest → step s = .refused .overlappingCall) ∧
  (∀ (s : State) (chunk : List Byte), s.evaluating = true ∨ s.chunkOpen = true →
    exec (.push chunk) s = .refused .overlappingCall)

/-- R121, R132: a PUSH is the append followed by the steps that `st` selects, one after the other, at most
`3 * (len(buf ++ chunk) div 40) + 3` of them. -/
def Obligations.PushIteratesTheSelectedSteps : Prop :=
  ∀ (s t : State) (chunk : List Byte), AtRest s → exec (.push chunk) s = .next t →
    ∃ k ≤ 3 * ((s.buf ++ chunk).length / 40) + 3,
      Host.Core.run Sys2Proof.core k { s with buf := s.buf ++ chunk, evaluating := true } = .next t

/-- R134: PUSH of the empty chunk changes nothing and emits nothing. -/
def Obligations.EmptyChunkChangesNothing : Prop :=
  ∀ s : State, AtRest s → (∀ cap, s.params.bufCap = some cap → s.buf.length ≤ cap) →
    exec (.push []) s = .next s

/-- R131: while a header or a payload is awaited, every byte is taken as part of it, whatever it is: a chunk
that does not complete it is appended and nothing else happens. -/
def Obligations.WaitingStatesTakeAnyByte : Prop :=
  ∀ (s : State) (chunk : List Byte), AtRest s →
    (∀ cap, s.params.bufCap = some cap → s.buf.length + chunk.length ≤ cap) →
    (s.st = .readingHeader ∧ s.buf.length + chunk.length < 40) ∨
      (s.st = .readingPayload ∧ ((s.buf.length + chunk.length : Nat) : Int) < s.hdr.totalPacketLen.toInt) →
    exec (.push chunk) s = .next { s with buf := s.buf ++ chunk }

/-- R128, R321: a chunk that completes a bad header loses the whole buffer, what follows the header
included; nothing is searched again (90_conflicts.md C10). -/
def Obligations.BadHeaderLosesTheWholeBuffer : Prop :=
  ∀ (s : State) (chunk : List Byte) (h : Header), AtRest s → s.st = .readingHeader →
    (∀ cap, s.params.bufCap = some cap → s.buf.length + chunk.length ≤ cap) →
    readHeader ((s.buf ++ chunk).take 40) = some h →
    (h.totalPacketLen.toInt ≤ 40 ∨ 10000 ≤ h.totalPacketLen.toInt) →
    exec (.push chunk) s = .next { s with
      buf := [], st := .seekingSync, hdr := h, hdrValid := false
      events := s.events ++ [.diag (.badHeader h.totalPacketLen (s.buf ++ chunk).length)] }

/-- R135: where the stream is cut does not matter unless a recovery clears the buffer: when the first of two
chunks causes no diagnostic event, pushing them one after the other and pushing them joined give the same
state and the same events. -/
def Obligations.ChunkBoundaryDoesNotMatter : Prop :=
  ∀ (s s1 t : State) (a b : List Byte), AtRest s → exec (.push a) s = .next s1 →
    diagnostics s1.events = diagnostics s.events → exec (.push (a ++ b)) s = .next t →
    exec (.push b) s1 = .next t

/-- R133, R135 and the first testable property (95_test_vectors.md S6): well-formed frames, back to back and
cut into chunks anyhow, are all emitted, in order, each with the fields its bytes decode to, and nothing else is
emitted. The threshold is at least 7, the condition of R135 with `g = 0`. -/
def Obligations.BackToBackFramesAllArrive : Prop :=
  ∀ (s : State) (fs : List (Header × List Byte)) (chunks : List (List Byte)), AtRest s →
    s.st = .seekingSync → s.buf = [] → s.params.bufCap = none → 7 ≤ s.params.syncAbandonThreshold →
    (∀ f ∈ fs, FrameFits f) → chunks.flatten = (fs.map wireFrame).flatten →
    ∃ t pfs, pushAll chunks s = .next t ∧ t.st = .seekingSync ∧ t.buf = [] ∧
      t.events = s.events ++ pfs.map Event.frame ∧
      List.Forall₂ (fun f pf => pf.frameNumber = f.1.frameNumber ∧
        ∃ u v, exec (.frameAssemble (wireFrame f)) u = .next v ∧ v.dec.pf = pf) fs pfs

/-- R20, R23, R33: no result depends on a dead register. With the `hdr` registers changed while `hdr_valid = 0`
and the scratch changed in any way (but for the model's count of NaN draws), PUSH leaves the same `st`, `buf`,
`hdr_valid`, the same header where it is valid, and the same events and beats. -/
def Obligations.DeadRegistersDoNotMatter : Prop :=
  ∀ (s t : State) (chunk : List Byte) (h : Header) (d : Scratch), AtRest s →
    (s.hdrValid = true → h = s.hdr) → d.draws = s.dec.draws → exec (.push chunk) s = .next t →
    ∃ t', exec (.push chunk) { s with hdr := h, dec := d } = .next t' ∧ t'.st = t.st ∧ t'.buf = t.buf ∧
      t'.hdrValid = t.hdrValid ∧ (t.hdrValid = true → t'.hdr = t.hdr) ∧ t'.events = t.events ∧
      t'.outBeats = t.outBeats ∧ t'.dec.draws = t.dec.draws

/-! ### SEEK, FRAME, HDR, PAYLOAD -/

/-- R123: at the first offset at which the magic word stands, the bytes before it are dropped, the header is
read next and the loop continues. -/
def Obligations.SeekStartsAtTheFirstMagic : Prop :=
  ∀ (s : State) (i : Nat), (s.buf.drop i).take 8 = Config.magic →
    (∀ j < i, (s.buf.drop j).take 8 ≠ Config.magic) →
    exec .seek s = .next { s with buf := s.buf.drop i, st := .readingHeader, evaluating := true }

/-- R125: without a match and above the threshold, the whole buffer is cleared, with the diagnostic event, and
the loop suspends. -/
def Obligations.SeekAbandonsALongBuffer : Prop :=
  ∀ s : State, (∀ j, (s.buf.drop j).take 8 ≠ Config.magic) →
    s.params.syncAbandonThreshold < s.buf.length →
    exec .seek s = .next { s with
      buf := [], evaluating := false, events := s.events ++ [.diag (.syncAbandon s.buf.length)] }

/-- R126: without a match and at or below the threshold, the loop suspends and nothing is written. -/
def Obligations.SeekKeepsAShortBuffer : Prop :=
  ∀ s : State, (∀ j, (s.buf.drop j).take 8 ≠ Config.magic) →
    s.buf.length ≤ s.params.syncAbandonThreshold →
    exec .seek s = .next { s with evaluating := false }

/-- R83 with R123: the frame start is the first occurrence of the eight bytes; without one nothing happens.
That the table's row FRAME acts as the match arm of SEEK is the model's reading (log entry 12). -/
def Obligations.FrameStartsAtTheFirstMagic : Prop :=
  ∀ s : State,
    (∀ i, (s.buf.drop i).take 8 = Config.magic → (∀ j < i, (s.buf.drop j).take 8 ≠ Config.magic) →
      exec .frame s = .next { s with buf := s.buf.drop i, st := .readingHeader, evaluating := true }) ∧
    ((∀ j, (s.buf.drop j).take 8 ≠ Config.magic) → exec .frame s = .next s)

/-- R127: with fewer than 40 bytes HDR suspends; with 40 and a length in range it latches the header, sets
`hdr_valid`, goes to `ST_READING_PAYLOAD` and continues. The header bytes stay in the buffer. -/
def Obligations.HdrAcceptsALengthInRange : Prop :=
  (∀ s : State, s.buf.length < 40 → exec .hdr s = .next { s with evaluating := false }) ∧
  (∀ s : State, 40 ≤ s.buf.length → ∃ h, readHeader (s.buf.take 40) = some h ∧
    (40 < h.totalPacketLen.toInt → h.totalPacketLen.toInt < 10000 →
      exec .hdr s = .next { s with
        hdr := h, hdrValid := true, st := .readingPayload, evaluating := true }))

/-- R128: with a length out of range HDR clears the whole buffer, with the diagnostic event, clears
`hdr_valid`, goes to `ST_SEEKING_SYNC` and continues. (The rejected fields stay in the dead `hdr` registers:
log entry 16.) -/
def Obligations.HdrRejectsALengthOutOfRange : Prop :=
  ∀ s : State, 40 ≤ s.buf.length → ∃ h, readHeader (s.buf.take 40) = some h ∧
    (h.totalPacketLen.toInt ≤ 40 ∨ 10000 ≤ h.totalPacketLen.toInt →
      exec .hdr s = .next { s with
        hdr := h, buf := [], hdrValid := false, st := .seekingSync, evaluating := true
        events := s.events ++ [.diag (.badHeader h.totalPacketLen s.buf.length)] })

/-- R151, R56: the eight fields are the little-endian words at offsets 8, 12, ..., 36 of any 40 bytes. -/
def Obligations.HeaderFieldsAreReadAtTheirOffsets : Prop :=
  ∀ v : List Byte, v.length = 40 → ∃ h, readHeader v = some h ∧
    h.version.toNat = wireU32 v 8 ∧ h.totalPacketLen.toNat = wireU32 v 12 ∧
    h.platform.toNat = wireU32 v 16 ∧ h.frameNumber.toNat = wireU32 v 20 ∧
    h.timeCpuCycles.toNat = wireU32 v 24 ∧ h.numDetectedObj.toNat = wireU32 v 28 ∧
    h.numTlvs.toNat = wireU32 v 32 ∧ h.subFrameNumber.toNat = wireU32 v 36

/-- R154: the length check does not depend on whether the length is read as signed or unsigned, and is a
check of bits 31:14 and of the low 14 bits. -/
def Obligations.HeaderCheckIgnoresSignedness : Prop :=
  ∀ h : Header,
    (headerOk h = true ↔ 40 < h.totalPacketLen.toInt ∧ h.totalPacketLen.toInt < 10000) ∧
    (headerOk h = true ↔ 40 < h.totalPacketLen.toNat ∧ h.totalPacketLen.toNat < 10000) ∧
    (headerOk h = true ↔ h.totalPacketLen.extractLsb' 14 18 = 0 ∧
      41 ≤ (h.totalPacketLen.extractLsb' 0 14).toNat ∧ (h.totalPacketLen.extractLsb' 0 14).toNat ≤ 9999)

/-- R129: with fewer bytes than `total_packet_len` PAYLOAD suspends and nothing is written. -/
def Obligations.PayloadWaitsForTheFrame : Prop :=
  ∀ s : State, (s.buf.length : Int) < s.hdr.totalPacketLen.toInt →
    exec .payload s = .next { s with evaluating := false }

/-- R130: with `L = total_packet_len` bytes buffered, the first `L` are the frame, the surplus stays, what
FRAME_ASSEMBLE makes of the frame is emitted whatever its error code (R184, R252), `hdr_valid` is cleared, and
the loop continues in `ST_SEEKING_SYNC`. That the fields of the emitted frame stay in the dead `hdr` registers
(log entry 16) and its decode in the dead scratch (log entry 4), that the event joins those emitted before (log
entry 7), and that its beats (R254) queue behind those that wait (log entry 8), are the model's choices. -/
def Obligations.PayloadSlicesDecodesAndEmits : Prop :=
  ∀ (s : State) (len : Nat), s.hdr.totalPacketLen.toInt = len → 40 < len → len < 10000 →
    len ≤ s.buf.length →
    ∃ u, exec (.frameAssemble (s.buf.take len)) s = .next u ∧
      exec .payload s = .next { s with
        buf := s.buf.drop len, st := .seekingSync, hdr := u.hdr, hdrValid := false, dec := u.dec
        evaluating := true, events := s.events ++ [.frame u.dec.pf]
        outBeats := s.outBeats ++ frameBeats u.dec.pf }

/-! ### FRAME_ASSEMBLE and the walk -/

/-- R157, R158: on every complete frame view FRAME_ASSEMBLE answers; it decodes the header, copies the frame
number and the object count into a Parsed Frame, walks the payload to its end, and changes nothing outside the
header registers and the scratch. -/
def Obligations.FrameAssembleCopiesTheHeaderFields : Prop :=
  ∀ (s : State) (f : List Byte), 41 ≤ f.length → f.length ≤ 9999 →
    ∃ h d, readHeader (f.take 40) = some h ∧
      exec (.frameAssemble f) s = .next { s with hdr := h, dec := d } ∧
      d.pf.frameNumber = h.frameNumber ∧ d.pf.numDetectedObj = h.numDetectedObj ∧ d.frame = f ∧
      d.n = f.length - 40 ∧ d.cur ≤ d.n ∧ d.walking = false

/-- R158, R171: FRAME_ASSEMBLE is the walk, record by record: from the started scratch (the frame view, `n` its payload
length, `cur` and `k` 0, a new Parsed Frame) it answers what repeated TLV_STEP answers, the first time a step has
stopped the walk, after at most `n div 8 + 2` steps. That the scratch's other registers keep what they held is the
model's choice (log entry 4), and `walking` is its control bit (log entry 9). -/
def Obligations.FrameAssembleIteratesTheWalk : Prop :=
  ∀ (s start : State) (f : List Byte) (h : Header), 41 ≤ f.length → f.length ≤ 9999 →
    readHeader (f.take 40) = some h →
    start = { s with
      hdr := h
      dec := { s.dec with
        frame := f, n := f.length - 40, cur := 0, k := 0, walking := true
        pf := ⟨h.frameNumber, h.numDetectedObj, [], none, none, .none⟩ } } →
    ∃ t, ∃ k ≤ (f.length - 40) / 8 + 2, exec (.frameAssemble f) s = .next t ∧
      repeatExec .tlvStep k start = .next t ∧ t.dec.walking = false ∧
      ∀ j < k, ∃ u, repeatExec .tlvStep j start = .next u ∧ u.dec.walking = true

/-- R181: with a count of 0 or below the walk is empty: no points, no range profile, no statistics, error code
`ERR_NONE`. -/
def Obligations.EmptyWalkForACountBelowOne : Prop :=
  ∀ (s : State) (f : List Byte) (h : Header), 41 ≤ f.length → f.length ≤ 9999 →
    readHeader (f.take 40) = some h → h.numTlvs.toInt ≤ 0 →
    ∃ t, exec (.frameAssemble f) s = .next t ∧
      t.dec.pf = ⟨h.frameNumber, h.numDetectedObj, [], none, none, .none⟩

/-- R171, R182: the walk ends in exactly one of three ways: the count reached (error code none), guard 1 failed,
guard 2 failed. The records completed fit the payload, eight bytes each at least. -/
def Obligations.WalkEndsInOneOfThreeWays : Prop :=
  ∀ (s t : State) (f : List Byte), 41 ≤ f.length → exec (.frameAssemble f) s = .next t →
    8 * t.dec.k ≤ t.dec.cur ∧
    ((t.dec.pf.errorCode = .none ∧ (t.dec.k : Int) = max 0 t.hdr.numTlvs.toInt) ∨
      (t.dec.pf.errorCode = .truncatedTlvHeader ∧ (t.dec.k : Int) < t.hdr.numTlvs.toInt ∧
        t.dec.n - t.dec.cur < 8) ∨
      (t.dec.pf.errorCode = .tlvLengthExceedsBuffer ∧ (t.dec.k : Int) < t.hdr.numTlvs.toInt ∧
        (t.dec.tlvLen.toInt < 0 ∨ (t.dec.n : Int) - t.dec.cur < t.dec.tlvLen.toInt)))

/-- R171: at the count the walk ends, with nothing else changed. -/
def Obligations.TlvStepEndsAtTheCount : Prop :=
  ∀ s : State, s.hdr.numTlvs.toInt ≤ s.dec.k →
    exec .tlvStep s = .next { s with dec := { s.dec with walking := false } }

/-- R173: with a record promised and fewer than 8 bytes left, error code 1 is set and the walk stops; what was
decoded stays, and nothing is read. -/
def Obligations.TlvStepTruncatedHeader : Prop :=
  ∀ s : State, (s.dec.k : Int) < s.hdr.numTlvs.toInt → (s.dec.n : Int) - s.dec.cur < 8 →
    exec .tlvStep s = .next { s with dec := { s.dec with
      walking := false, pf := { s.dec.pf with errorCode := .truncatedTlvHeader } } }

/-- R174, R175, R176: with the 8 bytes there, type and length are read and the cursor moves past them; a length
that is negative or exceeds the bytes that then remain sets error code 2 and stops the walk, whatever the type. -/
def Obligations.TlvStepLengthExceeds : Prop :=
  ∀ (s : State) (type len : Word), (s.dec.k : Int) < s.hdr.numTlvs.toInt → s.dec.cur + 8 ≤ s.dec.n →
    u32le (s.dec.frame.drop 40) s.dec.cur = some type →
    u32le (s.dec.frame.drop 40) (s.dec.cur + 4) = some len →
    (len.toInt < 0 ∨ (s.dec.n : Int) - (s.dec.cur + 8 : Nat) < len.toInt) →
    exec .tlvStep s = .next { s with dec := { s.dec with
      tlvType := type, tlvLen := len, cur := s.dec.cur + 8
      walking := false, pf := { s.dec.pf with errorCode := .tlvLengthExceedsBuffer } } }

/-- R174, R177, R178, R179: a record that passes both guards is run by the operation its type selects, on the
isolated view of exactly its value; then the cursor is past the value, whatever the operation did, and the record
is counted. -/
def Obligations.TlvStepRunsTheRecord : Prop :=
  ∀ (s : State) (type len : Word), WalkFits s.dec → (s.dec.k : Int) < s.hdr.numTlvs.toInt →
    s.dec.cur + 8 ≤ s.dec.n → u32le (s.dec.frame.drop 40) s.dec.cur = some type →
    u32le (s.dec.frame.drop 40) (s.dec.cur + 4) = some len → 0 ≤ len.toInt →
    len.toInt ≤ (s.dec.n : Int) - (s.dec.cur + 8 : Nat) →
    ∃ u, exec (decodeType type (((s.dec.frame.drop 40).drop (s.dec.cur + 8)).take len.toNat))
        { s with dec := { s.dec with tlvType := type, tlvLen := len, cur := s.dec.cur + 8 } } = .next u ∧
      exec .tlvStep s = .next { u with dec := { u.dec with
        cur := s.dec.cur + 8 + len.toNat, k := s.dec.k + 1 } }

/-- R28, R185: a walk inside its payload stays inside it; the cursor never moves backwards, and no step of the
walk touches the frame view or the payload length. -/
def Obligations.TlvStepNeverMovesBackwards : Prop :=
  ∀ s : State, WalkFits s.dec → ∃ d, exec .tlvStep s = .next { s with dec := d } ∧ WalkFits d ∧
    s.dec.cur ≤ d.cur ∧ s.dec.k ≤ d.k ∧ d.frame = s.dec.frame ∧ d.n = s.dec.n

/-- R176: guard 2 is the one comparison of the length's pattern, read as unsigned, with the bytes remaining. -/
def Obligations.GuardTwoIsOneUnsignedComparison : Prop :=
  ∀ d : Scratch, d.cur ≤ d.n → d.n ≤ 9959 → (guardTwoFails d = true ↔ d.n - d.cur < d.tlvLen.toNat)

/-! ### The decoders -/

/-- R201, R230, R271: a type-301 value shorter than 20 bytes and a type-306 value shorter than 24 do nothing at
all. -/
def Obligations.MalformedSubRecordChangesNothing : Prop :=
  ∀ (s : State) (v : List Byte),
    (v.length < 20 → exec (.decPoints v) s = .next s) ∧
    (v.length < 24 → exec (.decStats v) s = .next s)

/-- R202 to R205, R208: DEC_POINTS loads the four units, and appends one point for each whole 10-byte record, in
wire order, each the decompression of that record under those units; the rest of the Parsed Frame and the walk's
registers are unchanged. -/
def Obligations.DecPointsAppendsEveryRecord : Prop :=
  ∀ (s : State) (v : List Byte), 20 ≤ v.length →
    ∃ u d new, exec (.decPoints v) s = .next { s with dec := d } ∧ d.unit = u ∧
      u.xyz.toNat = wireU32 v 0 ∧ u.doppler.toNat = wireU32 v 4 ∧ u.snr.toNat = wireU32 v 8 ∧
      u.noise.toNat = wireU32 v 12 ∧
      d.pf = { s.dec.pf with points := s.dec.pf.points ++ new } ∧ new.length = (v.length - 20) / 10 ∧
      (∀ j < (v.length - 20) / 10, ∃ r : RawPoint,
        r.x.toNat = wireU16 v (20 + 10 * j) ∧ r.y.toNat = wireU16 v (22 + 10 * j) ∧
        r.z.toNat = wireU16 v (24 + 10 * j) ∧ r.doppler.toNat = wireU16 v (26 + 10 * j) ∧
        r.snr = v.getD (28 + 10 * j) 0 ∧ r.noise = v.getD (29 + 10 * j) 0 ∧
        new[j]? = some (decompress r u (s.dec.draws + 6 * j))) ∧
      d.frame = s.dec.frame ∧ d.n = s.dec.n ∧ d.cur = s.dec.cur ∧ d.k = s.dec.k ∧
      d.tlvType = s.dec.tlvType ∧ d.tlvLen = s.dec.tlvLen ∧ d.walking = s.dec.walking ∧
      d.bins = s.dec.bins ∧ d.stat = s.dec.stat ∧ d.draws = s.dec.draws + 6 * ((v.length - 20) / 10)

/-- R207: two type-301 values of one length that agree on the bytes read, offsets 0 to 15 and 20 to
`19 + 10*count`, give the same. -/
def Obligations.DecPointsIgnoresUnreadBytes : Prop :=
  ∀ (s : State) (v w : List Byte), 20 ≤ v.length → v.length = w.length →
    (∀ i, i < 16 ∨ (20 ≤ i ∧ i < 20 + 10 * ((v.length - 20) / 10)) → v[i]? = w[i]?) →
    exec (.decPoints v) s = exec (.decPoints w) s

/-- R220, R221, R223: DEC_RANGE stores, present, `len(V) div 4` bins, bin `j` the word at offset `4*j`, in place of
any earlier profile; nothing else of the Parsed Frame changes, nor any register of the walk. -/
def Obligations.DecRangeStoresTheBins : Prop :=
  ∀ (s : State) (v : List Byte), ∃ bins,
    exec (.decRange v) s = .next { s with dec := { s.dec with
      bins := bins, pf := { s.dec.pf with rangeProfile := some bins } } } ∧
    bins.length = v.length / 4 ∧
    ∀ j < v.length / 4, ∃ bin, bins[j]? = some bin ∧ bin.toNat = wireU32 v (4 * j)

/-- R230, R231, R232: on at least 24 bytes DEC_STATS stores, present, the six fields at offsets 0, 4, 16, 18, 20,
22, in place of any earlier statistics; nothing else of the Parsed Frame changes. -/
def Obligations.DecStatsStoresTheFields : Prop :=
  ∀ (s : State) (v : List Byte), 24 ≤ v.length → ∃ t : Stats,
    exec (.decStats v) s = .next { s with dec := { s.dec with
      stat := t, pf := { s.dec.pf with stats := some t } } } ∧
    t.interFrameProcTime.toNat = wireU32 v 0 ∧ t.transmitOutTime.toNat = wireU32 v 4 ∧
    t.tempRx.toNat = wireU16 v 16 ∧ t.tempTx.toNat = wireU16 v 18 ∧ t.tempPm.toNat = wireU16 v 20 ∧
    t.tempDig.toNat = wireU16 v 22

/-- R233: DEC_STATS reads offsets 0 to 7 and 16 to 23 only. -/
def Obligations.DecStatsIgnoresUnreadBytes : Prop :=
  ∀ (s : State) (v w : List Byte), 24 ≤ v.length → 24 ≤ w.length →
    (∀ i, i < 8 ∨ (16 ≤ i ∧ i < 24) → v[i]? = w[i]?) →
    exec (.decStats v) s = exec (.decStats w) s

/-- R240: DEC_SKIP changes nothing, whatever the value. -/
def Obligations.DecSkipChangesNothing : Prop :=
  ∀ (s : State) (type : Word) (v : List Byte), exec (.decSkip type v) s = .next s

/-- R242: records of different types do not interact: two decoders of different types give the same in either
order. -/
def Obligations.DecodersOfDifferentTypesCommute : Prop :=
  ∀ (s : State) (v w : List Byte),
    (∃ a b t, exec (.decPoints v) s = .next a ∧ exec (.decRange w) a = .next t ∧
      exec (.decRange w) s = .next b ∧ exec (.decPoints v) b = .next t) ∧
    (∃ a b t, exec (.decPoints v) s = .next a ∧ exec (.decStats w) a = .next t ∧
      exec (.decStats w) s = .next b ∧ exec (.decPoints v) b = .next t) ∧
    (∃ a b t, exec (.decRange v) s = .next a ∧ exec (.decStats w) a = .next t ∧
      exec (.decStats w) s = .next b ∧ exec (.decRange v) b = .next t)

/-! ### The decompressor -/

/-- R205: POINT_DECOMPRESS multiplies each raw field, sign-extended for the four `i16` and zero-extended for the two
`u8`, by its unit, x, y and z sharing one. A NaN product is a free draw (R214, log entry 6). The registers `raw` and
`point` that hold the record's fields and the result are the model's (log entry 5). -/
def Obligations.PointDecompressScalesEachField : Prop :=
  ∀ (s : State) (r : RawPoint), exec (.pointDecompress r) s = .next { s with dec := { s.dec with
    raw := r
    draws := s.dec.draws + 6
    point :=
      { x := fmul32 (nanResult s.dec.draws) (iToF32 r.x.toInt) s.dec.unit.xyz
        y := fmul32 (nanResult (s.dec.draws + 1)) (iToF32 r.y.toInt) s.dec.unit.xyz
        z := fmul32 (nanResult (s.dec.draws + 2)) (iToF32 r.z.toInt) s.dec.unit.xyz
        doppler := fmul32 (nanResult (s.dec.draws + 3)) (iToF32 r.doppler.toInt) s.dec.unit.doppler
        snr := fmul32 (nanResult (s.dec.draws + 4)) (iToF32 (r.snr.toNat : Int)) s.dec.unit.snr
        noise := fmul32 (nanResult (s.dec.draws + 5)) (iToF32 (r.noise.toNat : Int)) s.dec.unit.noise } } }

/-- R214, R215: a product is a NaN exactly when the unit is one or it is `0 * infinity`; otherwise it does not
depend on the free draw. -/
def Obligations.NanResultExactlyWhenStated : Prop :=
  ∀ (i j : Nat) (raw : Int) (u : Word), isRaw raw →
    (isNaN (scale i raw u) = true ↔ isNaN u = true ∨ (raw = 0 ∧ isInf u = true)) ∧
    (¬(isNaN u = true ∨ (raw = 0 ∧ isInf u = true)) → scale i raw u = scale j raw u)

/-- R215, the rows on zero, infinity, one and minus one. -/
def Obligations.ScaleSpecialCases : Prop :=
  ∀ (i : Nat) (raw : Int) (u : Word), isRaw raw → isNaN u = false →
    (raw = 0 → isInf u = false → scale i raw u = u &&& signBit) ∧
    (0 < raw → isZero u = true ∨ isInf u = true → scale i raw u = u) ∧
    (raw < 0 → isZero u = true ∨ isInf u = true → scale i raw u = u ^^^ signBit) ∧
    (raw = 1 → scale i raw u = u) ∧ (raw = -1 → scale i raw u = u ^^^ signBit)

/-- R212: the product is the exact real product rounded to nearest: no finite binary32 number is nearer to it, of two
equally near the one with an even last bit is taken, the result is an infinity exactly from the midpoint above the
largest finite number on, and the sign of every result, an infinity or a zero included, is the exclusive-or of the
signs. Values are in units of 2^-149, of which the exact product is a whole number. -/
def Obligations.ProductIsTheNearestFloat : Prop :=
  ∀ (i : Nat) (raw : Int) (u c : Word), isRaw raw → isFinite u = true → isFinite c = true →
    (isFinite (scale i raw u) = true →
      |floatValue (scale i raw u) - raw * floatValue u| ≤ |floatValue c - raw * floatValue u| ∧
      (|floatValue (scale i raw u) - raw * floatValue u| = |floatValue c - raw * floatValue u| →
        floatValue c ≠ floatValue (scale i raw u) → (scale i raw u).getLsbD 0 = false)) ∧
    (isInf (scale i raw u) = true ↔ (2 ^ 25 - 1) * 2 ^ 252 ≤ |raw * floatValue u|) ∧
    (scale i raw u).getLsbD 31 = (decide (raw < 0) ^^ u.getLsbD 31)

/-! ### Output -/

/-- R251: EMIT_FRAME adds one event, the Parsed Frame as it stands, and its beats behind those that wait
(log entries 7, 8). -/
def Obligations.EmitFrameAppendsTheParsedFrame : Prop :=
  ∀ s : State, exec .emitFrame s = .next { s with
    events := s.events ++ [.frame s.dec.pf], outBeats := s.outBeats ++ frameBeats s.dec.pf }

/-- R256, R257: EMIT_DIAG adds one event and changes no other state. -/
def Obligations.EmitDiagIsInformationOnly : Prop :=
  ∀ (s : State) (d : Diag), exec (.emitDiag d) s = .next { s with events := s.events ++ [.diag d] }

/-- R254: the Parsed Frame can be rebuilt from its beats. -/
def Obligations.BeatsDetermineTheParsedFrame : Prop :=
  ∀ a b : ParsedFrame, frameBeats a = frameBeats b → a = b

/-! ### Encoding -/

/-- R82 to R89, R94: what is written out for a well-formed operation is read back as that operation, every operand at
every value. -/
def Obligations.DecodeOfEncodeIsTheInstruction : Prop :=
  ∀ i : Instr, i.wf = true → decode (encode i) = .ok i

/-- Every selector has one meaning and every meaning one selector: what decodes to an operation is that operation's
encoding, and the operation is well-formed. -/
def Obligations.EncodeOfDecodeIsTheSelector : Prop :=
  ∀ (sel : Selector) (i : Instr), decode sel = .ok i → i.wf = true ∧ encode i = sel

/-- R84: a record in a stream is read as its type and exactly its value, and the bytes after it are left for the
next. -/
def Obligations.RecordSplitsFromAStream : Prop :=
  ∀ (type : Word) (v rest : List Byte), v.length < 2 ^ 31 →
    splitRecord (recordBytes type v ++ rest) = .ok (type, v, rest)

/-- The words of spec/opcode_table.json decode to their rows (R85, R83, R122). That a word's width tells its format, up
to 8 bits a state code, 32 bits a type word of a record with an empty value, 64 bits the stream, is the model's choice
(log entry 18). -/
def Obligations.TableWordsDecode : Prop :=
  decodeTableWord 32 0x0000012D = some (.decPoints []) ∧
  decodeTableWord 32 0x0000012E = some (.decRange []) ∧
  decodeTableWord 32 0x00000132 = some (.decStats []) ∧
  decodeTableWord 32 0x000003E7 = some (.decSkip 999 []) ∧
  decodeTableWord 64 0x0708050603040102 = some .frame ∧
  decodeTableWord 8 0 = some .seek ∧ decodeTableWord 8 1 = some .hdr ∧
  decodeTableWord 8 2 = some .payload ∧ decodeTableWord 8 3 = none

/-- R151, R174, R202, R87, R220, R231: each layout's fields go to their registers, and nothing else changes. That a
layout's row, run alone, latches the fields its rule reads is the model's reading (log entry 13). -/
def Obligations.LayoutsLatchTheirFields : Prop :=
  ∀ s : State,
    (∀ h, exec (.layoutFrameHeader h) s = .next { s with hdr := h }) ∧
    (∀ type v, exec (.layoutTlvRecord type v) s = .next { s with dec := { s.dec with
      tlvType := type, tlvLen := BitVec.ofNat 32 v.length, cur := s.dec.cur + 8 } }) ∧
    (∀ u c, exec (.layoutPointUnitHeader u c) s = .next { s with dec := { s.dec with unit := u } }) ∧
    (∀ r, exec (.layoutCompactPoint r) s = .next { s with dec := { s.dec with raw := r } }) ∧
    (∀ b, exec (.layoutRangeBin b) s = .next { s with dec := { s.dec with bins := s.dec.bins ++ [b] } }) ∧
    (∀ t p rest, exec (.layoutStats t p rest) s = .next { s with dec := { s.dec with stat := t } })

/-! ### The port binding -/

/-- R32, decision D3: the bytes of a chunk offered one by one, the last with `in_last`, do what PUSH of the chunk
does. -/
def Obligations.BytePortIsPush : Prop :=
  ∀ (s : State) (chunk : List Byte) (rest : List Input), chunk ≠ [] → s.evaluating = false →
    s.chunkOpen = false →
    (∀ cap, s.params.bufCap = some cap → s.buf.length + chunk.length ≤ cap) →
    Host.Core.run Sys2Proof.core chunk.length { s with inputs := chunkBytes chunk ++ rest } =
      exec (.push chunk) { s with inputs := rest }

/-- R53, R318: while the buffer is full `in_ready` is low: a byte offered stays offered, and `buf` does not change.
That the rest of the state does not change either, so that an `out_ready` or a RESET behind the held byte is never
served, is the model's choice (log entry 21), as are the one queue of inputs (log entry 1) and the port taken as
transactions (log entry 14). -/
def Obligations.FullBufferStallsThePort : Prop :=
  ∀ (s : State) (data : Byte) (last : Bool) (rest : List Input), s.evaluating = false →
    s.inputs = .byte data last :: rest → s.params.bufCap = some s.buf.length → step s = .next s

/-- R255: `out_ready = 1` takes the oldest beat, drops none and reorders none, and changes nothing else. -/
def Obligations.OutputBeatsLeaveInOrder : Prop :=
  ∀ (s : State) (rest : List Input), s.evaluating = false → s.inputs = .outReady :: rest →
    step s = .next { s with inputs := rest, outBeats := s.outBeats.drop 1 }
end

