-- ==== Sys2Proof/Laws/Operands.lean ====
section
/-! SUPPORT. The read primitives: defined exactly inside their view (R51), local to the bytes they read
(R58), the inverse of the byte order of R95. -/

namespace Sys2Proof.Machine

/-! ### Inside the view every read is defined (R51) -/

theorem u8_eq_some {v : List Byte} {a : Nat} (h : a < v.length) : u8 v a = some v[a] :=
  List.getElem?_eq_getElem h

theorem u8_eq_none {v : List Byte} {a : Nat} (h : v.length ≤ a) : u8 v a = none :=
  List.getElem?_eq_none h

theorem u16le_eq_some {v : List Byte} {a : Nat} (h : a + 1 < v.length) :
    u16le v a = some (v[a + 1] ++ v[a]'(by omega)) := by
  simp [u16le, u8_eq_some h, u8_eq_some (show a < v.length by omega)]

theorem u32le_eq_some {v : List Byte} {a : Nat} (h : a + 3 < v.length) :
    u32le v a = some ((v[a + 3] ++ v[a + 2]'(by omega)) ++ (v[a + 1]'(by omega) ++ v[a]'(by omega))) := by
  simp [u32le, u16le_eq_some (show a + 1 < v.length by omega),
    u16le_eq_some (show a + 2 + 1 < v.length by omega)]

theorem u16le_isSome {v : List Byte} {a : Nat} (h : a + 1 < v.length) : ∃ x, u16le v a = some x :=
  ⟨_, u16le_eq_some h⟩

theorem u32le_isSome {v : List Byte} {a : Nat} (h : a + 3 < v.length) : ∃ x, u32le v a = some x :=
  ⟨_, u32le_eq_some h⟩

theorem lt_length_of_u8 {v : List Byte} {a : Nat} {x : Byte} (h : u8 v a = some x) : a < v.length := by
  by_contra hn
  simp [u8_eq_none (Nat.le_of_not_lt hn)] at h

theorem lt_length_of_u16le {v : List Byte} {a : Nat} {x : Half} (h : u16le v a = some x) :
    a + 1 < v.length := by
  simp only [u16le, Option.bind_eq_bind, Option.bind_eq_some_iff] at h
  obtain ⟨_, _, _, h1, _⟩ := h
  exact lt_length_of_u8 h1

theorem lt_length_of_u32le {v : List Byte} {a : Nat} {x : Word} (h : u32le v a = some x) :
    a + 3 < v.length := by
  simp only [u32le, Option.bind_eq_bind, Option.bind_eq_some_iff] at h
  obtain ⟨_, _, _, h1, _⟩ := h
  have := lt_length_of_u16le h1
  omega

/-! ### The numbers (R55, R56) -/

theorem half_toNat (b1 b0 : Byte) : (b1 ++ b0 : Half).toNat = b0.toNat + 256 * b1.toNat := by
  rw [BitVec.toNat_append, Nat.shiftLeft_eq, ← Nat.shiftLeft_eq, ← Nat.shiftLeft_add_eq_or_of_lt b0.isLt,
    Nat.shiftLeft_eq]
  omega

theorem word_toNat (h1 h0 : Half) : (h1 ++ h0 : Word).toNat = h0.toNat + 65536 * h1.toNat := by
  rw [BitVec.toNat_append, ← Nat.shiftLeft_add_eq_or_of_lt h0.isLt, Nat.shiftLeft_eq]
  omega

/-! ### Locality (R58) -/

theorem u8_congr {v w : List Byte} {a b : Nat} (h : v[a]? = w[b]?) : u8 v a = u8 w b := h

theorem u16le_congr {v w : List Byte} {a b : Nat} (h : ∀ i < 2, v[a + i]? = w[b + i]?) :
    u16le v a = u16le w b := by
  have h0 := h 0 (by omega)
  have h1 := h 1 (by omega)
  simp only [Nat.add_zero] at h0
  simp only [u16le, u8, h0, h1]

theorem u32le_congr {v w : List Byte} {a b : Nat} (h : ∀ i < 4, v[a + i]? = w[b + i]?) :
    u32le v a = u32le w b := by
  have h0 : u16le v a = u16le w b := u16le_congr fun i hi => h i (by omega)
  have h1 : u16le v (a + 2) = u16le w (b + 2) := u16le_congr fun i hi => by
    have := h (2 + i) (by omega)
    simpa [Nat.add_assoc] using this
  simp only [u32le, h0, h1]

theorem u8_drop (v : List Byte) (n a : Nat) : u8 (v.drop n) a = u8 v (n + a) := by
  simp [u8]

theorem u16le_drop (v : List Byte) (n a : Nat) : u16le (v.drop n) a = u16le v (n + a) :=
  u16le_congr fun i _ => by simp [Nat.add_assoc]

theorem u32le_drop (v : List Byte) (n a : Nat) : u32le (v.drop n) a = u32le v (n + a) :=
  u32le_congr fun i _ => by simp [Nat.add_assoc]

theorem u16le_take {v : List Byte} {n a : Nat} (h : a + 1 < n) : u16le (v.take n) a = u16le v a :=
  u16le_congr fun i hi => by rw [List.getElem?_take_of_lt (by omega)]

theorem u32le_take {v : List Byte} {n a : Nat} (h : a + 3 < n) : u32le (v.take n) a = u32le v a :=
  u32le_congr fun i hi => by rw [List.getElem?_take_of_lt (by omega)]

theorem u32le_append {v : List Byte} (w : List Byte) {a : Nat} (h : a + 3 < v.length) :
    u32le (v ++ w) a = u32le v a :=
  u32le_congr fun i hi => by rw [List.getElem?_append_left (by omega)]

/-! ### Records of fields -/

theorem readHeader_isSome {v : List Byte} (h : 40 ≤ v.length) : ∃ x, readHeader v = some x := by
  simp only [readHeader, u32le_eq_some (v := v) (a := 8) (by omega),
    u32le_eq_some (v := v) (a := 12) (by omega), u32le_eq_some (v := v) (a := 16) (by omega),
    u32le_eq_some (v := v) (a := 20) (by omega), u32le_eq_some (v := v) (a := 24) (by omega),
    u32le_eq_some (v := v) (a := 28) (by omega), u32le_eq_some (v := v) (a := 32) (by omega),
    u32le_eq_some (v := v) (a := 36) (by omega)]
  exact ⟨_, rfl⟩

theorem readUnits_isSome {v : List Byte} (h : 16 ≤ v.length) : ∃ x, readUnits v = some x := by
  simp only [readUnits, u32le_eq_some (v := v) (a := 0) (by omega),
    u32le_eq_some (v := v) (a := 4) (by omega), u32le_eq_some (v := v) (a := 8) (by omega),
    u32le_eq_some (v := v) (a := 12) (by omega)]
  exact ⟨_, rfl⟩

theorem readRawPoint_isSome {v : List Byte} (h : 10 ≤ v.length) : ∃ x, readRawPoint v = some x := by
  simp only [readRawPoint, u16le_eq_some (v := v) (a := 0) (by omega),
    u16le_eq_some (v := v) (a := 2) (by omega), u16le_eq_some (v := v) (a := 4) (by omega),
    u16le_eq_some (v := v) (a := 6) (by omega), u8_eq_some (v := v) (a := 8) (by omega),
    u8_eq_some (v := v) (a := 9) (by omega)]
  exact ⟨_, rfl⟩

theorem readStats_isSome {v : List Byte} (h : 24 ≤ v.length) : ∃ x, readStats v = some x := by
  simp only [readStats, u32le_eq_some (v := v) (a := 0) (by omega),
    u32le_eq_some (v := v) (a := 4) (by omega), u16le_eq_some (v := v) (a := 16) (by omega),
    u16le_eq_some (v := v) (a := 18) (by omega), u16le_eq_some (v := v) (a := 20) (by omega),
    u16le_eq_some (v := v) (a := 22) (by omega)]
  exact ⟨_, rfl⟩

theorem memRead_eq_some {v : List Byte} {a n : Nat} (h : a + n ≤ v.length) :
    memRead v a n = some ((v.drop a).take n) := by
  simp [memRead, h]

theorem memRead_length {v x : List Byte} {a n : Nat} (h : memRead v a n = some x) :
    x.length = n ∧ a + n ≤ v.length := by
  unfold memRead at h
  split at h
  · rename_i hle
    cases h
    refine ⟨?_, hle⟩
    simp only [List.length_take, List.length_drop]
    omega
  · cases h

/-! ### Writing and reading back (R95) -/

theorem half_of_bytes (h : Half) : h.extractLsb' 8 8 ++ h.extractLsb' 0 8 = h := by
  ext i hi
  simp only [BitVec.getElem_append, BitVec.getElem_extractLsb']
  split
  · simp [BitVec.getLsbD_eq_getElem hi]
  · rename_i hge
    rw [show 8 + (i - 8) = i by omega, BitVec.getLsbD_eq_getElem hi]

theorem word_of_halves (w : Word) : w.extractLsb' 16 16 ++ w.extractLsb' 0 16 = w := by
  ext i hi
  simp only [BitVec.getElem_append, BitVec.getElem_extractLsb']
  split
  · simp [BitVec.getLsbD_eq_getElem hi]
  · rename_i hge
    rw [show 16 + (i - 16) = i by omega, BitVec.getLsbD_eq_getElem hi]

theorem dword_of_words (d : BitVec 64) : d.extractLsb' 32 32 ++ d.extractLsb' 0 32 = d := by
  ext i hi
  simp only [BitVec.getElem_append, BitVec.getElem_extractLsb']
  split
  · simp [BitVec.getLsbD_eq_getElem hi]
  · rename_i hge
    rw [show 32 + (i - 32) = i by omega, BitVec.getLsbD_eq_getElem hi]

@[simp] theorem le16_length (h : Half) : (le16 h).length = 2 := rfl

@[simp] theorem le32_length (w : Word) : (le32 w).length = 4 := rfl

@[simp] theorem le64_length (d : BitVec 64) : (le64 d).length = 8 := rfl

/-- What `le16` wrote is read back, wherever it stands. -/
theorem u16le_le16 (pre rest : List Byte) (h : Half) {a : Nat} (ha : a = pre.length) :
    u16le (pre ++ (le16 h ++ rest)) a = some h := by
  subst ha
  simp only [u16le, u8, le16, List.cons_append, List.nil_append]
  rw [List.getElem?_append_right (Nat.le_refl _), List.getElem?_append_right (Nat.le_succ _)]
  simp [half_of_bytes]

/-- What `le32` wrote is read back, wherever it stands. -/
theorem u32le_le32 (pre rest : List Byte) (w : Word) {a : Nat} (ha : a = pre.length) :
    u32le (pre ++ (le32 w ++ rest)) a = some w := by
  have h0 := u16le_le16 pre (le16 (w.extractLsb' 16 16) ++ rest) (w.extractLsb' 0 16) ha
  have h1 := u16le_le16 (pre ++ le16 (w.extractLsb' 0 16)) rest (w.extractLsb' 16 16)
    (a := a + 2) (by simp [ha])
  simp only [List.append_assoc] at h0 h1
  simp only [u32le, le32, List.append_assoc, h0, h1]
  simp [word_of_halves]

/-- What `le64` wrote is read back, wherever it stands. -/
theorem u64le_le64 (pre rest : List Byte) (d : BitVec 64) {a : Nat} (ha : a = pre.length) :
    u64le (pre ++ (le64 d ++ rest)) a = some d := by
  have h0 := u32le_le32 pre (le32 (d.extractLsb' 32 32) ++ rest) (d.extractLsb' 0 32) ha
  have h1 := u32le_le32 (pre ++ le32 (d.extractLsb' 0 32)) rest (d.extractLsb' 32 32)
    (a := a + 4) (by simp [ha])
  simp only [List.append_assoc] at h0 h1
  simp only [u64le, le64, List.append_assoc, h0, h1]
  simp [dword_of_words]

end Sys2Proof.Machine
end

