-- ==== Sys2Proof/Laws/State.lean ====
section
/-! SUPPORT. One lemma per field per named update of `State` and of `Scratch`, true by unfolding: no later
proof unfolds a record update. -/

namespace Sys2Proof.Machine

variable (s : State) (d : Scratch)

/-! `State.append` -/
@[simp] theorem State.append_params (c : List Byte) : (s.append c).params = s.params := rfl
@[simp] theorem State.append_st (c : List Byte) : (s.append c).st = s.st := rfl
@[simp] theorem State.append_buf (c : List Byte) : (s.append c).buf = s.buf ++ c := rfl
@[simp] theorem State.append_hdr (c : List Byte) : (s.append c).hdr = s.hdr := rfl
@[simp] theorem State.append_hdrValid (c : List Byte) : (s.append c).hdrValid = s.hdrValid := rfl
@[simp] theorem State.append_dec (c : List Byte) : (s.append c).dec = s.dec := rfl
@[simp] theorem State.append_evaluating (c : List Byte) : (s.append c).evaluating = s.evaluating := rfl
@[simp] theorem State.append_chunkOpen (c : List Byte) : (s.append c).chunkOpen = s.chunkOpen := rfl
@[simp] theorem State.append_events (c : List Byte) : (s.append c).events = s.events := rfl
@[simp] theorem State.append_outBeats (c : List Byte) : (s.append c).outBeats = s.outBeats := rfl
@[simp] theorem State.append_inputs (c : List Byte) : (s.append c).inputs = s.inputs := rfl

/-! `State.dropBytes` -/
@[simp] theorem State.dropBytes_params (m : Nat) : (s.dropBytes m).params = s.params := rfl
@[simp] theorem State.dropBytes_st (m : Nat) : (s.dropBytes m).st = s.st := rfl
@[simp] theorem State.dropBytes_buf (m : Nat) : (s.dropBytes m).buf = s.buf.drop m := rfl
@[simp] theorem State.dropBytes_hdr (m : Nat) : (s.dropBytes m).hdr = s.hdr := rfl
@[simp] theorem State.dropBytes_hdrValid (m : Nat) : (s.dropBytes m).hdrValid = s.hdrValid := rfl
@[simp] theorem State.dropBytes_dec (m : Nat) : (s.dropBytes m).dec = s.dec := rfl
@[simp] theorem State.dropBytes_evaluating (m : Nat) : (s.dropBytes m).evaluating = s.evaluating := rfl
@[simp] theorem State.dropBytes_chunkOpen (m : Nat) : (s.dropBytes m).chunkOpen = s.chunkOpen := rfl
@[simp] theorem State.dropBytes_events (m : Nat) : (s.dropBytes m).events = s.events := rfl
@[simp] theorem State.dropBytes_outBeats (m : Nat) : (s.dropBytes m).outBeats = s.outBeats := rfl
@[simp] theorem State.dropBytes_inputs (m : Nat) : (s.dropBytes m).inputs = s.inputs := rfl

/-! `State.clearBuf` -/
@[simp] theorem State.clearBuf_params : (s.clearBuf).params = s.params := rfl
@[simp] theorem State.clearBuf_st : (s.clearBuf).st = s.st := rfl
@[simp] theorem State.clearBuf_buf : (s.clearBuf).buf = [] := rfl
@[simp] theorem State.clearBuf_hdr : (s.clearBuf).hdr = s.hdr := rfl
@[simp] theorem State.clearBuf_hdrValid : (s.clearBuf).hdrValid = s.hdrValid := rfl
@[simp] theorem State.clearBuf_dec : (s.clearBuf).dec = s.dec := rfl
@[simp] theorem State.clearBuf_evaluating : (s.clearBuf).evaluating = s.evaluating := rfl
@[simp] theorem State.clearBuf_chunkOpen : (s.clearBuf).chunkOpen = s.chunkOpen := rfl
@[simp] theorem State.clearBuf_events : (s.clearBuf).events = s.events := rfl
@[simp] theorem State.clearBuf_outBeats : (s.clearBuf).outBeats = s.outBeats := rfl
@[simp] theorem State.clearBuf_inputs : (s.clearBuf).inputs = s.inputs := rfl

/-! `State.continueIn` -/
@[simp] theorem State.continueIn_params (x : SyncState) : (s.continueIn x).params = s.params := rfl
@[simp] theorem State.continueIn_st (x : SyncState) : (s.continueIn x).st = x := rfl
@[simp] theorem State.continueIn_buf (x : SyncState) : (s.continueIn x).buf = s.buf := rfl
@[simp] theorem State.continueIn_hdr (x : SyncState) : (s.continueIn x).hdr = s.hdr := rfl
@[simp] theorem State.continueIn_hdrValid (x : SyncState) : (s.continueIn x).hdrValid = s.hdrValid := rfl
@[simp] theorem State.continueIn_dec (x : SyncState) : (s.continueIn x).dec = s.dec := rfl
@[simp] theorem State.continueIn_evaluating (x : SyncState) : (s.continueIn x).evaluating = true := rfl
@[simp] theorem State.continueIn_chunkOpen (x : SyncState) : (s.continueIn x).chunkOpen = s.chunkOpen := rfl
@[simp] theorem State.continueIn_events (x : SyncState) : (s.continueIn x).events = s.events := rfl
@[simp] theorem State.continueIn_outBeats (x : SyncState) : (s.continueIn x).outBeats = s.outBeats := rfl
@[simp] theorem State.continueIn_inputs (x : SyncState) : (s.continueIn x).inputs = s.inputs := rfl

/-! `State.suspend` -/
@[simp] theorem State.suspend_params : (s.suspend).params = s.params := rfl
@[simp] theorem State.suspend_st : (s.suspend).st = s.st := rfl
@[simp] theorem State.suspend_buf : (s.suspend).buf = s.buf := rfl
@[simp] theorem State.suspend_hdr : (s.suspend).hdr = s.hdr := rfl
@[simp] theorem State.suspend_hdrValid : (s.suspend).hdrValid = s.hdrValid := rfl
@[simp] theorem State.suspend_dec : (s.suspend).dec = s.dec := rfl
@[simp] theorem State.suspend_evaluating : (s.suspend).evaluating = false := rfl
@[simp] theorem State.suspend_chunkOpen : (s.suspend).chunkOpen = s.chunkOpen := rfl
@[simp] theorem State.suspend_events : (s.suspend).events = s.events := rfl
@[simp] theorem State.suspend_outBeats : (s.suspend).outBeats = s.outBeats := rfl
@[simp] theorem State.suspend_inputs : (s.suspend).inputs = s.inputs := rfl

/-! `State.latchHeader` -/
@[simp] theorem State.latchHeader_params (h : Header) : (s.latchHeader h).params = s.params := rfl
@[simp] theorem State.latchHeader_st (h : Header) : (s.latchHeader h).st = s.st := rfl
@[simp] theorem State.latchHeader_buf (h : Header) : (s.latchHeader h).buf = s.buf := rfl
@[simp] theorem State.latchHeader_hdr (h : Header) : (s.latchHeader h).hdr = h := rfl
@[simp] theorem State.latchHeader_hdrValid (h : Header) : (s.latchHeader h).hdrValid = s.hdrValid := rfl
@[simp] theorem State.latchHeader_dec (h : Header) : (s.latchHeader h).dec = s.dec := rfl
@[simp] theorem State.latchHeader_evaluating (h : Header) : (s.latchHeader h).evaluating = s.evaluating := rfl
@[simp] theorem State.latchHeader_chunkOpen (h : Header) : (s.latchHeader h).chunkOpen = s.chunkOpen := rfl
@[simp] theorem State.latchHeader_events (h : Header) : (s.latchHeader h).events = s.events := rfl
@[simp] theorem State.latchHeader_outBeats (h : Header) : (s.latchHeader h).outBeats = s.outBeats := rfl
@[simp] theorem State.latchHeader_inputs (h : Header) : (s.latchHeader h).inputs = s.inputs := rfl

/-! `State.withDec` -/
@[simp] theorem State.withDec_params (d : Scratch) : (s.withDec d).params = s.params := rfl
@[simp] theorem State.withDec_st (d : Scratch) : (s.withDec d).st = s.st := rfl
@[simp] theorem State.withDec_buf (d : Scratch) : (s.withDec d).buf = s.buf := rfl
@[simp] theorem State.withDec_hdr (d : Scratch) : (s.withDec d).hdr = s.hdr := rfl
@[simp] theorem State.withDec_hdrValid (d : Scratch) : (s.withDec d).hdrValid = s.hdrValid := rfl
@[simp] theorem State.withDec_dec (d : Scratch) : (s.withDec d).dec = d := rfl
@[simp] theorem State.withDec_evaluating (d : Scratch) : (s.withDec d).evaluating = s.evaluating := rfl
@[simp] theorem State.withDec_chunkOpen (d : Scratch) : (s.withDec d).chunkOpen = s.chunkOpen := rfl
@[simp] theorem State.withDec_events (d : Scratch) : (s.withDec d).events = s.events := rfl
@[simp] theorem State.withDec_outBeats (d : Scratch) : (s.withDec d).outBeats = s.outBeats := rfl
@[simp] theorem State.withDec_inputs (d : Scratch) : (s.withDec d).inputs = s.inputs := rfl

/-! `State.emit` -/
@[simp] theorem State.emit_params (e : Event) : (s.emit e).params = s.params := rfl
@[simp] theorem State.emit_st (e : Event) : (s.emit e).st = s.st := rfl
@[simp] theorem State.emit_buf (e : Event) : (s.emit e).buf = s.buf := rfl
@[simp] theorem State.emit_hdr (e : Event) : (s.emit e).hdr = s.hdr := rfl
@[simp] theorem State.emit_hdrValid (e : Event) : (s.emit e).hdrValid = s.hdrValid := rfl
@[simp] theorem State.emit_dec (e : Event) : (s.emit e).dec = s.dec := rfl
@[simp] theorem State.emit_evaluating (e : Event) : (s.emit e).evaluating = s.evaluating := rfl
@[simp] theorem State.emit_chunkOpen (e : Event) : (s.emit e).chunkOpen = s.chunkOpen := rfl
@[simp] theorem State.emit_events (e : Event) : (s.emit e).events = s.events ++ [e] := rfl
@[simp] theorem State.emit_outBeats (e : Event) : (s.emit e).outBeats = s.outBeats := rfl
@[simp] theorem State.emit_inputs (e : Event) : (s.emit e).inputs = s.inputs := rfl

/-! `State.offerBeats` -/
@[simp] theorem State.offerBeats_params (bs : List Beat) : (s.offerBeats bs).params = s.params := rfl
@[simp] theorem State.offerBeats_st (bs : List Beat) : (s.offerBeats bs).st = s.st := rfl
@[simp] theorem State.offerBeats_buf (bs : List Beat) : (s.offerBeats bs).buf = s.buf := rfl
@[simp] theorem State.offerBeats_hdr (bs : List Beat) : (s.offerBeats bs).hdr = s.hdr := rfl
@[simp] theorem State.offerBeats_hdrValid (bs : List Beat) : (s.offerBeats bs).hdrValid = s.hdrValid := rfl
@[simp] theorem State.offerBeats_dec (bs : List Beat) : (s.offerBeats bs).dec = s.dec := rfl
@[simp] theorem State.offerBeats_evaluating (bs : List Beat) : (s.offerBeats bs).evaluating = s.evaluating := rfl
@[simp] theorem State.offerBeats_chunkOpen (bs : List Beat) : (s.offerBeats bs).chunkOpen = s.chunkOpen := rfl
@[simp] theorem State.offerBeats_events (bs : List Beat) : (s.offerBeats bs).events = s.events := rfl
@[simp] theorem State.offerBeats_outBeats (bs : List Beat) : (s.offerBeats bs).outBeats = s.outBeats ++ bs := rfl
@[simp] theorem State.offerBeats_inputs (bs : List Beat) : (s.offerBeats bs).inputs = s.inputs := rfl

/-! `State.setHdrValid` -/
@[simp] theorem State.setHdrValid_params (b : Bool) : (s.setHdrValid b).params = s.params := rfl
@[simp] theorem State.setHdrValid_st (b : Bool) : (s.setHdrValid b).st = s.st := rfl
@[simp] theorem State.setHdrValid_buf (b : Bool) : (s.setHdrValid b).buf = s.buf := rfl
@[simp] theorem State.setHdrValid_hdr (b : Bool) : (s.setHdrValid b).hdr = s.hdr := rfl
@[simp] theorem State.setHdrValid_hdrValid (b : Bool) : (s.setHdrValid b).hdrValid = b := rfl
@[simp] theorem State.setHdrValid_dec (b : Bool) : (s.setHdrValid b).dec = s.dec := rfl
@[simp] theorem State.setHdrValid_evaluating (b : Bool) : (s.setHdrValid b).evaluating = s.evaluating := rfl
@[simp] theorem State.setHdrValid_chunkOpen (b : Bool) : (s.setHdrValid b).chunkOpen = s.chunkOpen := rfl
@[simp] theorem State.setHdrValid_events (b : Bool) : (s.setHdrValid b).events = s.events := rfl
@[simp] theorem State.setHdrValid_outBeats (b : Bool) : (s.setHdrValid b).outBeats = s.outBeats := rfl
@[simp] theorem State.setHdrValid_inputs (b : Bool) : (s.setHdrValid b).inputs = s.inputs := rfl

/-! `State.takeBeat` -/
@[simp] theorem State.takeBeat_params : (s.takeBeat).params = s.params := rfl
@[simp] theorem State.takeBeat_st : (s.takeBeat).st = s.st := rfl
@[simp] theorem State.takeBeat_buf : (s.takeBeat).buf = s.buf := rfl
@[simp] theorem State.takeBeat_hdr : (s.takeBeat).hdr = s.hdr := rfl
@[simp] theorem State.takeBeat_hdrValid : (s.takeBeat).hdrValid = s.hdrValid := rfl
@[simp] theorem State.takeBeat_dec : (s.takeBeat).dec = s.dec := rfl
@[simp] theorem State.takeBeat_evaluating : (s.takeBeat).evaluating = s.evaluating := rfl
@[simp] theorem State.takeBeat_chunkOpen : (s.takeBeat).chunkOpen = s.chunkOpen := rfl
@[simp] theorem State.takeBeat_events : (s.takeBeat).events = s.events := rfl
@[simp] theorem State.takeBeat_outBeats : (s.takeBeat).outBeats = s.outBeats.tail := rfl
@[simp] theorem State.takeBeat_inputs : (s.takeBeat).inputs = s.inputs := rfl

/-! `Scratch.begin` -/
@[simp] theorem Scratch.begin_frame (f : List Byte) (h : Header) : (d.begin f h).frame = f := rfl
@[simp] theorem Scratch.begin_n (f : List Byte) (h : Header) : (d.begin f h).n = (f.drop Config.headerLen).length := rfl
@[simp] theorem Scratch.begin_cur (f : List Byte) (h : Header) : (d.begin f h).cur = 0 := rfl
@[simp] theorem Scratch.begin_k (f : List Byte) (h : Header) : (d.begin f h).k = 0 := rfl
@[simp] theorem Scratch.begin_tlvType (f : List Byte) (h : Header) : (d.begin f h).tlvType = d.tlvType := rfl
@[simp] theorem Scratch.begin_tlvLen (f : List Byte) (h : Header) : (d.begin f h).tlvLen = d.tlvLen := rfl
@[simp] theorem Scratch.begin_walking (f : List Byte) (h : Header) : (d.begin f h).walking = true := rfl
@[simp] theorem Scratch.begin_unit (f : List Byte) (h : Header) : (d.begin f h).unit = d.unit := rfl
@[simp] theorem Scratch.begin_pf (f : List Byte) (h : Header) : (d.begin f h).pf = newParsedFrame h := rfl
@[simp] theorem Scratch.begin_raw (f : List Byte) (h : Header) : (d.begin f h).raw = d.raw := rfl
@[simp] theorem Scratch.begin_point (f : List Byte) (h : Header) : (d.begin f h).point = d.point := rfl
@[simp] theorem Scratch.begin_bins (f : List Byte) (h : Header) : (d.begin f h).bins = d.bins := rfl
@[simp] theorem Scratch.begin_stat (f : List Byte) (h : Header) : (d.begin f h).stat = d.stat := rfl
@[simp] theorem Scratch.begin_draws (f : List Byte) (h : Header) : (d.begin f h).draws = d.draws := rfl

/-! `Scratch.loadRecordHeader` -/
@[simp] theorem Scratch.loadRecordHeader_frame (ty len : Word) : (d.loadRecordHeader ty len).frame = d.frame := rfl
@[simp] theorem Scratch.loadRecordHeader_n (ty len : Word) : (d.loadRecordHeader ty len).n = d.n := rfl
@[simp] theorem Scratch.loadRecordHeader_cur (ty len : Word) : (d.loadRecordHeader ty len).cur = d.cur + Config.tlvHdrLen := rfl
@[simp] theorem Scratch.loadRecordHeader_k (ty len : Word) : (d.loadRecordHeader ty len).k = d.k := rfl
@[simp] theorem Scratch.loadRecordHeader_tlvType (ty len : Word) : (d.loadRecordHeader ty len).tlvType = ty := rfl
@[simp] theorem Scratch.loadRecordHeader_tlvLen (ty len : Word) : (d.loadRecordHeader ty len).tlvLen = len := rfl
@[simp] theorem Scratch.loadRecordHeader_walking (ty len : Word) : (d.loadRecordHeader ty len).walking = d.walking := rfl
@[simp] theorem Scratch.loadRecordHeader_unit (ty len : Word) : (d.loadRecordHeader ty len).unit = d.unit := rfl
@[simp] theorem Scratch.loadRecordHeader_pf (ty len : Word) : (d.loadRecordHeader ty len).pf = d.pf := rfl
@[simp] theorem Scratch.loadRecordHeader_raw (ty len : Word) : (d.loadRecordHeader ty len).raw = d.raw := rfl
@[simp] theorem Scratch.loadRecordHeader_point (ty len : Word) : (d.loadRecordHeader ty len).point = d.point := rfl
@[simp] theorem Scratch.loadRecordHeader_bins (ty len : Word) : (d.loadRecordHeader ty len).bins = d.bins := rfl
@[simp] theorem Scratch.loadRecordHeader_stat (ty len : Word) : (d.loadRecordHeader ty len).stat = d.stat := rfl
@[simp] theorem Scratch.loadRecordHeader_draws (ty len : Word) : (d.loadRecordHeader ty len).draws = d.draws := rfl

/-! `Scratch.advance` -/
@[simp] theorem Scratch.advance_frame (len : Nat) : (d.advance len).frame = d.frame := rfl
@[simp] theorem Scratch.advance_n (len : Nat) : (d.advance len).n = d.n := rfl
@[simp] theorem Scratch.advance_cur (len : Nat) : (d.advance len).cur = d.cur + len := rfl
@[simp] theorem Scratch.advance_k (len : Nat) : (d.advance len).k = d.k + 1 := rfl
@[simp] theorem Scratch.advance_tlvType (len : Nat) : (d.advance len).tlvType = d.tlvType := rfl
@[simp] theorem Scratch.advance_tlvLen (len : Nat) : (d.advance len).tlvLen = d.tlvLen := rfl
@[simp] theorem Scratch.advance_walking (len : Nat) : (d.advance len).walking = d.walking := rfl
@[simp] theorem Scratch.advance_unit (len : Nat) : (d.advance len).unit = d.unit := rfl
@[simp] theorem Scratch.advance_pf (len : Nat) : (d.advance len).pf = d.pf := rfl
@[simp] theorem Scratch.advance_raw (len : Nat) : (d.advance len).raw = d.raw := rfl
@[simp] theorem Scratch.advance_point (len : Nat) : (d.advance len).point = d.point := rfl
@[simp] theorem Scratch.advance_bins (len : Nat) : (d.advance len).bins = d.bins := rfl
@[simp] theorem Scratch.advance_stat (len : Nat) : (d.advance len).stat = d.stat := rfl
@[simp] theorem Scratch.advance_draws (len : Nat) : (d.advance len).draws = d.draws := rfl

/-! `Scratch.endWalk` -/
@[simp] theorem Scratch.endWalk_frame : (d.endWalk).frame = d.frame := rfl
@[simp] theorem Scratch.endWalk_n : (d.endWalk).n = d.n := rfl
@[simp] theorem Scratch.endWalk_cur : (d.endWalk).cur = d.cur := rfl
@[simp] theorem Scratch.endWalk_k : (d.endWalk).k = d.k := rfl
@[simp] theorem Scratch.endWalk_tlvType : (d.endWalk).tlvType = d.tlvType := rfl
@[simp] theorem Scratch.endWalk_tlvLen : (d.endWalk).tlvLen = d.tlvLen := rfl
@[simp] theorem Scratch.endWalk_walking : (d.endWalk).walking = false := rfl
@[simp] theorem Scratch.endWalk_unit : (d.endWalk).unit = d.unit := rfl
@[simp] theorem Scratch.endWalk_pf : (d.endWalk).pf = d.pf := rfl
@[simp] theorem Scratch.endWalk_raw : (d.endWalk).raw = d.raw := rfl
@[simp] theorem Scratch.endWalk_point : (d.endWalk).point = d.point := rfl
@[simp] theorem Scratch.endWalk_bins : (d.endWalk).bins = d.bins := rfl
@[simp] theorem Scratch.endWalk_stat : (d.endWalk).stat = d.stat := rfl
@[simp] theorem Scratch.endWalk_draws : (d.endWalk).draws = d.draws := rfl

/-! `Scratch.loadUnits` -/
@[simp] theorem Scratch.loadUnits_frame (u : Units) : (d.loadUnits u).frame = d.frame := rfl
@[simp] theorem Scratch.loadUnits_n (u : Units) : (d.loadUnits u).n = d.n := rfl
@[simp] theorem Scratch.loadUnits_cur (u : Units) : (d.loadUnits u).cur = d.cur := rfl
@[simp] theorem Scratch.loadUnits_k (u : Units) : (d.loadUnits u).k = d.k := rfl
@[simp] theorem Scratch.loadUnits_tlvType (u : Units) : (d.loadUnits u).tlvType = d.tlvType := rfl
@[simp] theorem Scratch.loadUnits_tlvLen (u : Units) : (d.loadUnits u).tlvLen = d.tlvLen := rfl
@[simp] theorem Scratch.loadUnits_walking (u : Units) : (d.loadUnits u).walking = d.walking := rfl
@[simp] theorem Scratch.loadUnits_unit (u : Units) : (d.loadUnits u).unit = u := rfl
@[simp] theorem Scratch.loadUnits_pf (u : Units) : (d.loadUnits u).pf = d.pf := rfl
@[simp] theorem Scratch.loadUnits_raw (u : Units) : (d.loadUnits u).raw = d.raw := rfl
@[simp] theorem Scratch.loadUnits_point (u : Units) : (d.loadUnits u).point = d.point := rfl
@[simp] theorem Scratch.loadUnits_bins (u : Units) : (d.loadUnits u).bins = d.bins := rfl
@[simp] theorem Scratch.loadUnits_stat (u : Units) : (d.loadUnits u).stat = d.stat := rfl
@[simp] theorem Scratch.loadUnits_draws (u : Units) : (d.loadUnits u).draws = d.draws := rfl

/-! `Scratch.loadRaw` -/
@[simp] theorem Scratch.loadRaw_frame (r : RawPoint) : (d.loadRaw r).frame = d.frame := rfl
@[simp] theorem Scratch.loadRaw_n (r : RawPoint) : (d.loadRaw r).n = d.n := rfl
@[simp] theorem Scratch.loadRaw_cur (r : RawPoint) : (d.loadRaw r).cur = d.cur := rfl
@[simp] theorem Scratch.loadRaw_k (r : RawPoint) : (d.loadRaw r).k = d.k := rfl
@[simp] theorem Scratch.loadRaw_tlvType (r : RawPoint) : (d.loadRaw r).tlvType = d.tlvType := rfl
@[simp] theorem Scratch.loadRaw_tlvLen (r : RawPoint) : (d.loadRaw r).tlvLen = d.tlvLen := rfl
@[simp] theorem Scratch.loadRaw_walking (r : RawPoint) : (d.loadRaw r).walking = d.walking := rfl
@[simp] theorem Scratch.loadRaw_unit (r : RawPoint) : (d.loadRaw r).unit = d.unit := rfl
@[simp] theorem Scratch.loadRaw_pf (r : RawPoint) : (d.loadRaw r).pf = d.pf := rfl
@[simp] theorem Scratch.loadRaw_raw (r : RawPoint) : (d.loadRaw r).raw = r := rfl
@[simp] theorem Scratch.loadRaw_point (r : RawPoint) : (d.loadRaw r).point = d.point := rfl
@[simp] theorem Scratch.loadRaw_bins (r : RawPoint) : (d.loadRaw r).bins = d.bins := rfl
@[simp] theorem Scratch.loadRaw_stat (r : RawPoint) : (d.loadRaw r).stat = d.stat := rfl
@[simp] theorem Scratch.loadRaw_draws (r : RawPoint) : (d.loadRaw r).draws = d.draws := rfl

/-! `Scratch.decompressRaw` -/
@[simp] theorem Scratch.decompressRaw_frame : (d.decompressRaw).frame = d.frame := rfl
@[simp] theorem Scratch.decompressRaw_n : (d.decompressRaw).n = d.n := rfl
@[simp] theorem Scratch.decompressRaw_cur : (d.decompressRaw).cur = d.cur := rfl
@[simp] theorem Scratch.decompressRaw_k : (d.decompressRaw).k = d.k := rfl
@[simp] theorem Scratch.decompressRaw_tlvType : (d.decompressRaw).tlvType = d.tlvType := rfl
@[simp] theorem Scratch.decompressRaw_tlvLen : (d.decompressRaw).tlvLen = d.tlvLen := rfl
@[simp] theorem Scratch.decompressRaw_walking : (d.decompressRaw).walking = d.walking := rfl
@[simp] theorem Scratch.decompressRaw_unit : (d.decompressRaw).unit = d.unit := rfl
@[simp] theorem Scratch.decompressRaw_pf : (d.decompressRaw).pf = d.pf := rfl
@[simp] theorem Scratch.decompressRaw_raw : (d.decompressRaw).raw = d.raw := rfl
@[simp] theorem Scratch.decompressRaw_point : (d.decompressRaw).point = decompress d.raw d.unit d.draws := rfl
@[simp] theorem Scratch.decompressRaw_bins : (d.decompressRaw).bins = d.bins := rfl
@[simp] theorem Scratch.decompressRaw_stat : (d.decompressRaw).stat = d.stat := rfl
@[simp] theorem Scratch.decompressRaw_draws : (d.decompressRaw).draws = d.draws + 6 := rfl

/-! `Scratch.appendPoint` -/
@[simp] theorem Scratch.appendPoint_frame : (d.appendPoint).frame = d.frame := rfl
@[simp] theorem Scratch.appendPoint_n : (d.appendPoint).n = d.n := rfl
@[simp] theorem Scratch.appendPoint_cur : (d.appendPoint).cur = d.cur := rfl
@[simp] theorem Scratch.appendPoint_k : (d.appendPoint).k = d.k := rfl
@[simp] theorem Scratch.appendPoint_tlvType : (d.appendPoint).tlvType = d.tlvType := rfl
@[simp] theorem Scratch.appendPoint_tlvLen : (d.appendPoint).tlvLen = d.tlvLen := rfl
@[simp] theorem Scratch.appendPoint_walking : (d.appendPoint).walking = d.walking := rfl
@[simp] theorem Scratch.appendPoint_unit : (d.appendPoint).unit = d.unit := rfl
@[simp] theorem Scratch.appendPoint_pf : (d.appendPoint).pf = { d.pf with points := d.pf.points ++ [d.point] } := rfl
@[simp] theorem Scratch.appendPoint_raw : (d.appendPoint).raw = d.raw := rfl
@[simp] theorem Scratch.appendPoint_point : (d.appendPoint).point = d.point := rfl
@[simp] theorem Scratch.appendPoint_bins : (d.appendPoint).bins = d.bins := rfl
@[simp] theorem Scratch.appendPoint_stat : (d.appendPoint).stat = d.stat := rfl
@[simp] theorem Scratch.appendPoint_draws : (d.appendPoint).draws = d.draws := rfl

/-! `Scratch.clearBins` -/
@[simp] theorem Scratch.clearBins_frame : (d.clearBins).frame = d.frame := rfl
@[simp] theorem Scratch.clearBins_n : (d.clearBins).n = d.n := rfl
@[simp] theorem Scratch.clearBins_cur : (d.clearBins).cur = d.cur := rfl
@[simp] theorem Scratch.clearBins_k : (d.clearBins).k = d.k := rfl
@[simp] theorem Scratch.clearBins_tlvType : (d.clearBins).tlvType = d.tlvType := rfl
@[simp] theorem Scratch.clearBins_tlvLen : (d.clearBins).tlvLen = d.tlvLen := rfl
@[simp] theorem Scratch.clearBins_walking : (d.clearBins).walking = d.walking := rfl
@[simp] theorem Scratch.clearBins_unit : (d.clearBins).unit = d.unit := rfl
@[simp] theorem Scratch.clearBins_pf : (d.clearBins).pf = d.pf := rfl
@[simp] theorem Scratch.clearBins_raw : (d.clearBins).raw = d.raw := rfl
@[simp] theorem Scratch.clearBins_point : (d.clearBins).point = d.point := rfl
@[simp] theorem Scratch.clearBins_bins : (d.clearBins).bins = [] := rfl
@[simp] theorem Scratch.clearBins_stat : (d.clearBins).stat = d.stat := rfl
@[simp] theorem Scratch.clearBins_draws : (d.clearBins).draws = d.draws := rfl

/-! `Scratch.appendBin` -/
@[simp] theorem Scratch.appendBin_frame (b : Word) : (d.appendBin b).frame = d.frame := rfl
@[simp] theorem Scratch.appendBin_n (b : Word) : (d.appendBin b).n = d.n := rfl
@[simp] theorem Scratch.appendBin_cur (b : Word) : (d.appendBin b).cur = d.cur := rfl
@[simp] theorem Scratch.appendBin_k (b : Word) : (d.appendBin b).k = d.k := rfl
@[simp] theorem Scratch.appendBin_tlvType (b : Word) : (d.appendBin b).tlvType = d.tlvType := rfl
@[simp] theorem Scratch.appendBin_tlvLen (b : Word) : (d.appendBin b).tlvLen = d.tlvLen := rfl
@[simp] theorem Scratch.appendBin_walking (b : Word) : (d.appendBin b).walking = d.walking := rfl
@[simp] theorem Scratch.appendBin_unit (b : Word) : (d.appendBin b).unit = d.unit := rfl
@[simp] theorem Scratch.appendBin_pf (b : Word) : (d.appendBin b).pf = d.pf := rfl
@[simp] theorem Scratch.appendBin_raw (b : Word) : (d.appendBin b).raw = d.raw := rfl
@[simp] theorem Scratch.appendBin_point (b : Word) : (d.appendBin b).point = d.point := rfl
@[simp] theorem Scratch.appendBin_bins (b : Word) : (d.appendBin b).bins = d.bins ++ [b] := rfl
@[simp] theorem Scratch.appendBin_stat (b : Word) : (d.appendBin b).stat = d.stat := rfl
@[simp] theorem Scratch.appendBin_draws (b : Word) : (d.appendBin b).draws = d.draws := rfl

/-! `Scratch.loadStat` -/
@[simp] theorem Scratch.loadStat_frame (t : Stats) : (d.loadStat t).frame = d.frame := rfl
@[simp] theorem Scratch.loadStat_n (t : Stats) : (d.loadStat t).n = d.n := rfl
@[simp] theorem Scratch.loadStat_cur (t : Stats) : (d.loadStat t).cur = d.cur := rfl
@[simp] theorem Scratch.loadStat_k (t : Stats) : (d.loadStat t).k = d.k := rfl
@[simp] theorem Scratch.loadStat_tlvType (t : Stats) : (d.loadStat t).tlvType = d.tlvType := rfl
@[simp] theorem Scratch.loadStat_tlvLen (t : Stats) : (d.loadStat t).tlvLen = d.tlvLen := rfl
@[simp] theorem Scratch.loadStat_walking (t : Stats) : (d.loadStat t).walking = d.walking := rfl
@[simp] theorem Scratch.loadStat_unit (t : Stats) : (d.loadStat t).unit = d.unit := rfl
@[simp] theorem Scratch.loadStat_pf (t : Stats) : (d.loadStat t).pf = d.pf := rfl
@[simp] theorem Scratch.loadStat_raw (t : Stats) : (d.loadStat t).raw = d.raw := rfl
@[simp] theorem Scratch.loadStat_point (t : Stats) : (d.loadStat t).point = d.point := rfl
@[simp] theorem Scratch.loadStat_bins (t : Stats) : (d.loadStat t).bins = d.bins := rfl
@[simp] theorem Scratch.loadStat_stat (t : Stats) : (d.loadStat t).stat = t := rfl
@[simp] theorem Scratch.loadStat_draws (t : Stats) : (d.loadStat t).draws = d.draws := rfl

/-! `Scratch.raise` -/
@[simp] theorem Scratch.raise_frame (e : ErrorCode) : (d.raise e).frame = d.frame := rfl
@[simp] theorem Scratch.raise_n (e : ErrorCode) : (d.raise e).n = d.n := rfl
@[simp] theorem Scratch.raise_cur (e : ErrorCode) : (d.raise e).cur = d.cur := rfl
@[simp] theorem Scratch.raise_k (e : ErrorCode) : (d.raise e).k = d.k := rfl
@[simp] theorem Scratch.raise_tlvType (e : ErrorCode) : (d.raise e).tlvType = d.tlvType := rfl
@[simp] theorem Scratch.raise_tlvLen (e : ErrorCode) : (d.raise e).tlvLen = d.tlvLen := rfl
@[simp] theorem Scratch.raise_walking (e : ErrorCode) : (d.raise e).walking = false := rfl
@[simp] theorem Scratch.raise_unit (e : ErrorCode) : (d.raise e).unit = d.unit := rfl
@[simp] theorem Scratch.raise_pf (e : ErrorCode) : (d.raise e).pf = { d.pf with errorCode := e } := rfl
@[simp] theorem Scratch.raise_raw (e : ErrorCode) : (d.raise e).raw = d.raw := rfl
@[simp] theorem Scratch.raise_point (e : ErrorCode) : (d.raise e).point = d.point := rfl
@[simp] theorem Scratch.raise_bins (e : ErrorCode) : (d.raise e).bins = d.bins := rfl
@[simp] theorem Scratch.raise_stat (e : ErrorCode) : (d.raise e).stat = d.stat := rfl
@[simp] theorem Scratch.raise_draws (e : ErrorCode) : (d.raise e).draws = d.draws := rfl

/-! `Scratch.setRange` -/
@[simp] theorem Scratch.setRange_frame (bs : List Word) : (d.setRange bs).frame = d.frame := rfl
@[simp] theorem Scratch.setRange_n (bs : List Word) : (d.setRange bs).n = d.n := rfl
@[simp] theorem Scratch.setRange_cur (bs : List Word) : (d.setRange bs).cur = d.cur := rfl
@[simp] theorem Scratch.setRange_k (bs : List Word) : (d.setRange bs).k = d.k := rfl
@[simp] theorem Scratch.setRange_tlvType (bs : List Word) : (d.setRange bs).tlvType = d.tlvType := rfl
@[simp] theorem Scratch.setRange_tlvLen (bs : List Word) : (d.setRange bs).tlvLen = d.tlvLen := rfl
@[simp] theorem Scratch.setRange_walking (bs : List Word) : (d.setRange bs).walking = d.walking := rfl
@[simp] theorem Scratch.setRange_unit (bs : List Word) : (d.setRange bs).unit = d.unit := rfl
@[simp] theorem Scratch.setRange_pf (bs : List Word) : (d.setRange bs).pf = { d.pf with rangeProfile := some bs } := rfl
@[simp] theorem Scratch.setRange_raw (bs : List Word) : (d.setRange bs).raw = d.raw := rfl
@[simp] theorem Scratch.setRange_point (bs : List Word) : (d.setRange bs).point = d.point := rfl
@[simp] theorem Scratch.setRange_bins (bs : List Word) : (d.setRange bs).bins = d.bins := rfl
@[simp] theorem Scratch.setRange_stat (bs : List Word) : (d.setRange bs).stat = d.stat := rfl
@[simp] theorem Scratch.setRange_draws (bs : List Word) : (d.setRange bs).draws = d.draws := rfl

/-! `Scratch.setStats` -/
@[simp] theorem Scratch.setStats_frame (t : Stats) : (d.setStats t).frame = d.frame := rfl
@[simp] theorem Scratch.setStats_n (t : Stats) : (d.setStats t).n = d.n := rfl
@[simp] theorem Scratch.setStats_cur (t : Stats) : (d.setStats t).cur = d.cur := rfl
@[simp] theorem Scratch.setStats_k (t : Stats) : (d.setStats t).k = d.k := rfl
@[simp] theorem Scratch.setStats_tlvType (t : Stats) : (d.setStats t).tlvType = d.tlvType := rfl
@[simp] theorem Scratch.setStats_tlvLen (t : Stats) : (d.setStats t).tlvLen = d.tlvLen := rfl
@[simp] theorem Scratch.setStats_walking (t : Stats) : (d.setStats t).walking = d.walking := rfl
@[simp] theorem Scratch.setStats_unit (t : Stats) : (d.setStats t).unit = d.unit := rfl
@[simp] theorem Scratch.setStats_pf (t : Stats) : (d.setStats t).pf = { d.pf with stats := some t } := rfl
@[simp] theorem Scratch.setStats_raw (t : Stats) : (d.setStats t).raw = d.raw := rfl
@[simp] theorem Scratch.setStats_point (t : Stats) : (d.setStats t).point = d.point := rfl
@[simp] theorem Scratch.setStats_bins (t : Stats) : (d.setStats t).bins = d.bins := rfl
@[simp] theorem Scratch.setStats_stat (t : Stats) : (d.setStats t).stat = d.stat := rfl
@[simp] theorem Scratch.setStats_draws (t : Stats) : (d.setStats t).draws = d.draws := rfl

end Sys2Proof.Machine
end

