-- ==== Sys2Proof/Laws/Decoders.lean ====
section
/-! SUPPORT. The decoders: each is total on every value (R241), leaves the walk's registers alone (R177),
and does to the Parsed Frame what its rule says. -/

namespace Sys2Proof.Machine

/-- The registers of the walk agree: what no decoder may change (R177). -/
def SameWalk (d d' : Scratch) : Prop :=
  d'.frame = d.frame ∧ d'.n = d.n ∧ d'.cur = d.cur ∧ d'.k = d.k ∧ d'.tlvType = d.tlvType ∧
    d'.tlvLen = d.tlvLen ∧ d'.walking = d.walking

theorem SameWalk.refl (d : Scratch) : SameWalk d d := ⟨rfl, rfl, rfl, rfl, rfl, rfl, rfl⟩

theorem SameWalk.trans {a b c : Scratch} (h : SameWalk a b) (h' : SameWalk b c) : SameWalk a c := by
  obtain ⟨h1, h2, h3, h4, h5, h6, h7⟩ := h
  obtain ⟨g1, g2, g3, g4, g5, g6, g7⟩ := h'
  exact ⟨g1.trans h1, g2.trans h2, g3.trans h3, g4.trans h4, g5.trans h5, g6.trans h6, g7.trans h7⟩

/-- The points of `count` records standing one after the other in `v`, the first NaN draw being `i`. -/
def pointsOf : Nat → List Byte → Units → Nat → List RadarPoint
  | 0, _, _, _ => []
  | count + 1, v, u, i =>
    match readRawPoint v with
    | some r => decompress r u i :: pointsOf count (v.drop 10) u (i + 6)
    | none => []

/-- The bins standing one after the other in `v`. -/
def binsOf : Nat → List Byte → List Word
  | 0, _ => []
  | count + 1, v =>
    match u32le v 0 with
    | some bin => bin :: binsOf count (v.drop 4)
    | none => []

theorem pointsOf_length {count : Nat} {v : List Byte} (h : 10 * count ≤ v.length) (u : Units) (i : Nat) :
    (pointsOf count v u i).length = count := by
  induction count generalizing v i with
  | zero => rfl
  | succ count ih =>
    obtain ⟨r, hr⟩ := readRawPoint_isSome (v := v) (by omega)
    simp only [pointsOf, hr, List.length_cons]
    rw [ih (by simp only [List.length_drop]; omega)]

theorem binsOf_length {count : Nat} {v : List Byte} (h : 4 * count ≤ v.length) :
    (binsOf count v).length = count := by
  induction count generalizing v with
  | zero => rfl
  | succ count ih =>
    obtain ⟨r, hr⟩ := u32le_isSome (v := v) (a := 0) (by omega)
    simp only [binsOf, hr, List.length_cons]
    rw [ih (by simp only [List.length_drop]; omega)]

/-- Point `j` is the decompression of the record at offset `10 * j` (R204, R205). -/
theorem pointsOf_getElem {count : Nat} {v : List Byte} (h : 10 * count ≤ v.length) (u : Units) (i j : Nat)
    (hj : j < count) :
    ∃ r, readRawPoint (v.drop (10 * j)) = some r ∧
      (pointsOf count v u i)[j]? = some (decompress r u (i + 6 * j)) := by
  induction count generalizing v i j with
  | zero => omega
  | succ count ih =>
    obtain ⟨r, hr⟩ := readRawPoint_isSome (v := v) (by omega)
    cases j with
    | zero => exact ⟨r, by simpa using hr, by simp [pointsOf, hr]⟩
    | succ j =>
      obtain ⟨r', hr', hp⟩ := ih (v := v.drop 10) (by simp only [List.length_drop]; omega) (i + 6) j
        (by omega)
      refine ⟨r', ?_, ?_⟩
      · rw [List.drop_drop] at hr'
        rw [show 10 * (j + 1) = 10 + 10 * j by omega]
        exact hr'
      · simp only [pointsOf, hr, List.getElem?_cons_succ]
        rw [hp, show i + 6 + 6 * j = i + 6 * (j + 1) by omega]

/-- Bin `j` is the word at offset `4 * j` (R88, R220). -/
theorem binsOf_getElem {count : Nat} {v : List Byte} (h : 4 * count ≤ v.length) (j : Nat) (hj : j < count) :
    (binsOf count v)[j]? = u32le v (4 * j) := by
  induction count generalizing v j with
  | zero => omega
  | succ count ih =>
    obtain ⟨r, hr⟩ := u32le_isSome (v := v) (a := 0) (by omega)
    cases j with
    | zero => simp [binsOf, hr]
    | succ j =>
      simp only [binsOf, hr, List.getElem?_cons_succ]
      rw [ih (by simp only [List.length_drop]; omega) j (by omega), u32le_drop,
        show 4 + 4 * j = 4 * (j + 1) by omega]

/-- The record loop, when its records are all there (R206: the early stop is never taken): the points are
appended in order, six draws each; only the locals of the loop change besides. -/
theorem pointLoop_spec {count : Nat} {v : List Byte} (d : Scratch) (h : 10 * count ≤ v.length) :
    ∃ r p, pointLoop count v d = some { d with
      raw := r
      point := p
      draws := d.draws + 6 * count
      pf := { d.pf with points := d.pf.points ++ pointsOf count v d.unit d.draws } } := by
  induction count generalizing v d with
  | zero => exact ⟨d.raw, d.point, by simp [pointLoop, pointsOf]⟩
  | succ count ih =>
    obtain ⟨r, hr⟩ := readRawPoint_isSome (v := v) (by omega)
    obtain ⟨r', p', ih⟩ := ih (v := v.drop 10) (d.loadRaw r).decompressRaw.appendPoint
      (by simp only [List.length_drop]; omega)
    refine ⟨r', p', ?_⟩
    rw [pointLoop, if_neg (by simp only [Config.pointRecLen]; omega), hr]
    show pointLoop count (v.drop 10) _ = _
    rw [ih]
    simp only [pointsOf, hr]
    simp [Nat.mul_add]
    omega

/-- The bin loop, when its bins are all there (R222). -/
theorem binLoop_spec {count : Nat} {v : List Byte} (d : Scratch) (h : 4 * count ≤ v.length) :
    binLoop count v d = some { d with bins := d.bins ++ binsOf count v } := by
  induction count generalizing v d with
  | zero => simp [binLoop, binsOf]
  | succ count ih =>
    obtain ⟨b, hb⟩ := u32le_isSome (v := v) (a := 0) (by omega)
    rw [binLoop, if_neg (by simp only [Config.rangeBinLen]; omega), hb]
    show binLoop count (v.drop 4) _ = _
    rw [ih _ (by simp only [List.length_drop]; omega)]
    simp only [binsOf, hb]
    simp

/-- `DEC_POINTS` on a short value: nothing (R201). -/
theorem decPoints_short {v : List Byte} (d : Scratch) (h : v.length < 20) : decPoints v d = some d := by
  simp [decPoints, Config.unitHdrLen, h, Scratch.raiseMalformedSubRecord]

/-- `DEC_POINTS` on a value with a unit header (R202 to R205, R208). -/
theorem decPoints_spec {v : List Byte} (d : Scratch) (h : 20 ≤ v.length) :
    ∃ u r p, readUnits v = some u ∧ decPoints v d = some { d with
      unit := u
      raw := r
      point := p
      draws := d.draws + 6 * ((v.length - 20) / 10)
      pf := { d.pf with points := d.pf.points ++ pointsOf ((v.length - 20) / 10) (v.drop 20) u d.draws } } := by
  obtain ⟨u, hu⟩ := readUnits_isSome (v := v) (by omega)
  obtain ⟨r, p, hp⟩ := pointLoop_spec (count := (v.length - 20) / 10) (v := v.drop 20) (d.loadUnits u)
    (by simp only [List.length_drop]; omega)
  refine ⟨u, r, p, hu, ?_⟩
  rw [decPoints, if_neg (by simp only [Config.unitHdrLen]; omega), hu]
  exact hp

/-- `DEC_RANGE` (R220, R221, R223). -/
theorem decRange_spec (v : List Byte) (d : Scratch) :
    decRange v d = some { d with
      bins := binsOf (v.length / 4) v
      pf := { d.pf with rangeProfile := some (binsOf (v.length / 4) v) } } := by
  have h := binLoop_spec (count := v.length / 4) (v := v) d.clearBins (by omega)
  rw [decRange, show Config.rangeBinLen = 4 from rfl, h]
  simp [Scratch.setRange, Scratch.clearBins]

/-- `DEC_STATS` on a short value: nothing (R230). -/
theorem decStats_short {v : List Byte} (d : Scratch) (h : v.length < 24) : decStats v d = some d := by
  simp [decStats, Config.statsMinLen, h, Scratch.raiseMalformedSubRecord]

/-- `DEC_STATS` on a whole record (R230, R231, R232). -/
theorem decStats_spec {v : List Byte} (d : Scratch) (h : 24 ≤ v.length) :
    ∃ t, readStats v = some t ∧
      decStats v d = some { d with stat := t, pf := { d.pf with stats := some t } } := by
  obtain ⟨t, ht⟩ := readStats_isSome h
  refine ⟨t, ht, ?_⟩
  rw [decStats, if_neg (by simp only [Config.statsMinLen]; omega), ht]
  rfl

/-- No decoder fails (R241), and none changes the walk's registers or the error code (R177, R241). -/
theorem dispatch_total (type : Word) (v : List Byte) (d : Scratch) :
    ∃ d', dispatch type v d = some d' ∧ SameWalk d d' ∧ d'.pf.errorCode = d.pf.errorCode ∧
      d'.pf.frameNumber = d.pf.frameNumber ∧ d'.pf.numDetectedObj = d.pf.numDetectedObj := by
  unfold dispatch
  split
  · by_cases h : v.length < 20
    · exact ⟨d, decPoints_short d h, .refl d, rfl, rfl, rfl⟩
    · obtain ⟨u, r, p, -, hp⟩ := decPoints_spec d (Nat.le_of_not_lt h)
      exact ⟨_, hp, ⟨rfl, rfl, rfl, rfl, rfl, rfl, rfl⟩, rfl, rfl, rfl⟩
  · split
    · exact ⟨_, decRange_spec v d, ⟨rfl, rfl, rfl, rfl, rfl, rfl, rfl⟩, rfl, rfl, rfl⟩
    · split
      · by_cases h : v.length < 24
        · exact ⟨d, decStats_short d h, .refl d, rfl, rfl, rfl⟩
        · obtain ⟨t, -, ht⟩ := decStats_spec d (Nat.le_of_not_lt h)
          exact ⟨_, ht, ⟨rfl, rfl, rfl, rfl, rfl, rfl, rfl⟩, rfl, rfl, rfl⟩
      · exact ⟨d, rfl, .refl d, rfl, rfl, rfl⟩

end Sys2Proof.Machine
end

