-- ==== Sys2Proof/Laws/Encoding.lean ====
section
/-! SUPPORT. The wire formats both ways: what was written out is read back (R95), and what was read is what
stands there. -/

namespace Sys2Proof.Machine

/-- A concatenation determines its parts. -/
theorem append_injective {n m : Nat} {a a' : BitVec n} {b b' : BitVec m} (h : a ++ b = a' ++ b') :
    a = a' ∧ b = b' := by
  have key : ∀ i, (a ++ b).getLsbD i = (a' ++ b').getLsbD i := fun i => by rw [h]
  simp only [BitVec.getLsbD_append] at key
  constructor
  · apply BitVec.eq_of_getLsbD_eq
    intro i _
    simpa using key (m + i)
  · apply BitVec.eq_of_getLsbD_eq
    intro i hi
    simpa [hi] using key i

/-! ### Read back what was written -/

theorem readHeader_headerBytes (h : Header) : readHeader (headerBytes h) = some h := by
  simp only [readHeader, headerBytes, u32le, u16le, u8, le32, le16, Config.magic, List.cons_append,
    List.nil_append, List.getElem?_cons_succ, List.getElem?_cons_zero, Option.bind_eq_bind,
    Option.bind_some, Option.pure_def, Nat.reduceAdd, half_of_bytes, word_of_halves]

theorem readRawPoint_rawPointBytes (r : RawPoint) : readRawPoint (rawPointBytes r) = some r := by
  simp only [readRawPoint, rawPointBytes, u16le, u8, le16, List.cons_append, List.nil_append,
    List.getElem?_cons_succ, List.getElem?_cons_zero, Option.bind_eq_bind, Option.bind_some,
    Option.pure_def, Nat.reduceAdd, half_of_bytes]

theorem readUnits_unitsBytes (u : Units) (c : Word) : readUnits (unitsBytes u c) = some u := by
  simp only [readUnits, unitsBytes, u32le, u16le, u8, le32, le16, List.cons_append, List.nil_append,
    List.getElem?_cons_succ, List.getElem?_cons_zero, Option.bind_eq_bind, Option.bind_some,
    Option.pure_def, Nat.reduceAdd, half_of_bytes, word_of_halves]

theorem readCounts_unitsBytes (u : Units) (c : Word) : u32le (unitsBytes u c) 16 = some c := by
  simp only [unitsBytes, u32le, u16le, u8, le32, le16, List.cons_append, List.nil_append,
    List.getElem?_cons_succ, List.getElem?_cons_zero, Option.bind_eq_bind, Option.bind_some,
    Option.pure_def, Nat.reduceAdd, half_of_bytes, word_of_halves]

theorem readStats_statsBytes (t : Stats) (p : BitVec 64) (rest : List Byte) :
    readStats (statsBytes t p ++ rest) = some t := by
  simp only [readStats, statsBytes, le64, u32le, u16le, u8, le32, le16, List.cons_append, List.nil_append,
    List.getElem?_cons_succ, List.getElem?_cons_zero, Option.bind_eq_bind, Option.bind_some,
    Option.pure_def, Nat.reduceAdd, half_of_bytes, word_of_halves]

theorem readPower_statsBytes (t : Stats) (p : BitVec 64) (rest : List Byte) :
    u64le (statsBytes t p ++ rest) 8 = some p := by
  simp only [statsBytes, u64le, le64, u32le, u16le, u8, le32, le16, List.cons_append, List.nil_append,
    List.getElem?_cons_succ, List.getElem?_cons_zero, Option.bind_eq_bind, Option.bind_some,
    Option.pure_def, Nat.reduceAdd, half_of_bytes, word_of_halves, dword_of_words]

theorem drop_statsBytes (t : Stats) (p : BitVec 64) (rest : List Byte) :
    (statsBytes t p ++ rest).drop 24 = rest := rfl

theorem u32le_of_le32 (w : Word) : u32le (le32 w) 0 = some w := by
  simpa using u32le_le32 [] [] w rfl

/-- A length below 2^31 is its own word, read as signed and as unsigned (R84, R176). -/
theorem lengthWord {n : Nat} (h : n < 2 ^ 31) :
    (BitVec.ofNat 32 n).toNat = n ∧ (BitVec.ofNat 32 n).toInt = n := by
  have hn : (BitVec.ofNat 32 n).toNat = n := by simp; omega
  refine ⟨hn, ?_⟩
  rw [BitVec.toInt_eq_toNat_cond, hn]
  split <;> omega

/-! ### What was read is what stands there -/

theorem le16_append (b1 b0 : Byte) : le16 (b1 ++ b0) = [b0, b1] := by
  obtain ⟨h1, h2⟩ := append_injective (half_of_bytes (b1 ++ b0))
  simp [le16, h1, h2]

theorem le32_append (h1 h0 : Half) : le32 (h1 ++ h0) = le16 h0 ++ le16 h1 := by
  obtain ⟨a, b⟩ := append_injective (word_of_halves (h1 ++ h0))
  simp [le32, a, b]

theorem le64_append (w1 w0 : Word) : le64 (w1 ++ w0) = le32 w0 ++ le32 w1 := by
  obtain ⟨a, b⟩ := append_injective (dword_of_words (w1 ++ w0))
  simp [le64, a, b]

theorem drop_of_u8 {v : List Byte} {a : Nat} {w : Byte} (h : u8 v a = some w) :
    v.drop a = w :: v.drop (a + 1) := by
  have hl := lt_length_of_u8 h
  rw [u8_eq_some hl] at h
  cases h
  exact List.drop_eq_getElem_cons hl

theorem drop_of_u16le {v : List Byte} {a : Nat} {w : Half} (h : u16le v a = some w) :
    v.drop a = le16 w ++ v.drop (a + 2) := by
  simp only [u16le, Option.bind_eq_bind, Option.bind_eq_some_iff, Option.pure_def, Option.some.injEq] at h
  obtain ⟨b0, h0, b1, h1, rfl⟩ := h
  rw [le16_append, drop_of_u8 h0, drop_of_u8 h1]
  rfl

theorem drop_of_u32le {v : List Byte} {a : Nat} {w : Word} (h : u32le v a = some w) :
    v.drop a = le32 w ++ v.drop (a + 4) := by
  simp only [u32le, Option.bind_eq_bind, Option.bind_eq_some_iff, Option.pure_def, Option.some.injEq] at h
  obtain ⟨h0, e0, h1, e1, rfl⟩ := h
  rw [le32_append, drop_of_u16le e0, drop_of_u16le e1, List.append_assoc]

theorem drop_of_u64le {v : List Byte} {a : Nat} {w : BitVec 64} (h : u64le v a = some w) :
    v.drop a = le64 w ++ v.drop (a + 8) := by
  simp only [u64le, Option.bind_eq_bind, Option.bind_eq_some_iff, Option.pure_def, Option.some.injEq] at h
  obtain ⟨w0, e0, w1, e1, rfl⟩ := h
  rw [le64_append, drop_of_u32le e0, drop_of_u32le e1, List.append_assoc]

/-- A layout is accepted exactly when its fields were read and no byte follows them. -/
theorem exactSize_ok {size : Nat} {bytes : List Byte} {o : Option Instr} {i : Instr} :
    exactSize size bytes o = .ok i ↔ o = some i ∧ bytes.length ≤ size := by
  unfold exactSize
  cases o with
  | none => simp
  | some j => by_cases h : bytes.length ≤ size <;> simp [h]

end Sys2Proof.Machine
end

