-- ==== Sys2Proof/Laws/Float32.lean ====
section
/-! SUPPORT. The binary32 arithmetic of the decompressor: the rounding, the conversion of a raw value, the
product, and the classes of the result (R210 to R215). -/

namespace Sys2Proof.Machine

/-- The rounding, said once (R212): `q` at the place `s` is within half a place of `p`, even on a tie; the place
is never below 2^-149, and above it `q` has 24 bits. -/
theorem roundToNearestEven_spec (p : Nat) :
    ∃ s q, 149 ≤ s ∧ roundToNearestEven p = min ((s - 149) * 2 ^ 23 + q) 0x7F800000 ∧
    q ≤ 2 ^ 24 ∧ (s = 149 ∨ (2 ^ 23 ≤ q ∧ 2 ^ 23 * 2 ^ s ≤ p)) ∧ p < 2 ^ 24 * 2 ^ s ∧
    q * 2 ^ s ≤ p + 2 ^ (s - 1) ∧ p ≤ q * 2 ^ s + 2 ^ (s - 1) ∧
    (q * 2 ^ s = p + 2 ^ (s - 1) ∨ p = q * 2 ^ s + 2 ^ (s - 1) → q % 2 = 0) := by
  set s := max 149 (Nat.log2 p - 23) with hs
  have h149 : 149 ≤ s := by omega
  have hpow : 2 ^ s = 2 * 2 ^ (s - 1) := by
    rw [← Nat.pow_succ']; congr 1; omega
  have hpos : 0 < 2 ^ (s - 1) := Nat.pow_pos (by omega)
  have hdm := Nat.div_add_mod p (2 ^ s)
  have hr : p % 2 ^ s < 2 ^ s := Nat.mod_lt _ (by omega)
  set q := p / 2 ^ s with hq
  set r := p % 2 ^ s with hrd
  set up := if 2 ^ (s - 1) < r ∨ (r = 2 ^ (s - 1) ∧ q % 2 = 1) then 1 else 0 with hup
  have hplt : p < 2 ^ 24 * 2 ^ s := by
    have h1 : p < 2 ^ (Nat.log2 p + 1) := Nat.lt_log2_self
    have h2 : 2 ^ (Nat.log2 p + 1) ≤ 2 ^ (24 + s) := Nat.pow_le_pow_right (by omega) (by omega)
    rw [← Nat.pow_add]; omega
  have hqlt : q < 2 ^ 24 := Nat.div_lt_of_lt_mul (by rw [Nat.mul_comm]; exact hplt)
  have hlow : s = 149 ∨ 2 ^ 23 * 2 ^ s ≤ p := by
    by_cases h : s = 149
    · exact .inl h
    · right
      have hl : s = Nat.log2 p - 23 := by omega
      have hp : p ≠ 0 := by rintro rfl; simp at hl; omega
      have : 2 ^ Nat.log2 p ≤ p := Nat.log2_self_le hp
      rw [← Nat.pow_add, show 23 + s = Nat.log2 p by omega]; exact this
  have hmul : (q + up) * 2 ^ s = q * 2 ^ s + up * 2 ^ s := Nat.add_mul _ _ _
  have hcomm : 2 ^ s * q = q * 2 ^ s := Nat.mul_comm _ _
  refine ⟨s, q + up, h149, ?_, ?_, ?_, hplt, ?_, ?_, ?_⟩
  · simp only [roundToNearestEven]
    rw [← hs, ← hq, ← hrd, ← hup, Nat.add_assoc]
  · have : up ≤ 1 := by rw [hup]; split <;> omega
    omega
  · rcases hlow with h | h
    · exact .inl h
    · right
      refine ⟨?_, h⟩
      have : 2 ^ 23 ≤ q := (Nat.le_div_iff_mul_le (by omega)).2 h
      omega
  · rw [hmul]
    rw [hup]; split <;> omega
  · rw [hmul]
    rw [hup]; split
    · omega
    · rename_i hn; push Not at hn; omega
  · rw [hmul]
    intro h
    rw [hup] at h ⊢
    split at h
    · rename_i hc
      rw [if_pos hc]
      omega
    · rename_i hn
      rw [if_neg hn]
      push Not at hn
      have := hn.2
      omega

theorem signedBits_toNat_aux {sg : Word} (hs : sg = 0 ∨ sg = signBit) {m : Nat} (hm : m < 2 ^ 31) :
    (sg ||| BitVec.ofNat 32 m).toNat = (if sg = 0 then 0 else 2 ^ 31) + m := by
  rcases hs with rfl | rfl
  · simp; omega
  · rw [BitVec.toNat_or]
    simp only [signBit, BitVec.toNat_ofNat]
    rw [Nat.mod_eq_of_lt (show m < 2 ^ 32 by omega)]
    have := Nat.two_pow_add_eq_or_of_lt hm 1
    simp at this ⊢
    omega

/-- The magnitude that 31 magnitude bits stand for, in units of 2^-149. -/
def magBits (m : Nat) :
    Nat := if m / 2 ^ 23 = 0 then m % 2 ^ 23 else (2 ^ 23 + m % 2 ^ 23) * 2 ^ (m / 2 ^ 23 - 1)

theorem fields_toNat (w : Word) :
    (expField w).toNat = w.toNat / 2 ^ 23 % 2 ^ 8 ∧ (fracField w).toNat = w.toNat % 2 ^ 23 := by
  simp [expField, fracField, BitVec.extractLsb'_toNat, Nat.shiftRight_eq_div_pow]

theorem magnitude_eq (w : Word) : magnitude w = magBits (w.toNat % 2 ^ 31) := by
  obtain ⟨he, hf⟩ := fields_toNat w
  have h0 : expField w = 0 ↔ (expField w).toNat = 0 := by rw [← BitVec.toNat_inj]; simp
  unfold magnitude magBits
  have a : w.toNat % 2 ^ 31 / 2 ^ 23 = w.toNat / 2 ^ 23 % 2 ^ 8 := by omega
  have b : w.toNat % 2 ^ 31 % 2 ^ 23 = w.toNat % 2 ^ 23 := by omega
  simp only [h0, he, hf, a, b]

theorem magBits_eq {t q : Nat} (hq : q ≤ 2 ^ 24) (h : t = 0 ∨ 2 ^ 23 ≤ q) :
    magBits (t * 2 ^ 23 + q) = q * 2 ^ t := by
  unfold magBits
  by_cases h1 : q < 2 ^ 23
  · have ht : t = 0 := by omega
    subst ht
    rw [if_pos (by omega)]; simp; omega
  · by_cases h2 : q = 2 ^ 24
    · subst h2
      have e1 : (t * 2 ^ 23 + 2 ^ 24) / 2 ^ 23 = t + 2 := by omega
      have e2 : (t * 2 ^ 23 + 2 ^ 24) % 2 ^ 23 = 0 := by omega
      rw [e1, e2, if_neg (by omega), show t + 2 - 1 = t + 1 by omega]
      ring
    · have e1 : (t * 2 ^ 23 + q) / 2 ^ 23 = t + 1 := by omega
      have e2 : (t * 2 ^ 23 + q) % 2 ^ 23 = q - 2 ^ 23 := by omega
      rw [e1, e2, if_neg (by omega), show t + 1 - 1 = t by omega]
      rw [show 2 ^ 23 + (q - 2 ^ 23) = q by omega]

/-- Against every other finite magnitude `f * 2^g`, the rounded one is at least as near to `n`; on a tie it is
even. -/
theorem rounded_nearest {n s q f g : Nat} (hs : 149 ≤ s) (hq : q ≤ 2 ^ 24) (hlow : s = 149 ∨ (2 ^ 23 ≤ q ∧ 2 ^ 23 * 2 ^ s ≤ n * 2 ^ 149))
    (h1 : q * 2 ^ s ≤ n * 2 ^ 149 + 2 ^ (s - 1)) (h2 : n * 2 ^ 149 ≤ q * 2 ^ s + 2 ^ (s - 1))
    (h3 : (q * 2 ^ s = n * 2 ^ 149 + 2 ^ (s - 1) ∨ n * 2 ^ 149 = q * 2 ^ s + 2 ^ (s - 1)) → q % 2 = 0)
    (hf : f < 2 ^ 24) (hg : g = 0 ∨ 2 ^ 23 ≤ f) :
    |((q * 2 ^ (s - 149) : Nat) : Int) - n| ≤ |((f * 2 ^ g : Nat) : Int) - n| ∧
    (|((q * 2 ^ (s - 149) : Nat) : Int) - n| = |((f * 2 ^ g : Nat) : Int) - n| → f * 2 ^ g ≠ q * 2 ^ (s - 149) → q % 2 = 0) := by
  simp only [Int.abs_eq_natAbs]
  obtain ⟨t, rfl⟩ : ∃ t, s = 149 + t := ⟨s - 149, by omega⟩
  rw [show 149 + t - 149 = t by omega]
  have hp : (0 : Nat) < 2 ^ 149 := by positivity
  cases t with
  | zero =>
    have : q = n := by
      have e : 2 ^ 149 = 2 * 2 ^ (149 - 1) := by rw [← Nat.pow_succ']
      rw [Nat.add_zero] at h1 h2
      have hy : 0 < 2 ^ (149 - 1) := by positivity
      have a : q * 2 ^ 149 < (n + 1) * 2 ^ 149 := by
        rw [Nat.add_mul]; generalize 2 ^ 149 = X at *; generalize 2 ^ (149 - 1) = Y at *; omega
      have b : n * 2 ^ 149 < (q + 1) * 2 ^ 149 := by
        rw [Nat.add_mul]; generalize 2 ^ 149 = X at *; generalize 2 ^ (149 - 1) = Y at *; omega
      have := Nat.lt_of_mul_lt_mul_right a
      have := Nat.lt_of_mul_lt_mul_right b
      omega
    subst this
    simp only [pow_zero, Nat.mul_one]
    refine ⟨by omega, fun h hne => ?_⟩
    exfalso
    apply hne; omega
  | succ t =>
    have e1 : ∀ x : Nat, x * 2 ^ (149 + (t + 1)) = (x * 2 ^ (t + 1)) * 2 ^ 149 := fun x => by ring
    have e2 : 2 ^ (149 + (t + 1) - 1) = 2 ^ t * 2 ^ 149 := by rw [show 149 + (t + 1) - 1 = 149 + t by omega]; ring
    rw [e1, e2, ← Nat.add_mul] at h1
    rw [e1, e2, ← Nat.add_mul] at h2
    have h1 := Nat.le_of_mul_le_mul_right h1 hp
    have h2 := Nat.le_of_mul_le_mul_right h2 hp
    have h3' : (q * 2 ^ (t + 1) = n + 2 ^ t ∨ n = q * 2 ^ (t + 1) + 2 ^ t) → q % 2 = 0 := by
      intro h; apply h3
      rw [e1, e2, ← Nat.add_mul, ← Nat.add_mul]
      rcases h with h | h
      · left; rw [h]
      · right; rw [h]
    have hlow' : 2 ^ 23 * 2 ^ (t + 1) ≤ n := by
      rcases hlow with h | ⟨-, h⟩
      · omega
      · rw [e1] at h; exact Nat.le_of_mul_le_mul_right h hp
    simp only [← Int.abs_eq_natAbs]
    have key : ∀ k : Nat, |((q * 2 ^ (t + 1) : Nat) : Int) - n| ≤ |((k * 2 ^ (t + 1) : Nat) : Int) - n| ∧
       (|((q * 2 ^ (t + 1) : Nat) : Int) - n| = |((k * 2 ^ (t + 1) : Nat) : Int) - n| → k ≠ q → q % 2 = 0) := by
      intro k
      simp only [Int.abs_eq_natAbs]
      rcases Nat.lt_trichotomy k q with h | h | h
      · have : k * 2 ^ (t + 1) + 2 * 2 ^ t ≤ q * 2 ^ (t + 1) := by
          have := Nat.mul_le_mul_right (2 ^ (t + 1)) h
          rw [Nat.succ_mul] at this
          rw [show 2 * 2 ^ t = 2 ^ (t + 1) by ring]; exact this
        refine ⟨by omega, fun h _ => h3' (by omega)⟩
      · subst h; exact ⟨le_refl _, fun _ h => absurd rfl h⟩
      · have : q * 2 ^ (t + 1) + 2 * 2 ^ t ≤ k * 2 ^ (t + 1) := by
          have := Nat.mul_le_mul_right (2 ^ (t + 1)) h
          rw [Nat.succ_mul] at this
          rw [show 2 * 2 ^ t = 2 ^ (t + 1) by ring]; exact this
        refine ⟨by omega, fun h _ => h3' (by omega)⟩
    by_cases hgt : t + 1 ≤ g
    · obtain ⟨j, rfl⟩ : ∃ j, g = t + 1 + j := ⟨g - (t + 1), by omega⟩
      have e3 : f * 2 ^ (t + 1 + j) = (f * 2 ^ j) * 2 ^ (t + 1) := by ring
      rw [e3]
      obtain ⟨a, b⟩ := key (f * 2 ^ j)
      refine ⟨a, fun h hne => b h fun hh => hne (by rw [hh])⟩
    · have hfm : f * 2 ^ g < 2 ^ 23 * 2 ^ (t + 1) := by
        calc f * 2 ^ g < 2 ^ 24 * 2 ^ g := Nat.mul_lt_mul_of_pos_right hf (by positivity)
          _ ≤ 2 ^ 24 * 2 ^ t := Nat.mul_le_mul_left _ (Nat.pow_le_pow_right (by omega) (by omega))
          _ = 2 ^ 23 * 2 ^ (t + 1) := by ring
      obtain ⟨a, -⟩ := key (2 ^ 23)
      have hlt : |((2 ^ 23 * 2 ^ (t + 1) : Nat) : Int) - n| < |((f * 2 ^ g : Nat) : Int) - n| := by
        simp only [Int.abs_eq_natAbs]; omega
      exact ⟨a.trans hlt.le, fun h => absurd h (by have := a.trans_lt hlt; exact this.ne)⟩

theorem roundToNearestEven_le (p : Nat) : roundToNearestEven p ≤ 0x7F800000 := by
  simp only [roundToNearestEven]; exact Nat.min_le_right _ _

/-- The word of a sign bit alone. -/
def signWord (b : Bool) : Word := if b then signBit else 0

theorem signWord_cases (b : Bool) : signWord b = 0 ∨ signWord b = signBit := by cases b <;> simp [signWord]

theorem signedBits_toNat (b : Bool) {m : Nat} (hm : m ≤ 0x7F800000) :
    (signWord b ||| BitVec.ofNat 32 m).toNat = (if b then 2 ^ 31 else 0) + m := by
  rw [signedBits_toNat_aux (signWord_cases b) (by omega)]
  cases b <;> simp [signWord, signBit]

theorem magnitude_signedBits (b : Bool) {m : Nat} (hm : m ≤ 0x7F800000) :
    magnitude (signWord b ||| BitVec.ofNat 32 m) = magBits m := by
  rw [magnitude_eq, signedBits_toNat b hm]; cases b <;> simp <;> congr 1 <;> omega

theorem signedBits_bit31 (b : Bool) {m : Nat} (hm : m ≤ 0x7F800000) :
    (signWord b ||| BitVec.ofNat 32 m).getLsbD 31 = b := by
  rw [BitVec.getLsbD, signedBits_toNat b hm, Nat.testBit_eq_decide_div_mod_eq]
  cases b <;> simp <;> omega

theorem signedBits_bit0 (b : Bool) {m : Nat} (hm : m ≤ 0x7F800000) :
    (signWord b ||| BitVec.ofNat 32 m).getLsbD 0 = decide (m % 2 = 1) := by
  rw [BitVec.getLsbD, signedBits_toNat b hm, Nat.testBit_eq_decide_div_mod_eq]
  cases b <;> simp <;> omega

theorem expField_iff (w : Word) (k : Nat) (hk : k < 256) :
    expField w = BitVec.ofNat 8 k ↔ w.toNat / 2 ^ 23 % 2 ^ 8 = k := by
  rw [← BitVec.toNat_inj, (fields_toNat w).1, BitVec.toNat_ofNat, Nat.mod_eq_of_lt (by omega : k < 2 ^ 8)]

theorem fracField_iff (w : Word) : fracField w = 0 ↔ w.toNat % 2 ^ 23 = 0 := by
  rw [← BitVec.toNat_inj, (fields_toNat w).2]; simp

theorem isNaN_iff (w : Word) : isNaN w = true ↔ w.toNat / 2 ^ 23 % 2 ^ 8 = 255 ∧ w.toNat % 2 ^ 23 ≠ 0 := by
  have := expField_iff w 255 (by omega)
  simp only [isNaN, Bool.and_eq_true, beq_iff_eq, bne_iff_ne, ne_eq, fracField_iff]
  rw [show (255 : BitVec 8) = BitVec.ofNat 8 255 from rfl, this]

theorem isInf_iff (w : Word) : isInf w = true ↔ w.toNat / 2 ^ 23 % 2 ^ 8 = 255 ∧ w.toNat % 2 ^ 23 = 0 := by
  have := expField_iff w 255 (by omega)
  simp only [isInf, Bool.and_eq_true, beq_iff_eq, fracField_iff]
  rw [show (255 : BitVec 8) = BitVec.ofNat 8 255 from rfl, this]

theorem isZero_iff (w : Word) : isZero w = true ↔ w.toNat % 2 ^ 31 = 0 := by
  have := expField_iff w 0 (by omega)
  simp only [isZero, Bool.and_eq_true, beq_iff_eq, fracField_iff]
  rw [show (0 : BitVec 8) = BitVec.ofNat 8 0 from rfl, this]
  omega

theorem isFinite_iff (w : Word) : isFinite w = true ↔ w.toNat / 2 ^ 23 % 2 ^ 8 ≠ 255 := by
  have := expField_iff w 255 (by omega)
  simp only [isFinite, bne_iff_ne, ne_eq]
  rw [show (255 : BitVec 8) = BitVec.ofNat 8 255 from rfl, this]

theorem isInf_signedBits (b : Bool) {m : Nat} (hm : m ≤ 0x7F800000) :
    isInf (signWord b ||| BitVec.ofNat 32 m) = true ↔ m = 0x7F800000 := by
  rw [isInf_iff, signedBits_toNat b hm]; cases b <;> simp <;> omega

theorem isFinite_signedBits (b : Bool) {m : Nat} (hm : m ≤ 0x7F800000) :
    isFinite (signWord b ||| BitVec.ofNat 32 m) = true ↔ m < 0x7F800000 := by
  rw [isFinite_iff, signedBits_toNat b hm]; cases b <;> simp <;> omega

theorem isNaN_signedBits (b : Bool) {m : Nat} (hm : m ≤ 0x7F800000) :
    isNaN (signWord b ||| BitVec.ofNat 32 m) = false := by
  rw [← Bool.not_eq_true, isNaN_iff, signedBits_toNat b hm]; cases b <;> simp <;> omega

/-- The conversion of a raw value is exact (R211). -/
theorem roundToNearestEven_raw (n : Nat) (hn : n ≤ 2 ^ 15) :
    roundToNearestEven (n * 2 ^ 298) < 0x7F800000 ∧ magBits (roundToNearestEven (n * 2 ^ 298)) = n * 2 ^ 149 := by
  obtain ⟨s, q, hs, hr, hq, hlow, hlt, h1, h2, h3⟩ := roundToNearestEven_spec (n * 2 ^ 298)
  have hs2 : s ≤ 290 := by
    rcases hlow with h | ⟨-, h⟩
    · omega
    · by_contra hc
      have a : 2 ^ 23 * 2 ^ 291 ≤ 2 ^ 23 * 2 ^ s := Nat.mul_le_mul_left _ (Nat.pow_le_pow_right (by omega) (by omega))
      have b : n * 2 ^ 298 ≤ 2 ^ 15 * 2 ^ 298 := Nat.mul_le_mul_right _ hn
      have c : 2 ^ 15 * 2 ^ 298 < 2 ^ 23 * 2 ^ 291 := by
        rw [← Nat.pow_add, ← Nat.pow_add]; exact Nat.pow_lt_pow_right (by omega) (by omega)
      exact absurd (c.trans_le (a.trans (h.trans b))) (lt_irrefl _)
  have hx : n * 2 ^ 298 = (n * 2 ^ (298 - s)) * 2 ^ s := by
    rw [Nat.mul_assoc, ← Nat.pow_add, show 298 - s + s = 298 by omega]
  have hp : 2 ^ s = 2 * 2 ^ (s - 1) := by rw [← Nat.pow_succ']; congr 1; omega
  have hy : 0 < 2 ^ (s - 1) := by positivity
  have heq : q = n * 2 ^ (298 - s) := by
    rw [hx] at h1 h2
    set k := n * 2 ^ (298 - s)
    have a : q * 2 ^ s < (k + 1) * 2 ^ s := by rw [Nat.add_mul]; omega
    have b : k * 2 ^ s < (q + 1) * 2 ^ s := by rw [Nat.add_mul]; omega
    have := Nat.lt_of_mul_lt_mul_right a
    have := Nat.lt_of_mul_lt_mul_right b
    omega
  have hm : (s - 149) * 2 ^ 23 + q < 0x7F800000 := by omega
  have hmin : roundToNearestEven (n * 2 ^ 298) = (s - 149) * 2 ^ 23 + q := by rw [hr]; omega
  refine ⟨by omega, ?_⟩
  rw [hmin, magBits_eq hq (by omega), heq, Nat.mul_assoc, ← Nat.pow_add, show 298 - s + (s - 149) = 149 by omega]

theorem iToF32_eq (r : Int) :
    iToF32 r = signWord (decide (r < 0)) ||| BitVec.ofNat 32 (roundToNearestEven (r.natAbs * 2 ^ 298)) := by
  unfold iToF32 signWord; by_cases h : r < 0 <;> simp [h]

theorem iToF32_facts {r : Int} (h : isRaw r) :
    isNaN (iToF32 r) = false ∧ isInf (iToF32 r) = false ∧ magnitude (iToF32 r) = r.natAbs * 2 ^ 149 ∧
    (isZero (iToF32 r) = true ↔ r = 0) ∧ (iToF32 r).getLsbD 31 = decide (r < 0) := by
  obtain ⟨h1, h2⟩ := roundToNearestEven_raw r.natAbs (by unfold isRaw at h; omega)
  have hm := roundToNearestEven_le (r.natAbs * 2 ^ 298)
  rw [iToF32_eq]
  refine ⟨isNaN_signedBits _ hm, ?_, by rw [magnitude_signedBits _ hm, h2], ?_, signedBits_bit31 _ hm⟩
  · rw [← Bool.not_eq_true, isInf_signedBits _ hm]; omega
  · rw [isZero_iff, signedBits_toNat _ hm]
    constructor
    · intro h0
      have hz : roundToNearestEven (r.natAbs * 2 ^ 298) = 0 := by
        split at h0 <;> omega
      rw [hz] at h2
      simp [magBits] at h2
      exact h2
    · rintro rfl
      simp [roundToNearestEven]

theorem productSign_eq (a u : Word) : (a ^^^ u) &&& signBit = signWord (a.getLsbD 31 ^^ u.getLsbD 31) := by
  apply BitVec.eq_of_getLsbD_eq
  intro i hi
  have hs : signBit.getLsbD i = decide (i = 31) := by
    interval_cases i <;> decide
  rw [BitVec.getLsbD_and, BitVec.getLsbD_xor, hs]
  by_cases h : i = 31
  · subst h; simp only [signWord]; cases (a.getLsbD 31 ^^ u.getLsbD 31) <;> simp [hs]
  · simp only [h, decide_false, Bool.and_false, signWord]; cases (a.getLsbD 31 ^^ u.getLsbD 31) <;> simp [hs, h]

/-- Whatever bits are drawn, the pattern is a NaN (R214). -/
theorem isNaN_nanPattern (b : Word) : isNaN (nanPattern b) = true := by
  have he : ∀ x : Word, expField (b ||| 0x7F800001) = 255 ∧ expField (b ||| infBits) = 255 := by
    intro x
    constructor <;>
    · apply BitVec.eq_of_getLsbD_eq
      intro i hi
      simp only [expField, BitVec.getLsbD_extractLsb', BitVec.getLsbD_or]
      interval_cases i <;> simp [infBits]
  unfold nanPattern
  split
  · rename_i h
    simp only [isNaN, (he 0).1, beq_self_eq_true, Bool.true_and, bne_iff_ne, ne_eq]
    intro hf
    have := congrArg (fun x => x.getLsbD 0) hf
    simp [fracField] at this
  · rename_i h
    simp only [isNaN, (he 0).2, beq_self_eq_true, Bool.true_and, bne_iff_ne, ne_eq]
    intro hf
    apply h
    apply BitVec.eq_of_getLsbD_eq
    intro i hi
    have := congrArg (fun x => x.getLsbD i) hf
    simp only [fracField, BitVec.getLsbD_extractLsb', BitVec.getLsbD_or] at this ⊢
    interval_cases i <;> simpa [infBits] using this

/-- Every product of the decompressor (R212, R214, R215). -/
theorem scale_cases (i : Nat) {r : Int} (h : isRaw r) (u : Word) :
    scale i r u = if isNaN u then nanResult i
      else if isInf u then (if r = 0 then nanResult i else signWord (decide (r < 0) ^^ u.getLsbD 31) ||| infBits)
      else signWord (decide (r < 0) ^^ u.getLsbD 31) ||| BitVec.ofNat 32 (roundToNearestEven (r.natAbs * magnitude u * 2 ^ 149)) := by
  obtain ⟨h1, h2, h3, h4, h5⟩ := iToF32_facts h
  have hz : isZero (iToF32 r) = decide (r = 0) := by
    rw [Bool.eq_iff_iff, h4]; simp
  unfold scale fmul32
  simp only [h1, h2, h3, hz, productSign_eq, h5, Bool.false_or, Bool.false_eq_true, if_false]
  rw [show r.natAbs * 2 ^ 149 * magnitude u = r.natAbs * magnitude u * 2 ^ 149 by ring]
  simp


/-- A word is its sign and its magnitude bits. -/
theorem word_eq_signedBits (u : Word) :
    u = signWord (u.getLsbD 31) ||| BitVec.ofNat 32 (u.toNat % 2 ^ 31) := by
  apply BitVec.eq_of_toNat_eq
  rw [signedBits_toNat_aux (signWord_cases _) (by omega)]
  have := u.isLt
  rw [BitVec.getLsbD, Nat.testBit_eq_decide_div_mod_eq]
  by_cases h : u.toNat / 2 ^ 31 % 2 = 1
  · rw [decide_eq_true h, if_neg (by decide)]; omega
  · rw [decide_eq_false h, if_pos (show signWord false = 0 from rfl)]; omega

theorem signedBits_xor_signBit (b : Bool) {m : Nat} (hm : m < 2 ^ 31) :
    (signWord b ||| BitVec.ofNat 32 m) ^^^ signBit = signWord (!b) ||| BitVec.ofNat 32 m := by
  apply BitVec.eq_of_getLsbD_eq
  intro i hi
  have hs : signBit.getLsbD i = decide (i = 31) := by
    interval_cases i <;> decide
  have h31 : m.testBit 31 = false := Nat.testBit_lt_two_pow hm
  by_cases h : i = 31
  · subst h
    rw [BitVec.getLsbD_xor, BitVec.getLsbD_or, BitVec.getLsbD_or, hs]
    have : (BitVec.ofNat 32 m).getLsbD 31 = false := by rw [BitVec.getLsbD_ofNat]; simp [h31]
    rw [this]
    cases b
    · have : (0 : Word).getLsbD 31 = false := rfl
      simp only [signWord, if_true, if_false, Bool.not_false, hs, Bool.false_eq_true, this]; rfl
    · have : (0 : Word).getLsbD 31 = false := rfl
      simp only [signWord, if_true, if_false, Bool.not_true, hs, Bool.false_eq_true, this]; rfl
  · cases b <;> simp [signWord, hs, h]

/-- Magnitude bits as significand and place. -/
theorem magBits_form (m : Nat) :
    ∃ f g, magBits m = f * 2 ^ g ∧ m = g * 2 ^ 23 + f ∧ f < 2 ^ 24 ∧ (g = 0 ∨ 2 ^ 23 ≤ f) := by
  unfold magBits
  split
  · exact ⟨m % 2 ^ 23, 0, by simp, by omega, by omega, .inl rfl⟩
  · exact ⟨_, _, rfl, by omega, by omega, .inr (by omega)⟩

theorem magBits_form_unique {q t f g : Nat} (h : q * 2 ^ t = f * 2 ^ g) (hq : q < 2 ^ 24) (hf : f < 2 ^ 24) (hqt : t = 0 ∨ 2 ^ 23 ≤ q) (hfg : g = 0 ∨ 2 ^ 23 ≤ f) :
    t = g ∧ q = f := by
  have aux : ∀ {q t f g : Nat}, q * 2 ^ t = f * 2 ^ g → q < 2 ^ 24 → (g = 0 ∨ 2 ^ 23 ≤ f) → ¬ t < g := by
    intro q t f g h hq hfg hlt
    obtain ⟨j, rfl⟩ : ∃ j, g = t + (j + 1) := ⟨g - t - 1, by omega⟩
    have hf : 2 ^ 23 ≤ f := by omega
    have e : q = f * 2 ^ (j + 1) := by
      have : q * 2 ^ t = (f * 2 ^ (j + 1)) * 2 ^ t := by rw [h]; ring
      exact Nat.eq_of_mul_eq_mul_right (by positivity) this
    have : 2 ^ 23 * 2 ≤ f * 2 ^ (j + 1) := by
      rw [show f * 2 ^ (j + 1) = f * 2 * 2 ^ j by ring]
      calc 2 ^ 23 * 2 ≤ f * 2 := Nat.mul_le_mul_right _ hf
        _ ≤ f * 2 * 2 ^ j := Nat.le_mul_of_pos_right _ (by positivity)
    omega
  have h1 := aux h hq hfg
  have h2 := aux h.symm hf hqt
  have : t = g := by omega
  subst this
  exact ⟨rfl, Nat.eq_of_mul_eq_mul_right (by positivity) h⟩

/-- A magnitude that is already a binary32 number is kept. -/
theorem roundToNearestEven_magBits {m : Nat} (hm : m < 0x7F800000) :
    roundToNearestEven (magBits m * 2 ^ 149) = m := by
  obtain ⟨s, q, hs, hr, hq, hlow, hlt, h1, h2, h3⟩ := roundToNearestEven_spec (magBits m * 2 ^ 149)
  obtain ⟨f, g, hfg, hmfg, hf, hg⟩ := magBits_form m
  have k1 := (rounded_nearest hs hq hlow h1 h2 h3 hf hg).1
  rw [← hfg] at k1
  have k2 : q * 2 ^ (s - 149) = f * 2 ^ g := by
    rw [← hfg]; simp only [Int.abs_eq_natAbs] at k1; omega
  have hq' : q < 2 ^ 24 := by
    by_contra hc
    have : q = 2 ^ 24 := by omega
    subst this
    have e : 2 ^ 24 * 2 ^ s = 2 ^ 24 * 2 ^ (s - 149) * 2 ^ 149 := by
      rw [Nat.mul_assoc, ← Nat.pow_add 2 (s - 149), show s - 149 + 149 = s by omega]
    rw [e, k2, hfg] at hlt
    exact lt_irrefl _ hlt
  obtain ⟨a, b⟩ := magBits_form_unique k2 hq' hf (by omega) hg
  rw [hr, a, b, ← hmfg]; omega

end Sys2Proof.Machine
end

