-- ==== Sys2Proof/Laws/Memory.lean ====
section
/-! SUPPORT. The accumulation buffer as a memory: its canonical form, that every operation keeps it (R52,
R53), and that its (address, byte) reading has rising addresses and determines it. -/

namespace Sys2Proof.Machine

theorem Memory.wf_iff {cap : Option Nat} {m : Memory} :
    Memory.wf cap m = true ↔ ∀ c, cap = some c → m.length ≤ c := by
  cases cap <;> simp [Memory.wf]

/-- A shorter memory fits where a longer one does. -/
theorem Memory.wf_of_length_le {cap : Option Nat} {m m' : Memory} (h : Memory.wf cap m = true)
    (hl : m'.length ≤ m.length) : Memory.wf cap m' = true := by
  rw [Memory.wf_iff] at *
  exact fun c hc => Nat.le_trans hl (h c hc)

theorem reset_memory_wf (cap : Option Nat) : Memory.wf cap State.reset.buf = true := by
  cases cap <;> simp [Memory.wf, State.reset]

/-- `append`, within the precondition of PUSH. -/
theorem append_wf {s : State} {c : List Byte} (h : s.fits c = true) :
    Memory.wf (s.append c).params.bufCap (s.append c).buf = true := h

/-- `drop`. -/
theorem dropBytes_wf {s : State} (m : Nat) (h : Memory.wf s.params.bufCap s.buf = true) :
    Memory.wf (s.dropBytes m).params.bufCap (s.dropBytes m).buf = true :=
  Memory.wf_of_length_le h (by simp)

/-- `clear`. -/
theorem clearBuf_wf (s : State) : Memory.wf s.clearBuf.params.bufCap s.clearBuf.buf = true :=
  reset_memory_wf _

theorem fits_iff {s : State} {c : List Byte} :
    s.fits c = true ↔ ∀ cap, s.params.bufCap = some cap → s.buf.length + c.length ≤ cap := by
  simp [State.fits, Memory.wf_iff]

/-- Addresses rise by one. -/
theorem Memory.cellsFrom_addresses (base : Nat) (m : Memory) :
    (Memory.cellsFrom base m).map Prod.fst = List.range' base m.length := by
  induction m generalizing base with
  | nil => rfl
  | cons b m ih => simp [Memory.cellsFrom, ih, List.range'_succ]

theorem Memory.cellsFrom_bytes (base : Nat) (m : Memory) : (Memory.cellsFrom base m).map Prod.snd = m := by
  induction m generalizing base with
  | nil => rfl
  | cons b m ih => simp [Memory.cellsFrom, ih]

/-- The cells stand at strictly rising addresses. -/
theorem Memory.cells_rising (m : Memory) : ((Memory.cells m).map Prod.fst).Pairwise (· < ·) := by
  rw [Memory.cells, Memory.cellsFrom_addresses]
  exact List.pairwise_lt_range'

/-- Equal cells are equal memories. -/
theorem Memory.cells_injective {m m' : Memory} (h : Memory.cells m = Memory.cells m') : m = m' := by
  rw [← Memory.cellsFrom_bytes 0 m, ← Memory.cellsFrom_bytes 0 m']
  exact congrArg _ h

end Sys2Proof.Machine
end

