-- ==== Sys2Proof/Laws/Outputs.lean ====
section
/-! SUPPORT. The beats of a frame (R254): each determines the fields it carries. -/

namespace Sys2Proof.Machine

theorem pointBeat_injective {p q : RadarPoint} (h : pointBeat p = pointBeat q) : p = q := by
  simp only [pointBeat, Beat.mk.injEq, true_and] at h
  obtain ⟨h, h6⟩ := append_injective h
  obtain ⟨h, h5⟩ := append_injective h
  obtain ⟨h, h4⟩ := append_injective h
  obtain ⟨h, h3⟩ := append_injective h
  obtain ⟨h1, h2⟩ := append_injective h
  cases p
  cases q
  simp_all

theorem rangeBinBeat_injective {a b : Word} (h : rangeBinBeat a = rangeBinBeat b) : a = b := by
  simp only [rangeBinBeat, Beat.mk.injEq, true_and] at h
  exact (append_injective h).2

theorem statsBeat_injective {t u : Stats} (h : statsBeat t = statsBeat u) : t = u := by
  simp only [statsBeat, Beat.mk.injEq, true_and] at h
  obtain ⟨h, h6⟩ := append_injective h
  obtain ⟨h, h5⟩ := append_injective h
  obtain ⟨h, h4⟩ := append_injective h
  obtain ⟨h, h3⟩ := append_injective h
  obtain ⟨h, h2⟩ := append_injective h
  obtain ⟨-, h1⟩ := append_injective h
  cases t
  cases u
  simp_all

theorem frameEndBeat_errorCode {a b : ParsedFrame} (h : frameEndBeat a = frameEndBeat b) :
    a.errorCode = b.errorCode := by
  simp only [frameEndBeat, Beat.mk.injEq, true_and] at h
  have := (append_injective h).2
  revert this
  cases a.errorCode <;> cases b.errorCode <;> decide

/-- A run of beats of one kind ends where the kind changes. -/
theorem beats_split {α : Type} {f : α → Beat} {kind : BitVec 3} (hk : ∀ a, (f a).kind = kind)
    (hi : ∀ a b, f a = f b → a = b) {x y : List α} {r r' : List Beat}
    (hr : ∀ b ∈ r.head?, b.kind ≠ kind) (hr' : ∀ b ∈ r'.head?, b.kind ≠ kind)
    (h : x.map f ++ r = y.map f ++ r') : x = y ∧ r = r' := by
  induction x generalizing y with
  | nil =>
    cases y with
    | nil => exact ⟨rfl, h⟩
    | cons b y =>
      simp only [List.map_nil, List.nil_append, List.map_cons, List.cons_append] at h
      exact absurd (hk b) (hr (f b) (by simp [h]))
  | cons a x ih =>
    cases y with
    | nil =>
      simp only [List.map_nil, List.nil_append, List.map_cons, List.cons_append] at h
      exact absurd (hk a) (hr' (f a) (by simp [← h]))
    | cons b y =>
      simp only [List.map_cons, List.cons_append, List.cons.injEq] at h
      obtain ⟨e1, e2⟩ := ih h.2
      exact ⟨by rw [hi _ _ h.1, e1], e2⟩

end Sys2Proof.Machine
end

