-- ==== Sys2Proof/Laws/Walk.lean ====
section
/-! SUPPORT. The walk: what one step can do, that a walk whose registers fit the payload never reads past
it, keeps its cursor inside, and ends (R171 to R185). -/

namespace Sys2Proof.Machine

/-- Everything a `TLV_STEP` can do when it answers a next scratch (R171 to R179). -/
theorem tlvStep_cases {nt : Word} {d d' : Scratch} (h : tlvStep nt d = some d') :
    (recordsLeft nt d = false ∧ d' = d.endWalk) ∨
    (recordsLeft nt d = true ∧ guardOneFails d = true ∧ d' = d.raiseTruncatedTlvHeader) ∨
    (recordsLeft nt d = true ∧ guardOneFails d = false ∧ ∃ type len,
      u32le d.payload d.cur = some type ∧ u32le d.payload (d.cur + 4) = some len ∧
      ((guardTwoFails (d.loadRecordHeader type len) = true ∧
          d' = (d.loadRecordHeader type len).raiseTlvLengthExceedsBuffer) ∨
        (guardTwoFails (d.loadRecordHeader type len) = false ∧ ∃ v d2,
          memRead d.payload (d.cur + 8) len.toNat = some v ∧
          dispatch type v (d.loadRecordHeader type len) = some d2 ∧ d' = d2.advance len.toNat))) := by
  unfold tlvStep at h
  split at h
  · rename_i hl
    split at h
    · rename_i hg
      cases h
      exact .inr (.inl ⟨hl, hg, rfl⟩)
    · rename_i hg
      right; right
      refine ⟨hl, by simpa using hg, ?_⟩
      simp only [readRecordHeader, Option.bind_eq_bind, Option.bind_eq_some_iff, Option.pure_def,
        Option.some.injEq] at h
      obtain ⟨d1, ⟨type, htype, len, hlen, rfl⟩, h⟩ := h
      refine ⟨type, len, htype, hlen, ?_⟩
      unfold walkRecord at h
      split at h
      · rename_i hg2
        cases h
        exact .inl ⟨hg2, rfl⟩
      · rename_i hg2
        simp only [Scratch.value, Option.bind_eq_bind, Option.bind_eq_some_iff, Option.pure_def,
          Option.some.injEq] at h
        obtain ⟨v, hv, d2, hd2, rfl⟩ := h
        exact .inr ⟨by simpa using hg2, v, d2, hv, hd2, rfl⟩
  · rename_i hl
    cases h
    exact .inl ⟨by simpa using hl, rfl⟩

theorem guardOneFails_iff (d : Scratch) : guardOneFails d = true ↔ (d.n : Int) - d.cur < 8 := by
  unfold guardOneFails
  exact decide_eq_true_iff

theorem guardTwoFails_iff (d : Scratch) :
    guardTwoFails d = true ↔ d.tlvLen.toInt < 0 ∨ (d.n : Int) - d.cur < d.tlvLen.toInt := by
  simp [guardTwoFails]

theorem toNat_eq_of_toInt_nonneg {w : Word} (h : 0 ≤ w.toInt) : (w.toNat : Int) = w.toInt := by
  rw [BitVec.toInt_eq_toNat_cond] at h ⊢
  split at h <;> split <;> omega

/-- A walk that fits its payload answers every step, and still fits it (R51, R185). -/
theorem tlvStep_total {nt : Word} {d : Scratch} (h : WalkFits d) : ∃ d', tlvStep nt d = some d' := by
  obtain ⟨hn, hc⟩ := h
  unfold tlvStep
  split
  · split
    · exact ⟨_, rfl⟩
    · rename_i hg
      rw [guardOneFails_iff] at hg
      obtain ⟨type, htype⟩ := u32le_isSome (v := d.payload) (a := d.cur) (by omega)
      obtain ⟨len, hlen⟩ := u32le_isSome (v := d.payload) (a := d.cur + 4) (by omega)
      simp only [readRecordHeader, htype, hlen, Option.bind_eq_bind, Option.bind_some, Option.pure_def]
      unfold walkRecord
      split
      · exact ⟨_, rfl⟩
      · rename_i hg2
        rw [guardTwoFails_iff] at hg2
        simp only [Scratch.loadRecordHeader_tlvLen, Scratch.loadRecordHeader_n,
          Scratch.loadRecordHeader_cur, Config.tlvHdrLen] at hg2
        have hnat := toNat_eq_of_toInt_nonneg (w := len) (by omega)
        have hv : (d.loadRecordHeader type len).value =
            some ((d.payload.drop (d.cur + 8)).take len.toNat) :=
          memRead_eq_some (show d.cur + 8 + len.toNat ≤ d.payload.length by omega)
        obtain ⟨d2, hd2, -⟩ := dispatch_total type ((d.payload.drop (d.cur + 8)).take len.toNat)
          (d.loadRecordHeader type len)
        simp only [hv, Scratch.loadRecordHeader_tlvType, hd2, Option.bind_eq_bind, Option.bind_some,
          Option.pure_def]
        exact ⟨_, rfl⟩
  · exact ⟨_, rfl⟩

/-- One step keeps the walk inside its payload, moves the cursor never backwards (R28, R185), and goes on
only past a whole record. -/
theorem tlvStep_progress {nt : Word} {d d' : Scratch} (hf : WalkFits d) (h : tlvStep nt d = some d') :
    WalkFits d' ∧ d'.frame = d.frame ∧ d'.n = d.n ∧ d.cur ≤ d'.cur ∧
      (d'.walking = true → d.walking = true ∧ d.cur + 8 ≤ d'.cur) := by
  obtain ⟨hn, hc⟩ := hf
  obtain ⟨-, rfl⟩ | ⟨-, -, rfl⟩ | ⟨-, hg, type, len, htype, hlen, h⟩ := tlvStep_cases h
  · exact ⟨⟨hn, hc⟩, rfl, rfl, Nat.le_refl _, by simp⟩
  · exact ⟨⟨hn, hc⟩, rfl, rfl, Nat.le_refl _, by simp [Scratch.raiseTruncatedTlvHeader]⟩
  · have hg' : ¬ (d.n : Int) - d.cur < 8 := by
      rw [← guardOneFails_iff]; simp [hg]
    obtain ⟨-, rfl⟩ | ⟨hg2, v, d2, hv, hd2, rfl⟩ := h
    · exact ⟨⟨hn, show d.cur + 8 ≤ d.n by omega⟩, rfl, rfl, show d.cur ≤ d.cur + 8 by omega,
        by simp [Scratch.raiseTlvLengthExceedsBuffer]⟩
    · obtain ⟨d3, hd3, ⟨h1, h2, h3, h4, h5, h6, h7⟩, -⟩ := dispatch_total type v (d.loadRecordHeader type len)
      rw [hd2] at hd3
      cases hd3
      have hlen := (memRead_length hv).2
      simp only [Scratch.loadRecordHeader_frame, Scratch.loadRecordHeader_n, Scratch.loadRecordHeader_cur,
        Scratch.loadRecordHeader_walking, Config.tlvHdrLen] at h1 h2 h3 h7
      refine ⟨⟨?_, ?_⟩, h1, h2, ?_, ?_⟩
      · show d2.n = (d2.frame.drop _).length
        rw [h1, h2]; exact hn
      · show d2.cur + len.toNat ≤ d2.n
        omega
      · show d.cur ≤ d2.cur + len.toNat
        omega
      · intro hw
        refine ⟨by simpa [h7] using hw, ?_⟩
        show d.cur + 8 ≤ d2.cur + len.toNat
        omega

/-- A walk ends within its fuel: it stops, having stayed inside the payload (R132, R182). -/
theorem walkLoop_total {nt : Word} {fuel : Nat} {d : Scratch} (hf : WalkFits d)
    (hfuel : (d.n - d.cur) / 8 + 2 ≤ fuel ∨ d.walking = false) :
    ∃ d', walkLoop nt fuel d = some d' ∧ WalkFits d' ∧ d'.walking = false ∧ d'.frame = d.frame ∧
      d'.n = d.n := by
  induction fuel generalizing d with
  | zero =>
    refine ⟨d, rfl, hf, ?_, rfl, rfl⟩
    exact hfuel.resolve_left (by omega)
  | succ fuel ih =>
    unfold walkLoop
    split
    · rename_i hw
      obtain ⟨d1, h1⟩ := tlvStep_total (nt := nt) hf
      obtain ⟨hf1, hfr, hn, hcur, hgo⟩ := tlvStep_progress hf h1
      have hfuel1 : (d1.n - d1.cur) / 8 + 2 ≤ fuel ∨ d1.walking = false := by
        cases hw1 : d1.walking with
        | false => exact .inr rfl
        | true =>
          left
          have := hgo hw1
          have := hf1.2
          simp only [hw, Bool.true_eq_false, or_false] at hfuel
          omega
      obtain ⟨d2, h2, hf2, hw2, hfr2, hn2⟩ := ih hf1 hfuel1
      refine ⟨d2, ?_, hf2, hw2, hfr2.trans hfr, hn2.trans hn⟩
      simp only [h1, Option.bind_eq_bind, Option.bind_some]
      exact h2
    · rename_i hw
      exact ⟨d, rfl, hf, by simpa using hw, rfl, rfl⟩

/-- The walk is repeated `TLV_STEP` (R171): one run for each turn of the loop, each begun while the walk goes on. -/
theorem walkLoop_repeatExec {s : State} {fuel : Nat} {d d' : Scratch}
    (h : walkLoop s.hdr.numTlvs fuel d = some d') :
    ∃ k ≤ fuel, repeatExec .tlvStep k (s.withDec d) = .next (s.withDec d') ∧
      ∀ j < k, ∃ u, repeatExec .tlvStep j (s.withDec d) = .next u ∧ u.dec.walking = true := by
  induction fuel generalizing d with
  | zero =>
    cases h
    exact ⟨0, Nat.le_refl _, rfl, fun j hj => absurd hj (Nat.not_lt_zero j)⟩
  | succ fuel ih =>
    unfold walkLoop at h
    split at h
    · rename_i hw
      simp only [Option.bind_eq_bind, Option.bind_eq_some_iff] at h
      obtain ⟨d1, h1, h⟩ := h
      have hstep : exec .tlvStep (s.withDec d) = .next (s.withDec d1) := by
        simp only [exec, execTlvStep, State.withDec, h1, Option.map_some, orFault]
      obtain ⟨k, hk, hend, hgo⟩ := ih h
      refine ⟨k + 1, by omega, by simp only [repeatExec, hstep, hend], fun j hj => ?_⟩
      cases j with
      | zero => exact ⟨_, rfl, hw⟩
      | succ j =>
        simp only [repeatExec, hstep]
        exact hgo j (by omega)
    · cases h
      exact ⟨0, Nat.zero_le _, rfl, fun j hj => absurd hj (Nat.not_lt_zero j)⟩

theorem begin_fits (f : List Byte) (h : Header) (d : Scratch) : WalkFits (d.begin f h) :=
  ⟨rfl, Nat.zero_le _⟩

/-- Frame assembly is total on every view that holds a header (R158), and touches only the header
registers and the scratch. -/
theorem frameAssemble_total {f : List Byte} (s : State) (h : 40 ≤ f.length) :
    ∃ hd d, readHeader (f.take 40) = some hd ∧
      walkLoop hd.numTlvs (walkFuel (s.dec.begin f hd)) (s.dec.begin f hd) = some d ∧
      frameAssemble f s = some ((s.latchHeader hd).withDec d) ∧ WalkFits d ∧ d.walking = false ∧
      d.frame = f := by
  obtain ⟨hd, hhd⟩ := readHeader_isSome (v := f.take 40) (by simp only [List.length_take]; omega)
  obtain ⟨d, hd', hfit, hw, hfr, -⟩ := walkLoop_total (nt := hd.numTlvs)
    (fuel := walkFuel (s.dec.begin f hd)) (begin_fits f hd s.dec)
    (.inl (by simp [walkFuel, Config.tlvHdrLen]))
  refine ⟨hd, d, hhd, hd', ?_, hfit, hw, hfr⟩
  simp only [frameAssemble, Config.headerLen, hhd, Option.bind_eq_bind, Option.bind_some, hd',
    Option.pure_def]

end Sys2Proof.Machine
end

