-- ==== Sys2Proof/Laws/Synchronizer.lean ====
section
/-! SUPPORT. The Frame Synchronizer: the magic search, what each step of the evaluation loop can do, that
each keeps the state coherent (R34), and that the loop ends within the bound of R132. -/

namespace Sys2Proof.Machine

/-! ### The magic search -/

theorem isPrefixOf_eq_take (p l : List Byte) : p.isPrefixOf l = true ↔ l.take p.length = p := by
  rw [List.isPrefixOf_iff_prefix, List.prefix_iff_eq_take, eq_comm]

/-- `first_match` is the least offset at which the magic word stands whole (R123, R124). -/
theorem firstMatch_eq_some {l : List Byte} {i : Nat} :
    firstMatch Config.magic l = some i ↔
      (l.drop i).take 8 = Config.magic ∧ ∀ j < i, (l.drop j).take 8 ≠ Config.magic := by
  induction l generalizing i with
  | nil => simp [firstMatch, Config.magic]
  | cons b l ih =>
    unfold firstMatch
    split
    · rename_i hp
      rw [isPrefixOf_eq_take] at hp
      constructor
      · rintro ⟨⟩
        exact ⟨hp, fun j hj => absurd hj (Nat.not_lt_zero j)⟩
      · rintro ⟨-, hmin⟩
        cases i with
        | zero => rfl
        | succ i => exact absurd hp (hmin 0 (Nat.succ_pos i))
    · rename_i hp
      rw [isPrefixOf_eq_take] at hp
      simp only [Option.map_eq_some_iff]
      constructor
      · rintro ⟨i, hi, rfl⟩
        rw [ih] at hi
        refine ⟨hi.1, fun j hj => ?_⟩
        cases j with
        | zero => exact hp
        | succ j => exact hi.2 j (by omega)
      · rintro ⟨hm, hmin⟩
        cases i with
        | zero => exact absurd hm hp
        | succ i => exact ⟨i, ih.2 ⟨hm, fun j hj => hmin (j + 1) (by omega)⟩, rfl⟩

/-- There is no match exactly when the magic word stands at no offset. -/
theorem firstMatch_eq_none {l : List Byte} :
    firstMatch Config.magic l = none ↔ ∀ j, (l.drop j).take 8 ≠ Config.magic := by
  induction l with
  | nil => simp [firstMatch, Config.magic]
  | cons b l ih =>
    unfold firstMatch
    split
    · rename_i hp
      rw [isPrefixOf_eq_take] at hp
      constructor
      · rintro ⟨⟩
      · intro h
        exact absurd hp (h 0)
    · rename_i hp
      rw [isPrefixOf_eq_take] at hp
      rw [Option.map_eq_none_iff, ih]
      constructor
      · intro h j
        cases j with
        | zero => exact hp
        | succ j => exact h j
      · exact fun h j => h (j + 1)

theorem firstMatch_lt {l : List Byte} {i : Nat} (h : firstMatch Config.magic l = some i) :
    i + 8 ≤ l.length := by
  have h := congrArg List.length (firstMatch_eq_some.1 h).1
  simp only [List.length_take, List.length_drop, Config.magic, List.length_cons, List.length_nil] at h
  omega

/-- More bytes behind do not move a match (R124). -/
theorem firstMatch_append {l : List Byte} {i : Nat} (h : firstMatch Config.magic l = some i)
    (c : List Byte) : firstMatch Config.magic (l ++ c) = some i := by
  have hlt := firstMatch_lt h
  obtain ⟨hm, hmin⟩ := firstMatch_eq_some.1 h
  have key : ∀ j ≤ i, ((l ++ c).drop j).take 8 = (l.drop j).take 8 := by
    intro j hj
    rw [List.drop_append_of_le_length (by omega), List.take_append_of_le_length]
    simp only [List.length_drop]
    omega
  rw [firstMatch_eq_some, key i (Nat.le_refl i)]
  exact ⟨hm, fun j hj => by rw [key j (by omega)]; exact hmin j hj⟩

/-! ### What a step can do -/

theorem headerOk_iff (h : Header) :
    headerOk h = true ↔ 40 < h.totalPacketLen.toInt ∧ h.totalPacketLen.toInt < 10000 := by
  unfold headerOk
  rw [Bool.and_eq_true]
  exact and_congr decide_eq_true_iff decide_eq_true_iff

/-- Everything SEEK can do (R123, R125, R126). -/
theorem seekStep_cases (s : State) :
    (∃ i, firstMatch Config.magic s.buf = some i ∧ seekStep s = s.startFrameAt i) ∨
    (firstMatch Config.magic s.buf = none ∧ s.params.syncAbandonThreshold < s.buf.length ∧
      seekStep s = s.raiseSyncAbandon) ∨
    (firstMatch Config.magic s.buf = none ∧ s.buf.length ≤ s.params.syncAbandonThreshold ∧
      seekStep s = s.suspend) := by
  unfold seekStep
  split
  · rename_i i hi
    exact .inl ⟨i, hi, rfl⟩
  · rename_i hn
    split
    · rename_i hlt
      exact .inr (.inl ⟨hn, hlt, rfl⟩)
    · rename_i hlt
      exact .inr (.inr ⟨hn, Nat.le_of_not_lt hlt, rfl⟩)

/-- Everything HDR can do (R127, R128). -/
theorem hdrStep_cases (s : State) :
    (s.buf.length < 40 ∧ hdrStep s = some s.suspend) ∨
    (40 ≤ s.buf.length ∧ ∃ h, readHeader (s.buf.take 40) = some h ∧
      ((headerOk h = true ∧
          hdrStep s = some (((s.latchHeader h).setHdrValid true).continueIn .readingPayload)) ∨
        (headerOk h = false ∧ hdrStep s = some (s.latchHeader h).raiseBadHeader))) := by
  by_cases hlen : s.buf.length < 40
  · exact .inl ⟨hlen, by simp [hdrStep, Config.headerLen, hlen]⟩
  · obtain ⟨h, hh⟩ := readHeader_isSome (v := s.buf.take 40) (by simp only [List.length_take]; omega)
    refine .inr ⟨by omega, h, hh, ?_⟩
    cases hok : headerOk h
    · exact .inr ⟨rfl, by simp [hdrStep, Config.headerLen, hlen, hh, hok]⟩
    · exact .inl ⟨rfl, by simp [hdrStep, Config.headerLen, hlen, hh, hok]⟩

/-- Everything PAYLOAD can do in a state with an accepted header (R129, R130). -/
theorem payloadStep_cases (s : State) (hL : 40 ≤ s.hdr.totalPacketLen.toInt) :
    ((s.buf.length : Int) < s.hdr.totalPacketLen.toInt ∧ payloadStep s = some s.suspend) ∨
    (s.hdr.totalPacketLen.toInt ≤ s.buf.length ∧ ∃ hd d,
      frameAssemble (s.buf.take s.hdr.totalPacketLen.toInt.toNat)
        (s.dropBytes s.hdr.totalPacketLen.toInt.toNat) =
          some (((s.dropBytes s.hdr.totalPacketLen.toInt.toNat).latchHeader hd).withDec d) ∧
      payloadStep s = some ((((((s.dropBytes s.hdr.totalPacketLen.toInt.toNat).latchHeader hd).withDec
        d).emitFrame).setHdrValid false).continueIn .seekingSync)) := by
  by_cases hlen : (s.buf.length : Int) < s.hdr.totalPacketLen.toInt
  · exact .inl ⟨hlen, by simp [payloadStep, hlen]⟩
  · obtain ⟨hd, d, -, -, hfa, -⟩ := frameAssemble_total
      (f := s.buf.take s.hdr.totalPacketLen.toInt.toNat) (s.dropBytes s.hdr.totalPacketLen.toInt.toNat)
      (by simp only [List.length_take]; omega)
    exact .inr ⟨by omega, hd, d, hfa, by simp [payloadStep, hlen, hfa]⟩

@[simp] theorem State.emitFrame_st (s : State) : s.emitFrame.st = s.st := rfl
@[simp] theorem State.emitFrame_buf (s : State) : s.emitFrame.buf = s.buf := rfl
@[simp] theorem State.emitFrame_params (s : State) : s.emitFrame.params = s.params := rfl
@[simp] theorem State.emitFrame_inputs (s : State) : s.emitFrame.inputs = s.inputs := rfl
@[simp] theorem State.emitFrame_chunkOpen (s : State) : s.emitFrame.chunkOpen = s.chunkOpen := rfl
@[simp] theorem State.emitFrame_events (s : State) :
    s.emitFrame.events = s.events ++ [.frame s.dec.pf] := rfl

/-- What every step of the evaluation loop leaves alone: parameters, pending inputs, the port's chunk; it
only adds to the events, and never lengthens the buffer. -/
def LoopFrame (s s' : State) : Prop :=
  s'.params = s.params ∧ s'.inputs = s.inputs ∧ s'.chunkOpen = s.chunkOpen ∧
    (∃ es, s'.events = s.events ++ es) ∧ s'.buf.length ≤ s.buf.length

theorem LoopFrame.trans {a b c : State} (h : LoopFrame a b) (h' : LoopFrame b c) : LoopFrame a c := by
  obtain ⟨h1, h2, h3, ⟨es, h4⟩, h5⟩ := h
  obtain ⟨g1, g2, g3, ⟨fs, g4⟩, g5⟩ := h'
  exact ⟨g1.trans h1, g2.trans h2, g3.trans h3, ⟨es ++ fs, by rw [g4, h4, List.append_assoc]⟩,
    Nat.le_trans g5 h5⟩

theorem LoopFrame.refl (s : State) : LoopFrame s s := ⟨rfl, rfl, rfl, ⟨[], by simp⟩, Nat.le_refl _⟩

/-- The steps an evaluation can still take from a coherent state (R132). -/
def stepsLeft (s : State) : Nat :=
  3 * (s.buf.length / 40) + match s.st with
    | .seekingSync => 3
    | .readingHeader => 2
    | .readingPayload => 1

/-- Each step of the loop is defined in a coherent state, keeps it coherent, settles it when it suspends,
and otherwise brings the end nearer (R34, R121, R132, R136). -/
theorem loopStep_spec {s : State} (hc : Coherent s) :
    ∃ s', loopStep s = some s' ∧ Coherent s' ∧ LoopFrame s s' ∧
      ((s'.evaluating = false ∧ Settled s') ∨ (s'.evaluating = true ∧ stepsLeft s' < stepsLeft s)) := by
  unfold loopStep
  cases hst : s.st with
  | seekingSync =>
    simp only [Coherent, hst] at hc
    refine ⟨seekStep s, rfl, ?_⟩
    obtain ⟨i, hi, he⟩ | ⟨hn, hlt, he⟩ | ⟨hn, hle, he⟩ := seekStep_cases s
    · rw [he]
      have hlt := firstMatch_lt hi
      refine ⟨⟨hc, (firstMatch_eq_some.1 hi).1⟩, ⟨rfl, rfl, rfl, ⟨[], by simp [State.startFrameAt]⟩, ?_⟩,
        .inr ⟨rfl, ?_⟩⟩
      · simp only [State.startFrameAt, State.continueIn_buf, State.dropBytes_buf, List.length_drop]
        omega
      · simp only [stepsLeft, State.startFrameAt, State.continueIn_buf, State.dropBytes_buf,
          List.length_drop, State.continueIn_st, hst]
        omega
    · rw [he]
      refine ⟨?_, ⟨rfl, rfl, rfl, ⟨_, rfl⟩, Nat.zero_le _⟩, .inl ⟨rfl, ?_⟩⟩
      · simpa [Coherent, State.raiseSyncAbandon, hst] using hc
      · simp [Settled, State.raiseSyncAbandon, hst, firstMatch, Config.magic]
    · rw [he]
      refine ⟨?_, ⟨rfl, rfl, rfl, ⟨[], by simp⟩, Nat.le_refl _⟩, .inl ⟨rfl, ?_⟩⟩
      · simpa [Coherent, hst] using hc
      · simpa [Settled, hst] using ⟨hn, hle⟩
  | readingHeader =>
    simp only [Coherent, hst] at hc
    obtain ⟨hlen, he⟩ | ⟨hlen, h, hh, hcase⟩ := hdrStep_cases s
    · refine ⟨_, he, ?_, ⟨rfl, rfl, rfl, ⟨[], by simp⟩, Nat.le_refl _⟩, .inl ⟨rfl, ?_⟩⟩
      · simpa [Coherent, hst] using hc
      · simp only [Settled, State.suspend_st, hst, State.suspend_buf]
        omega
    · obtain ⟨hok, he⟩ | ⟨hbad, he⟩ := hcase
      · refine ⟨_, he, ?_, ⟨rfl, rfl, rfl, ⟨[], by simp⟩, Nat.le_refl _⟩, .inr ⟨rfl, ?_⟩⟩
        · obtain ⟨h1, h2⟩ := (headerOk_iff h).1 hok
          exact ⟨rfl, hc.2, hlen, h1, h2, hh⟩
        · simp [stepsLeft, hst]
      · refine ⟨_, he, rfl, ⟨rfl, rfl, rfl, ⟨_, rfl⟩, Nat.zero_le _⟩, .inr ⟨rfl, ?_⟩⟩
        have hs : stepsLeft (s.latchHeader h).raiseBadHeader = 3 := by
          simp [stepsLeft, State.raiseBadHeader]
        rw [hs]
        simp only [stepsLeft, hst]
        omega
  | readingPayload =>
    simp only [Coherent, hst] at hc
    obtain ⟨hv, hm, hlen, h1, h2, hh⟩ := hc
    obtain ⟨hlt, he⟩ | ⟨hle, hd, d, -, he⟩ := payloadStep_cases s (by omega)
    · refine ⟨_, he, ?_, ⟨rfl, rfl, rfl, ⟨[], by simp⟩, Nat.le_refl _⟩, .inl ⟨rfl, ?_⟩⟩
      · simp only [Coherent, State.suspend_st, hst]
        exact ⟨hv, hm, hlen, h1, h2, hh⟩
      · simp only [Settled, State.suspend_st, hst]
        exact hlt
    · refine ⟨_, he, rfl, ⟨rfl, rfl, rfl, ⟨_, rfl⟩, ?_⟩, .inr ⟨rfl, ?_⟩⟩
      · simp only [State.continueIn_buf, State.setHdrValid_buf, State.emitFrame_buf, State.withDec_buf,
          State.latchHeader_buf, State.dropBytes_buf, List.length_drop]
        omega
      · simp only [stepsLeft, State.continueIn_buf, State.setHdrValid_buf, State.emitFrame_buf,
          State.withDec_buf, State.latchHeader_buf, State.dropBytes_buf, List.length_drop,
          State.continueIn_st, hst]
        omega

/-- The loop, with fuel for the steps it can take, suspends in a settled state (R121, R132). -/
theorem evalLoop_spec {fuel : Nat} {s : State} (hc : Coherent s) (he : s.evaluating = true)
    (hf : stepsLeft s ≤ fuel) :
    ∃ t, evalLoop fuel s = some t ∧ Coherent t ∧ Settled t ∧ t.evaluating = false ∧ LoopFrame s t := by
  induction fuel generalizing s with
  | zero =>
    exfalso
    unfold stepsLeft at hf
    cases hst : s.st <;> simp [hst] at hf
  | succ fuel ih =>
    obtain ⟨s', h', hc', hfr, hend | ⟨hgo, hlt⟩⟩ := loopStep_spec hc
    · refine ⟨s', ?_, hc', hend.2, hend.1, hfr⟩
      simp only [evalLoop, he, if_true, h', Option.bind_eq_bind, Option.bind_some]
      cases fuel <;> simp [evalLoop, hend.1]
    · obtain ⟨t, ht, hct, hst, het, hft⟩ := ih hc' hgo (by omega)
      refine ⟨t, ?_, hct, hst, het, hfr.trans hft⟩
      simpa [evalLoop, he, h'] using ht

/-- Fuel beyond the steps the loop can take changes nothing. -/
theorem evalLoop_fuel {f g : Nat} {s : State} (hc : Coherent s) (hf : stepsLeft s ≤ f)
    (hg : stepsLeft s ≤ g) : evalLoop f s = evalLoop g s := by
  induction f generalizing g s with
  | zero =>
    exfalso
    unfold stepsLeft at hf
    cases hst : s.st <;> simp [hst] at hf
  | succ f ih =>
    cases g with
    | zero =>
      exfalso
      unfold stepsLeft at hg
      cases hst : s.st <;> simp [hst] at hg
    | succ g =>
      simp only [evalLoop]
      split
      · obtain ⟨s', h', hc', -, hend | ⟨-, hlt⟩⟩ := loopStep_spec hc
        · simp only [h', Option.bind_eq_bind, Option.bind_some]
          cases f <;> cases g <;> simp [evalLoop, hend.1]
        · simp only [h', Option.bind_eq_bind, Option.bind_some]
          exact ih hc' (by omega) (by omega)
      · rfl

theorem coherent_append {s : State} (hc : Coherent s) (c : List Byte) : Coherent (s.append c) := by
  unfold Coherent at *
  cases hst : s.st with
  | seekingSync => simpa [hst] using hc
  | readingHeader =>
    simp only [hst, State.append_st, State.append_buf, State.append_hdrValid] at *
    have hl : 8 ≤ s.buf.length := by
      have := congrArg List.length hc.2
      simp only [List.length_take, Config.magic, List.length_cons, List.length_nil] at this
      omega
    exact ⟨hc.1, by rw [List.take_append_of_le_length hl]; exact hc.2⟩
  | readingPayload =>
    simp only [hst, State.append_st, State.append_buf, State.append_hdrValid, State.append_hdr] at *
    obtain ⟨hv, hm, hlen, h1, h2, hh⟩ := hc
    refine ⟨hv, ?_, ?_, h1, h2, ?_⟩
    · rw [List.take_append_of_le_length (by omega)]; exact hm
    · simp only [List.length_append]; omega
    · rw [List.take_append_of_le_length (by omega)]; exact hh

theorem coherent_continueIn {s : State} (hc : Coherent s) : Coherent (s.continueIn s.st) := hc

theorem stepsLeft_le_evalFuel (s : State) : stepsLeft (s.continueIn s.st) ≤ evalFuel s := by
  unfold stepsLeft evalFuel
  simp only [State.continueIn_buf, State.continueIn_st]
  cases s.st <;> simp

/-- An evaluation of a coherent state ends settled (R121, R132, R136). -/
theorem evaluate_spec {s : State} (hc : Coherent s) :
    ∃ t, evaluate s = some t ∧ Coherent t ∧ Settled t ∧ t.evaluating = false ∧ LoopFrame s t := by
  obtain ⟨t, ht, h1, h2, h3, h4⟩ :=
    evalLoop_spec (coherent_continueIn hc) rfl (stepsLeft_le_evalFuel s)
  exact ⟨t, ht, h1, h2, h3, h4⟩

/-- PUSH within its preconditions (R120). -/
theorem execPush_eq {s : State} {c : List Byte} (he : s.evaluating = false) (ho : s.chunkOpen = false)
    (hf : s.fits c = true) : execPush c s = orFault (evaluate (s.append c)) := by
  simp [execPush, he, ho, hf]

end Sys2Proof.Machine
end

