-- ==== Sys2Proof/Laws/Step.lean ====
section
/-! SUPPORT. The step and the port: what each can do, said once. -/

namespace Sys2Proof.Machine

/-- The 2-bit state selects the loop's step (R122). -/
theorem runSelected_stCode (s : State) : runSelected (.stCode s.st.code) s = orFault (loopStep s) := by
  cases h : s.st <;>
    simp [runSelected, SyncState.code, decode, decodeState, loopStep, h, exec, execSeek, execHdr,
      execPayload, orFault]

/-- Inside an evaluation a step is a step of the loop. -/
theorem step_evaluating {s : State} (h : s.evaluating = true) : step s = orFault (loopStep s) := by
  simp [step, h, runSelected_stCode]

theorem step_select {s : State} {sel : Selector} {rest : List Input} (h : s.evaluating = false)
    (hin : s.inputs = .select sel :: rest) : step s = runSelected sel { s with inputs := rest } := by
  simp [step, h, hin]

theorem step_byte {s : State} {b : Byte} {last : Bool} {rest : List Input} (h : s.evaluating = false)
    (hin : s.inputs = .byte b last :: rest) : step s = offerByte b last rest s := by
  simp [step, h, hin]

theorem step_outReady {s : State} {rest : List Input} (h : s.evaluating = false)
    (hin : s.inputs = .outReady :: rest) : step s = .next { s.takeBeat with inputs := rest } := by
  simp [step, h, hin]

/-- PUSH outside an evaluation and an unfinished chunk: run when the chunk fits, else refused. -/
theorem execPush_cases {s : State} (c : List Byte) (he : s.evaluating = false) (ho : s.chunkOpen = false) :
    (s.fits c = true ∧ execPush c s = orFault (evaluate (s.append c))) ∨
      (s.fits c = false ∧ execPush c s = .refused .pushExceedsBufCap) := by
  cases hf : s.fits c
  · exact .inr ⟨rfl, by simp [execPush, he, ho, hf]⟩
  · exact .inl ⟨rfl, execPush_eq he ho hf⟩

/-- A byte offered on the port: stalled, kept as part of its chunk, or completing it (R32). -/
theorem offerByte_cases (b : Byte) (last : Bool) (rest : List Input) (s : State) :
    (s.inReady = false ∧ offerByte b last rest s = .next s) ∨
    (s.inReady = true ∧ last = false ∧
      offerByte b last rest s = .next { s with inputs := rest, buf := s.buf ++ [b], chunkOpen := true }) ∨
    (s.inReady = true ∧ last = true ∧ offerByte b last rest s =
      orFault (evaluate { s with inputs := rest, buf := s.buf ++ [b], chunkOpen := false })) := by
  cases hr : s.inReady
  · exact .inl ⟨rfl, by simp [offerByte, hr]⟩
  · cases last
    · exact .inr (.inl ⟨rfl, rfl, by simp [offerByte, hr, acceptByte, orFault, State.append]⟩)
    · exact .inr (.inr ⟨rfl, rfl, by simp [offerByte, hr, acceptByte, State.append]⟩)

theorem inReady_iff (s : State) :
    s.inReady = true ↔ s.evaluating = false ∧
      ∀ cap, s.params.bufCap = some cap → s.buf.length + 1 ≤ cap := by
  simp [State.inReady, fits_iff]

theorem diagnostics_append (a b : List Event) : diagnostics (a ++ b) = diagnostics a ++ diagnostics b := by
  induction a with
  | nil => rfl
  | cons e a ih => cases e <;> simp [diagnostics, ih]

theorem frames_append (a b : List Event) : frames (a ++ b) = frames a ++ frames b := by
  induction a with
  | nil => rfl
  | cons e a ih => cases e <;> simp [frames, ih]

end Sys2Proof.Machine
end

