-- ==== Sys2Proof/Tests/Slice0.lean ====
section
/-! SUPPORT. The model's own tests: ill-formed terms, decoding of words written out from the spec's layouts, one
step of each operation with the expected result taken from spec/95_test_vectors.md (the vector's name is in the
docstring), and a witness for the hypotheses of each obligation. -/

namespace Sys2Proof.Tests

open Sys2Proof Sys2Proof.Machine

/-! ### Helpers -/

/-- A view of the next state, if there is one. -/
def after {α : Type} (o : Host.Outcome State Fault Refusal) (f : State → α) : Option α :=
  match o with
  | .next t => some (f t)
  | .fault _ => none
  | .refused _ => none

/-- `HDR(len, frame, nobj, ntlv)` of spec/95_test_vectors.md, with its default fields. -/
def hd (len frame nobj ntlv : Word) : Header := ⟨0x03060000, len, 0x000A6843, frame, 0, nobj, ntlv, 0⟩

/-- The reset state with bytes buffered. -/
def seeking (b : List Byte) : State := { State.reset with buf := b }

/-- Awaiting a header. -/
def awaitingHeader (b : List Byte) : State := { State.reset with st := .readingHeader, buf := b }

/-- Awaiting a payload: the header `h` latched, `extra` bytes of payload there. -/
def awaitingPayload (h : Header) (extra : List Byte) : State :=
  { State.reset with st := .readingPayload, buf := headerBytes h ++ extra, hdr := h, hdrValid := true }

/-- A walk at the beginning of the payload `p`, under a header that promises `ntlv` records. -/
def walking (ntlv : Word) (p : List Byte) : State :=
  { State.reset with
    hdr := hd 41 1 0 ntlv
    dec := { Scratch.atReset with
      frame := headerBytes (hd 41 1 0 ntlv) ++ p, n := p.length, walking := true } }

/-- The reset state with a capacity. -/
def capped (cap : Nat) (b : List Byte) : State := { State.reset with params := ⟨4096, some cap⟩, buf := b }

/-- `n` bytes of zero. -/
def zeros (n : Nat) : List Byte := List.replicate n 0

theorem length_zeros (n : Nat) : (zeros n).length = n := List.length_replicate

/-- `U1` of spec/95_test_vectors.md: units 0.01, 0.1, 0.5, 0.5, counts 0. -/
def u1 : List Byte :=
  [0x0A, 0xD7, 0x23, 0x3C, 0xCD, 0xCC, 0xCC, 0x3D, 0x00, 0x00, 0x00, 0x3F, 0x00, 0x00, 0x00, 0x3F, 0, 0, 0, 0]

/-- `R1`: the compact point record of example S1. -/
def r1 : List Byte := [0x64, 0x00, 0xC8, 0x00, 0xCE, 0xFF, 0x0A, 0x00, 0x28, 0x0A]

/-- The fields of `R1`: 100, 200, -50, 10, 40, 10. -/
def raw1 : RawPoint := ⟨100, 200, 0xFFCE, 10, 40, 10⟩

/-- The units of `U1`. -/
def units1 : Units := ⟨0x3C23D70A, 0x3DCCCCCD, 0x3F000000, 0x3F000000⟩

/-- `S1pt`. -/
def point1 : RadarPoint := ⟨0x3F800000, 0x40000000, 0xBF000000, 0x3F800000, 0x41A00000, 0x40A00000⟩

/-- The record value of vector D14. -/
def d14 : List Byte :=
  [0xFF, 0xFF, 0xFF, 0xFF, 0x00, 0x00, 0x00, 0x80, 0xFF, 0xFF, 0xFF, 0xFF, 0xFF, 0xFF, 0xFF, 0xFF,
    0x00, 0x80, 0xFF, 0x7F, 0xFF, 0xFF, 0x00, 0x00]

/-- The fields of vector D14: -1, -2147483648, -32768, 32767, -1, 0. -/
def stats14 : Stats := ⟨0xFFFFFFFF, 0x80000000, 0x8000, 0x7FFF, 0xFFFF, 0⟩

/-- The header bytes of spec/95_test_vectors.md section 2.2. -/
def header22 : List Byte :=
  [0x02, 0x01, 0x04, 0x03, 0x06, 0x05, 0x08, 0x07, 0x04, 0x03, 0x02, 0x01, 0x30, 0x00, 0x00, 0x00,
    0xFE, 0xFF, 0xFF, 0xFF, 0x07, 0x00, 0x00, 0x00, 0x00, 0x00, 0x00, 0x80, 0x02, 0x00, 0x00, 0x00,
    0x03, 0x00, 0x00, 0x00, 0x05, 0x00, 0x00, 0x00]

/-! ### WellFormed refuses -/

theorem encodableLength_zeros (n : Nat) (h : 2 ^ 31 ≤ n) : encodableLength (zeros n) = false := by
  simp [encodableLength, zeros]; omega

/-- A frame view of 40 bytes, and one of 10000, is not a frame (R158). -/
theorem test_wf_frameAssemble : (Instr.frameAssemble (zeros 40)).wf = false ∧
    (Instr.frameAssemble (zeros 41)).wf = true ∧ (Instr.frameAssemble (zeros 9999)).wf = true ∧
    (Instr.frameAssemble (zeros 10000)).wf = false := by
  simp only [Instr.wf, zeros, List.length_replicate]
  decide

/-- A value of 2^31 bytes has no length word (R84, R176). -/
theorem test_wf_length :
    (Instr.decPoints (zeros (2 ^ 31))).wf = false ∧ (Instr.decRange (zeros (2 ^ 31))).wf = false ∧
    (Instr.decStats (zeros (2 ^ 31))).wf = false ∧ (Instr.decSkip 999 (zeros (2 ^ 31))).wf = false ∧
    (Instr.layoutTlvRecord 0 (zeros (2 ^ 31))).wf = false := by
  have h := encodableLength_zeros (2 ^ 31) (Nat.le_refl _)
  simp only [Instr.wf, h, Bool.and_false, and_self]

/-- DEC_SKIP is not the operation of a registered type (R85, R240). -/
theorem test_wf_decSkip : (Instr.decSkip 301 []).wf = false ∧ (Instr.decSkip 302 []).wf = false ∧
    (Instr.decSkip 306 []).wf = false ∧ (Instr.decSkip 999 []).wf = true := by decide

/-- A count of dropped bytes above 32 bits does not fit `diag_info` (R256). -/
theorem test_wf_emitDiag : (Instr.emitDiag (.syncAbandon (2 ^ 32))).wf = false ∧
    (Instr.emitDiag (.badHeader 0 (2 ^ 32))).wf = false ∧
    (Instr.emitDiag (.syncAbandon (2 ^ 32 - 1))).wf = true := by decide

/-! ### Decoding, from words written out -/

theorem test_decode_calls : decode .rst = .ok .reset ∧ decode (.chunk [0xAA]) = .ok (.push [0xAA]) ∧
    decode .walkStep = .ok .tlvStep ∧ decode .frameDone = .ok .emitFrame := by
  exact ⟨rfl, rfl, rfl, rfl⟩

/-- R122, R94: the 2-bit state; 3 is no state. -/
theorem test_decode_state : decode (.stCode 0b00) = .ok .seek ∧ decode (.stCode 0b01) = .ok .hdr ∧
    decode (.stCode 0b10) = .ok .payload ∧ decode (.stCode 0b11) = .error .noSuchState := by
  exact ⟨rfl, rfl, rfl, rfl⟩

/-- R83: the eight bytes in stream order; one byte changed is no frame start. -/
theorem test_decode_frame :
    decode (.stream [0x02, 0x01, 0x04, 0x03, 0x06, 0x05, 0x08, 0x07]) = .ok .frame ∧
    decode (.stream [0x02, 0x01, 0x04, 0x03, 0x06, 0x05, 0x08, 0x08]) = .error .notMagic := by
  exact ⟨rfl, rfl⟩

/-- R158: 41 and 9999 bytes are a frame view, 40 and 10000 are not. -/
theorem test_decode_frameView :
    decode (.frameView (zeros 41)) = .ok (.frameAssemble (zeros 41)) ∧
    decode (.frameView (zeros 9999)) = .ok (.frameAssemble (zeros 9999)) ∧
    decode (.frameView (zeros 40)) = .error .frameViewLength ∧
    decode (.frameView (zeros 10000)) = .error .frameViewLength := by
  simp only [decode, decodeFrameView, zeros, List.length_replicate]
  exact ⟨if_pos (by decide), if_pos (by decide), if_neg (by decide), if_neg (by decide)⟩

/-- R84, R85: `2D 01 00 00`, a length word, the value. -/
theorem test_decode_points : decode (.tlv ([0x2D, 0x01, 0x00, 0x00, 0x1E, 0x00, 0x00, 0x00] ++ (u1 ++ r1))) =
    .ok (.decPoints (u1 ++ r1)) := rfl

/-- `2E 01 00 00` (vector D10's record). -/
theorem test_decode_range :
    decode (.tlv [0x2E, 0x01, 0x00, 0x00, 0x07, 0x00, 0x00, 0x00, 0xFF, 0xFF, 0xFF, 0xFF, 0x01, 0x02, 0x03]) =
    .ok (.decRange [0xFF, 0xFF, 0xFF, 0xFF, 0x01, 0x02, 0x03]) := rfl

/-- `32 01 00 00` (vector D14's record). -/
theorem test_decode_stats :
    decode (.tlv ([0x32, 0x01, 0x00, 0x00, 0x18, 0x00, 0x00, 0x00] ++ d14)) = .ok (.decStats d14) := rfl

/-- Any other type is the default row: 999, and 301 with bit 31 set (vector W15). -/
theorem test_decode_skip :
    decode (.tlv [0xE7, 0x03, 0x00, 0x00, 0x03, 0x00, 0x00, 0x00, 0x01, 0x02, 0x03]) =
      .ok (.decSkip 999 [0x01, 0x02, 0x03]) ∧
    decode (.tlv [0x2D, 0x01, 0x00, 0x80, 0x00, 0x00, 0x00, 0x00]) = .ok (.decSkip 0x8000012D []) :=
  ⟨rfl, rfl⟩

/-- A record that is cut short, that declares more than it has (vectors W8, W6), or that has bytes after it. -/
theorem test_decode_record_refused :
    decode (.tlv (zeros 7)) = .error .truncatedTlvHeader ∧
    decode (.tlv [0x2E, 0x01, 0x00, 0x00, 0x02, 0x00, 0x00, 0x00, 0x07]) = .error .tlvLengthExceedsBuffer ∧
    decode (.tlv [0x2E, 0x01, 0x00, 0x00, 0xFF, 0xFF, 0xFF, 0xFF, 0x01]) = .error .tlvLengthExceedsBuffer ∧
    decode (.tlv [0x2E, 0x01, 0x00, 0x00, 0x00, 0x00, 0x00, 0x00, 0x07]) = .error .trailingBytes :=
  ⟨rfl, rfl, rfl, rfl⟩

/-- R87: the bytes of `R1`, as the operation and as the layout; nine bytes and eleven are refused. -/
theorem test_decode_point : decode (.pointRecord r1) = .ok (.pointDecompress raw1) ∧
    decode (.layout .compactPoint r1) = .ok (.layoutCompactPoint raw1) ∧
    decode (.pointRecord (r1.take 9)) = .error .layoutTooShort ∧
    decode (.pointRecord (r1 ++ [0])) = .error .trailingBytes := ⟨rfl, rfl, rfl, rfl⟩

/-- R256: `DIAG_SYNC_ABANDON(4097)`, `DIAG_BAD_HEADER(40, 88)`, and an abandon with bits above its count. -/
theorem test_decode_diag : decode (.diag 0 0x0000000000001001) = .ok (.emitDiag (.syncAbandon 4097)) ∧
    decode (.diag 1 0x0000002800000058) = .ok (.emitDiag (.badHeader 40 88)) ∧
    decode (.diag 0 0x0000000100000000) = .error .diagInfoNotZero := ⟨rfl, rfl, rfl⟩

/-- The header of spec/95_test_vectors.md section 2.2; without the magic word it is none. -/
theorem test_decode_header : decode (.layout .frameHeader header22) = .ok (.layoutFrameHeader
      ⟨0x01020304, 48, 0xFFFFFFFE, 7, 0x80000000, 2, 3, 5⟩) ∧
    decode (.layout .frameHeader (0 :: header22.drop 1)) = .error .notMagic ∧
    decode (.layout .frameHeader (header22.take 39)) = .error .layoutTooShort := ⟨rfl, rfl, rfl⟩

/-- R84 as a layout. -/
theorem test_decode_layout_record : decode (.layout .tlvRecord [0xE7, 0x03, 0, 0, 0x02, 0, 0, 0, 0x55, 0x66]) =
    .ok (.layoutTlvRecord 999 [0x55, 0x66]) := rfl

/-- R86: the units of `U1`, with the counts bytes of vector D6. -/
theorem test_decode_units : decode (.layout .pointUnitHeader (u1.take 16 ++ [0x09, 0x00, 0x07, 0x00])) =
    .ok (.layoutPointUnitHeader units1 0x00070009) := rfl

/-- R88: a bin of -2. -/
theorem test_decode_bin : decode (.layout .rangeBin [0xFE, 0xFF, 0xFF, 0xFF]) =
    .ok (.layoutRangeBin 0xFFFFFFFE) := rfl

/-- R89: vector D14's bytes, and two bytes from offset 24 on. -/
theorem test_decode_layout_stats : decode (.layout .stats (d14 ++ [0xEE, 0xEE])) =
    .ok (.layoutStats stats14 0xFFFFFFFFFFFFFFFF [0xEE, 0xEE]) := rfl

/-- R95: what the encoder writes for a header is the bytes of section 2.2. -/
theorem test_encode_header : encode (.layoutFrameHeader
    ⟨0x01020304, 48, 0xFFFFFFFE, 7, 0x80000000, 2, 3, 5⟩) = .layout .frameHeader header22 := by decide

/-- A word placed for the fetch is run by the next step, from reset: PAYLOAD waits, a TLV record is decoded, the magic
word starts a frame. -/
theorem test_fetch : after (step (State.reset.withFetchWord 8 2)) (fun t => (t.st, t.evaluating)) =
      some (.readingPayload, false) ∧
    after (step (State.reset.withFetchWord 32 0x12E)) (fun t => t.dec.pf.rangeProfile) = some (some []) ∧
    after (step (State.reset.withFetchWord 64 0x0708050603040102)) (fun t => t.st) = some .readingHeader := by
  decide


/-! ### Operand reads and arithmetic -/

/-- Vectors M1, M3 to M7, M10, M14, M16, M20. -/
theorem test_reads : u8 [0xFF] 0 = some 255 ∧ (u16le [0xCE, 0xFF] 0).map BitVec.toInt = some (-50) ∧
    (u16le [0x00, 0x80] 0).map BitVec.toInt = some (-32768) ∧ (u16le [0xCE, 0xFF] 0).map BitVec.toNat = some 65486 ∧
    (u32le [0xFF, 0xFF, 0xFF, 0xFF] 0).map BitVec.toInt = some (-1) ∧ u32le [0x0F, 0x27, 0x00, 0x00] 0 = some 9999 ∧
    u32le [0x0A, 0xD7, 0x23, 0x3C] 0 = some 0x3C23D70A ∧ u32le [0xAA, 0x2E, 0x01, 0x00, 0x00] 1 = some 302 := by
  decide

/-- R51: no value past the end of a view. -/
theorem test_read_past_end : u32le [1, 2, 3] 0 = none ∧ u8 [] 0 = none ∧ memRead [1, 2, 3] 1 3 = none := by decide

/-- Section 2.6: `i_to_f32`. -/
theorem test_iToF32 : [0, 1, -1, 100, -50, 255, 32767, -32768].map iToF32 =
    [0x00000000, 0x3F800000, 0xBF800000, 0x42C80000, 0xC2480000, 0x437F0000, 0x46FFFE00, 0xC7000000] := by
  decide

/-- Vectors A30, A32 to A37: rounding to nearest, ties to even. -/
theorem test_rounding : [(25, 0x3F800001), (3, 0x3F800001), (3, 0x3F800003), (-3, 0x3F800003), (5, 0x3F800001),
      (5, 0x3F800002), (5, 0x3F800006)].map (fun (r, u) => fmul32 0 (iToF32 r) u) =
    [0x41C80002, 0x40400002, 0x40400004, 0xC0400004, 0x40A00001, 0x40A00002, 0x40A00008] := by
  decide

/-- Vectors A15, A16, A18, A19, A22, A23, A24, A7, A9, A11: overflow, subnormals, zeros, infinities. -/
theorem test_special : [(2, 0x7F7FFFFF), (-2, 0x7F7FFFFF), (1, 0x7F7FFFFF), (1, 0x00000001), (-32768, 0x00000001),
      (2, 0x00400000), (3, 0x007FFFFF), (0, 0xBC23D70A), (-5, 0x00000000), (-1, 0x7F800000)].map
        (fun (r, u) => fmul32 0 (iToF32 r) u) =
    [0x7F800000, 0xFF800000, 0x7F7FFFFF, 0x00000001, 0x80008000, 0x00800000, 0x013FFFFE, 0x80000000, 0x80000000,
      0xFF800000] := by
  decide

/-- Vectors A13, A14: the result is the free NaN, whatever it is. -/
theorem test_nan (nan : Word) : fmul32 nan (iToF32 0) 0x7F800000 = nan ∧ fmul32 nan (iToF32 1) 0x7FC00000 = nan :=
  ⟨rfl, rfl⟩

/-! ### One step of each operation -/

/-- Vector Y19. -/
theorem test_reset : after (exec .reset (awaitingPayload (hd 48 7 0 1) (zeros 5)))
    (fun t => (t.st, t.buf, t.hdrValid, t.events)) = some (.seekingSync, [], false, []) := by decide

/-- Vector Y13: the frame is emitted, the surplus kept. -/
theorem test_push_surplus : after (exec (.push [0x00, 0x02, 0x01])
      (awaitingPayload (hd 48 7 0 1) [0xE7, 0x03, 0, 0, 0, 0, 0])) (fun t => (t.st, t.buf, t.events)) =
    some (.seekingSync, [0x02, 0x01], [.frame ⟨7, 0, [], none, none, .none⟩]) := by decide

/-- Vector Y9: the first occurrence wins, and the second magic word is read as a length. -/
theorem test_push_bad_header : after (exec (.push (Config.magic ++ Config.magic ++ zeros 24)) State.reset)
      (fun t => (t.st, t.buf, t.events)) =
    some (.seekingSync, [], [.diag (.badHeader 117966086 40)]) := by decide

/-- Vector Y6: two bytes dropped silently. -/
theorem test_seek_match : after (exec .seek (seeking ([0xAA, 0xBB] ++ Config.magic ++ [0x99])))
    (fun t => (t.st, t.buf, t.evaluating, t.events)) =
      some (.readingHeader, Config.magic ++ [0x99], true, []) := by decide

/-- R125 above the threshold and R126 at it, with a threshold of 3. -/
theorem test_seek_abandon :
    after (exec .seek { seeking (zeros 4) with params := ⟨3, none⟩ }) (fun t => (t.buf, t.events)) =
      some ([], [.diag (.syncAbandon 4)]) ∧
    after (exec .seek { seeking (zeros 3) with params := ⟨3, none⟩ }) (fun t => (t.buf, t.events)) =
      some (zeros 3, []) := by decide

/-- Vector Y10: 39 bytes suspend, 40 are decoded. -/
theorem test_hdr_accept :
    after (exec .hdr (awaitingHeader (header22.take 39))) (fun t => (t.st, t.hdrValid)) = some (.readingHeader, false) ∧
    after (exec .hdr (awaitingHeader header22)) (fun t => (t.st, t.hdrValid, t.hdr.frameNumber, t.buf.length)) =
      some (.readingPayload, true, 7, 40) := by decide

/-- Example S2. -/
theorem test_hdr_reject : after (exec .hdr (awaitingHeader (headerBytes (hd 40 5 0 0))))
    (fun t => (t.st, t.buf, t.events)) = some (.seekingSync, [], [.diag (.badHeader 40 40)]) := by decide

/-- Vectors Y11 and Y12: 47 bytes wait for 48. -/
theorem test_payload :
    after (exec .payload (awaitingPayload (hd 48 7 0 1) [0xE7, 0x03, 0, 0, 0, 0, 0])) (fun t => (t.st, t.buf.length)) =
      some (.readingPayload, 47) ∧
    after (exec .payload (awaitingPayload (hd 48 7 0 1) [0xE7, 0x03, 0, 0, 0, 0, 0, 0]))
      (fun t => (t.st, t.buf, t.events)) = some (.seekingSync, [], [.frame ⟨7, 0, [], none, none, .none⟩]) := by
  decide

/-- Vector Y8: a partial magic followed by a full one. -/
theorem test_frame : after (exec .frame (seeking ([0x02, 0x01, 0x04] ++ Config.magic)))
    (fun t => (t.st, t.buf)) = some (.readingHeader, Config.magic) := by decide

/-- Vector W12: the 59 bytes of example S4. -/
theorem test_frameAssemble : after (exec (.frameAssemble (headerBytes (hd 99 1 0 3) ++
        recordBytes 302 (le32 11 ++ le32 12) ++ recordBytes 999 [1, 2, 3] ++
        recordBytes 306 (statsBytes ⟨1, 2, 3, 4, 5, 6⟩ 0))) State.reset) (fun t => (t.dec.pf, t.dec.cur)) =
    some (⟨1, 0, [], some [11, 12], some ⟨1, 2, 3, 4, 5, 6⟩, .none⟩, 59) := by decide

/-- Example S5, the guard of its last record (program P4): ten bytes follow where 24 are declared. -/
theorem test_frameAssemble_error : after (exec (.frameAssemble (headerBytes (hd 74 9 1 2) ++
        recordBytes 302 (le32 5 ++ le32 6) ++ [0x32, 1, 0, 0, 0x18, 0, 0, 0, 1, 0, 0, 0, 2, 0, 0, 0, 0, 0]))
        State.reset) (fun t => t.dec.pf) =
    some ⟨9, 1, [], some [5, 6], none, .tlvLengthExceedsBuffer⟩ := by decide

/-- Vector W7: a length equal to the bytes remaining passes guard 2. -/
theorem test_tlvStep : after (exec .tlvStep (walking 1 [0x2E, 1, 0, 0, 8, 0, 0, 0, 7, 0, 0, 0, 8, 0, 0, 0]))
    (fun t => (t.dec.pf.rangeProfile, t.dec.cur, t.dec.k, t.dec.walking)) = some (some [7, 8], 16, 1, true) := by decide

/-- Vectors W1 and W6: seven bytes fail guard 1, a negative length fails guard 2. -/
theorem test_tlvStep_guards :
    after (exec .tlvStep (walking 1 (zeros 7))) (fun t => (t.dec.pf.errorCode.code, t.dec.walking)) =
      some (1, false) ∧
    after (exec .tlvStep (walking 1 [0x2E, 1, 0, 0, 0xFF, 0xFF, 0xFF, 0xFF, 1, 2, 3, 4]))
      (fun t => (t.dec.pf.errorCode.code, t.dec.pf.rangeProfile, t.dec.walking)) = some (2, none, false) := by decide

/-- Vectors D4, D5: one point, five remainder bytes ignored. -/
theorem test_decPoints : after (exec (.decPoints (u1 ++ r1 ++ [0xFF, 0xFF, 0xFF, 0xFF, 0xFF])) State.reset)
    (fun t => (t.dec.pf.points, t.dec.unit)) = some ([point1], units1) := by decide

/-- Vectors D1, D3. -/
theorem test_decPoints_short :
    after (exec (.decPoints (u1.take 19)) State.reset) (fun t => (t.dec.pf.points, t.dec.unit)) =
      some ([], ⟨0, 0, 0, 0⟩) ∧
    after (exec (.decPoints (u1 ++ r1.take 9)) State.reset) (fun t => (t.dec.pf.points, t.dec.unit)) =
      some ([], units1) := by decide

/-- Vector D20; and vector D12: an empty later record replaces an earlier profile. -/
theorem test_decRange :
    after (exec (.decRange [1, 0, 0, 0, 0xFE, 0xFF, 0xFF, 0xFF, 0, 0, 0, 0x80]) State.reset)
      (fun t => t.dec.pf.rangeProfile.map (·.map BitVec.toInt)) = some (some [1, -2, -2147483648]) ∧
    after (exec (.decRange []) { State.reset with dec := Scratch.atReset.setRange [1, 2, 3] })
      (fun t => t.dec.pf.rangeProfile) = some (some []) := by decide

/-- Vector D10. -/
theorem test_decRange_remainder : after (exec (.decRange [0xFF, 0xFF, 0xFF, 0xFF, 1, 2, 3]) State.reset)
    (fun t => t.dec.pf.rangeProfile) = some (some [0xFFFFFFFF]) := by decide

/-- Vectors D14 and D13. -/
theorem test_decStats :
    after (exec (.decStats d14) State.reset) (fun t => t.dec.pf.stats) = some (some stats14) ∧
    after (exec (.decStats (d14.take 23)) State.reset) (fun t => t.dec.pf.stats) = some none := by decide

/-- Vector S4's middle record. -/
theorem test_decSkip : exec (.decSkip 999 [1, 2, 3]) State.reset = .next State.reset := rfl

/-- The second point of program P1: vectors A26, A3, A4, A5, and two zeros. -/
theorem test_pointDecompress : after (exec (.pointDecompress ⟨0xFFFF, 0, 0x7FFF, 0x8000, 255, 0⟩)
      { State.reset with dec := Scratch.atReset.loadUnits units1 }) (fun t => t.dec.point) =
    some ⟨0xBC23D70A, 0x00000000, 0x43A3D5C2, 0xC54CCCCD, 0x42FF0000, 0x00000000⟩ := by decide

/-- The Parsed Frame of program P1. -/
def frameP1 : ParsedFrame where
  frameNumber := 7
  numDetectedObj := 2
  points := [point1, ⟨0xBC23D70A, 0x00000000, 0x43A3D5C2, 0xC54CCCCD, 0x42FF0000, 0x00000000⟩]
  rangeProfile := none
  stats := some ⟨1500, 320, 45, 46, 0xFFFD, 50⟩
  errorCode := .none

/-- Section 2.7: the beats of program P1. -/
theorem test_emitFrame : after (exec .emitFrame { State.reset with dec := { Scratch.atReset with pf := frameP1 } })
    (fun t => t.outBeats) = some [
      ⟨0, 0x000000000000000000000000000000020000000200000007⟩,
      ⟨1, 0x40A0000041A000003F800000BF000000400000003F800000⟩,
      ⟨1, 0x0000000042FF0000C54CCCCD43A3D5C200000000BC23D70A⟩,
      ⟨4, 0x00000000000000000032FFFD002E002D00000140000005DC⟩,
      ⟨5, 0⟩] := by decide

/-- Section 2.7: vector D8's empty profile is visible. -/
theorem test_emitFrame_empty_profile : after (exec .emitFrame
      { State.reset with dec := { Scratch.atReset with pf := ⟨1, 0, [], some [], none, .none⟩ } })
    (fun t => t.outBeats.map Beat.kind) = some [0, 2, 5] := by decide

/-- Section 2.7: `diag_kind` and `diag_info`. -/
theorem test_emitDiag :
    after (exec (.emitDiag (.syncAbandon 4097)) State.reset) (fun t => t.events) = some [.diag (.syncAbandon 4097)] ∧
    diagInfo (.syncAbandon 4097) = 0x0000000000001001 ∧ diagKind (.badHeader 40 88) = 1 ∧
    diagInfo (.badHeader 40 88) = 0x0000002800000058 ∧ diagInfo (.badHeader 0xFFFFFFFF 40) = 0xFFFFFFFF00000028 := by
  decide

/-- The layouts latch what is read (section 2.2, R174, U1, R1, D20, D14). -/
theorem test_layouts :
    after (exec (.layoutFrameHeader ⟨0x01020304, 48, 0xFFFFFFFE, 7, 0x80000000, 2, 3, 5⟩) State.reset)
      (fun t => (t.hdr.totalPacketLen, t.hdr.numTlvs, t.hdrValid)) = some (48, 3, false) ∧
    after (exec (.layoutTlvRecord 302 [1, 2, 3]) State.reset) (fun t => (t.dec.tlvType, t.dec.tlvLen, t.dec.cur)) =
      some (302, 3, 8) ∧
    after (exec (.layoutPointUnitHeader units1 9) State.reset) (fun t => t.dec.unit) = some units1 ∧
    after (exec (.layoutCompactPoint raw1) State.reset) (fun t => t.dec.raw) = some raw1 ∧
    after (exec (.layoutRangeBin 0xFFFFFFFE) State.reset) (fun t => t.dec.bins) = some [0xFFFFFFFE] ∧
    after (exec (.layoutStats stats14 0 []) State.reset) (fun t => t.dec.stat) = some stats14 := by decide

/-! ### The ports -/

/-- Vector Y4, byte by byte: the last byte of the magic word completes it. -/
theorem test_byte_port : after (step { seeking (Config.magic.take 7) with inputs := [.byte 0x07 true] })
    (fun t => (t.st, t.buf, t.chunkOpen, t.inputs)) = some (.readingHeader, Config.magic, false, []) := by decide

/-- R315. -/
theorem test_overlap : step { State.reset with inputs := [.overlap (.chunk []) .rst] } = .refused .overlappingCall := rfl

/-! ### Witnesses: a state and operands that meet the hypotheses of each obligation -/

theorem atRest_seeking (b : List Byte) (h : firstMatch Config.magic b = none) (hl : b.length ≤ 4096) :
    AtRest (seeking b) := ⟨rfl, rfl, rfl, h, hl⟩

theorem atRest_header (b : List Byte) (h : b.take 8 = Config.magic) (hl : b.length ≤ 39) :
    AtRest (awaitingHeader b) := ⟨rfl, rfl, ⟨rfl, h⟩, hl⟩

theorem headerBytes_length (h : Header) : (headerBytes h).length = 40 := rfl

theorem atRest_payload (h : Header) (extra : List Byte) (h1 : 40 < h.totalPacketLen.toInt)
    (h2 : h.totalPacketLen.toInt < 10000) (h3 : (40 + extra.length : Int) < h.totalPacketLen.toInt) :
    AtRest (awaitingPayload h extra) := by
  refine ⟨rfl, rfl, ⟨rfl, rfl, ?_, h1, h2, ?_⟩, ?_⟩
  · simp [awaitingPayload, headerBytes_length]
  · exact (congrArg readHeader (by rfl)).trans (readHeader_headerBytes h)
  · show ((headerBytes h ++ extra).length : Int) < _
    rw [List.length_append, headerBytes_length]
    push_cast
    exact h3

theorem atRest_reset : AtRest State.reset := atRest_seeking [] rfl (by decide)

theorem inv_of_atRest {s : State} (h : AtRest s) (hi : s.inputs = []) (hc : s.params.bufCap = none) : Inv s :=
  ⟨by simp [hi], by simp [Memory.wf, hc], h.2.2.1, fun _ _ => h.2.2.2⟩

theorem witness_ResetMeetsTheInvariant : Inv State.reset := inv_of_atRest atRest_reset rfl rfl

/-- A state awaiting a payload that meets the invariant, with one more byte offered, and the step it takes. -/
theorem witness_StepKeepsTheInvariant : ∃ s t, Inv s ∧ s.st = .readingPayload ∧ step s = .next t ∧ t ≠ s := by
  have h := atRest_payload (hd 48 7 0 1) [0xE7] (by decide) (by decide) (by decide)
  refine ⟨{ awaitingPayload (hd 48 7 0 1) [0xE7] with inputs := [.byte 3 false] },
    _, ⟨?_, rfl, h.2.2.1, fun _ _ => h.2.2.2⟩, rfl, rfl, ?_⟩
  · intro i hi
    simp only [List.mem_singleton] at hi
    subst hi
    rfl
  · intro e
    exact absurd (congrArg State.chunkOpen e) (by decide)

theorem witness_StepNeverFaults : Inv (awaitingPayload (hd 9999 7 0 1) []) :=
  inv_of_atRest (atRest_payload _ _ (by decide) (by decide) (by decide)) rfl rfl

/-- One state for each of the six clauses. -/
theorem witness_StepRunsTheSelectedOperation :
    (∃ (s : State) (sel : Selector) (rest : List Input) (i : Instr), s.evaluating = false ∧ s.inputs = .select sel :: rest ∧ decode sel = .ok i ∧
      i = .push [0x02]) ∧
    (∃ s : State, s.evaluating = false ∧ s.inputs = .streamAt 1 :: [] ∧ (s.buf.drop 1).take 8 = Config.magic) ∧
    (∃ s : State, s.evaluating = true ∧ s.st = .seekingSync) ∧
    (∃ s : State, s.evaluating = true ∧ s.st = .readingHeader) ∧
    (∃ s : State, s.evaluating = true ∧ s.st = .readingPayload) ∧
    (∃ s : State, s.evaluating = false ∧ s.inputs = []) :=
  ⟨⟨{ State.reset with inputs := [.select (.chunk [0x02])] }, _, _, _, rfl, rfl, rfl, rfl⟩,
    ⟨{ seeking (0xAA :: Config.magic) with inputs := [.streamAt 1] }, rfl, rfl, rfl⟩,
    ⟨State.reset.continueIn .seekingSync, rfl, rfl⟩, ⟨State.reset.continueIn .readingHeader, rfl, rfl⟩,
    ⟨State.reset.continueIn .readingPayload, rfl, rfl⟩, ⟨State.reset, rfl, rfl⟩⟩

/-- The capacity is met exactly. -/
theorem witness_PushAlwaysReturnsToRest : ∃ (s : State) (chunk : List Byte), AtRest s ∧ s.params.bufCap = some 4 ∧
    s.buf.length + chunk.length = 4 :=
  ⟨capped 4 [0xAA], [0x02, 0x01, 0x04], ⟨rfl, rfl, rfl, rfl, by decide⟩, rfl, rfl⟩

/-- One byte above the capacity. -/
theorem witness_PushBeyondCapacityIsRefused : ∃ (s : State) (chunk : List Byte), AtRest s ∧
    s.params.bufCap = some 3 ∧ s.buf.length + chunk.length = 4 ∧
    exec (.push chunk) s = .refused .pushExceedsBufCap :=
  ⟨capped 3 [0xAA], [0x02, 0x01, 0x04], ⟨rfl, rfl, rfl, rfl, by decide⟩, rfl, rfl, rfl⟩

/-- Each of the three situations. -/
theorem witness_OverlappingCallsAreRefused :
    (∃ s : State, s.evaluating = false ∧ s.inputs = [.overlap (.chunk [1]) (.chunk [2])]) ∧
    (∃ s : State, s.evaluating = true) ∧ (∃ s : State, s.evaluating = false ∧ s.chunkOpen = true) :=
  ⟨⟨{ State.reset with inputs := [.overlap (.chunk [1]) (.chunk [2])] }, rfl, rfl⟩,
    ⟨State.reset.continueIn .seekingSync, rfl⟩, ⟨{ State.reset with chunkOpen := true }, rfl, rfl⟩⟩

theorem witness_PushIteratesTheSelectedSteps : ∃ s t chunk, AtRest s ∧ exec (.push chunk) s = .next t ∧ chunk ≠ [] :=
  ⟨State.reset, _, [0xAA, 0x02], atRest_reset, rfl, by decide⟩

/-- A full buffer, the capacity met exactly. -/
theorem witness_EmptyChunkChangesNothing : ∃ s : State, AtRest s ∧ s.params.bufCap = some s.buf.length ∧ s.buf ≠ [] :=
  ⟨capped 1 [0xAA], ⟨rfl, rfl, rfl, rfl, by decide⟩, rfl, by decide⟩

/-- Awaiting a header, 39 bytes after the chunk; awaiting a payload, one byte short of the frame. -/
theorem witness_WaitingStatesTakeAnyByte :
    (∃ (s : State) (chunk : List Byte), AtRest s ∧ s.st = .readingHeader ∧ s.params.bufCap = none ∧
      s.buf.length + chunk.length = 39) ∧
    (∃ (s : State) (chunk : List Byte), AtRest s ∧ s.st = .readingPayload ∧ s.params.bufCap = none ∧
      chunk ≠ [] ∧ ((s.buf.length + chunk.length : Nat) : Int) + 1 = s.hdr.totalPacketLen.toInt) :=
  ⟨⟨awaitingHeader Config.magic, zeros 31, atRest_header _ rfl (by decide), rfl, rfl, rfl⟩,
    ⟨awaitingPayload (hd 42 1 0 0) [], [0x02], atRest_payload _ _ (by decide) (by decide) (by decide), rfl, rfl,
      by decide, by decide⟩⟩

/-- The last byte of a header whose length is 40, 10000 or negative. -/
theorem witness_BadHeaderLosesTheWholeBuffer : ∀ len ∈ [(40 : Word), 10000, 0xFFFFFFFF],
    ∃ s chunk h, AtRest s ∧ s.st = .readingHeader ∧ s.params.bufCap = none ∧
      readHeader ((s.buf ++ chunk).take 40) = some h ∧ h.totalPacketLen = len ∧
      (h.totalPacketLen.toInt ≤ 40 ∨ 10000 ≤ h.totalPacketLen.toInt) := by
  intro len hlen
  refine ⟨awaitingHeader ((headerBytes (hd len 1 0 0)).take 39), (headerBytes (hd len 1 0 0)).drop 39, hd len 1 0 0,
    atRest_header _ rfl (Nat.le_refl 39), rfl, rfl, ?_, rfl, ?_⟩
  · show readHeader (((headerBytes (hd len 1 0 0)).take 39 ++ (headerBytes (hd len 1 0 0)).drop 39).take 40) = _
    rw [List.take_append_drop]
    exact readHeader_headerBytes _
  · simp only [List.mem_cons, List.not_mem_nil, or_false] at hlen
    obtain rfl | rfl | rfl := hlen <;> decide

/-- The magic word cut in two. -/
theorem witness_ChunkBoundaryDoesNotMatter : ∃ s s1 t a b, AtRest s ∧ exec (.push a) s = .next s1 ∧
    diagnostics s1.events = diagnostics s.events ∧ exec (.push (a ++ b)) s = .next t ∧ t.st = .readingHeader :=
  ⟨State.reset, _, _, [0x02, 0x01, 0x04], [0x03, 0x06, 0x05, 0x08, 0x07], atRest_reset, rfl, rfl, rfl, rfl⟩

/-- Two frames, of the least and of the greatest payload, cut inside the first frame's header; threshold 7. -/
theorem witness_BackToBackFramesAllArrive : ∃ (s : State) (fs : List (Header × List Byte)) (chunks : List (List Byte)),
    AtRest s ∧ s.st = .seekingSync ∧ s.buf = [] ∧ s.params.bufCap = none ∧ s.params.syncAbandonThreshold = 7 ∧
    fs.length = 2 ∧ chunks.length = 2 ∧ (∀ f ∈ fs, FrameFits f) ∧ chunks.flatten = (fs.map wireFrame).flatten := by
  let fs : List (Header × List Byte) := [(hd 41 1 0 0, zeros 1), (hd 9999 2 0 0, zeros 9959)]
  refine ⟨{ State.reset with params := ⟨7, none⟩ }, fs,
    [(fs.map wireFrame).flatten.take 20, (fs.map wireFrame).flatten.drop 20],
    ⟨rfl, rfl, rfl, rfl, by decide⟩, rfl, rfl, rfl, rfl, rfl, rfl, ?_, ?_⟩
  · intro f hf
    simp only [fs, List.mem_cons, List.not_mem_nil, or_false] at hf
    obtain rfl | rfl := hf
    · exact ⟨by decide, by decide, by decide⟩
    · refine ⟨?_, ?_, ?_⟩ <;> simp only [zeros, List.length_replicate] <;> decide
  · rw [List.flatten_cons, List.flatten_cons, List.flatten_nil, List.append_nil, List.take_append_drop]

/-- Other contents of the dead registers. -/
theorem witness_DeadRegistersDoNotMatter : ∃ (s t : State) (chunk : List Byte) (h : Header) (d : Scratch), AtRest s ∧
    (s.hdrValid = true → h = s.hdr) ∧ d.draws = s.dec.draws ∧ exec (.push chunk) s = .next t ∧ h ≠ s.hdr ∧
    d ≠ s.dec :=
  ⟨State.reset, _, [0x02], hd 41 1 0 0, { Scratch.atReset with k := 5 }, atRest_reset, by decide, rfl, rfl,
    by decide, by decide⟩

/-- A match at offset 0, and one at offset 2. -/
theorem witness_SeekStartsAtTheFirstMagic :
    ((seeking Config.magic).buf.drop 0).take 8 = Config.magic ∧
    (((seeking ([0xAA, 0xBB] ++ Config.magic)).buf.drop 2).take 8 = Config.magic ∧
      ∀ j < 2, ((seeking ([0xAA, 0xBB] ++ Config.magic)).buf.drop j).take 8 ≠ Config.magic) := by decide

/-- One byte above a threshold of 3. -/
theorem witness_SeekAbandonsALongBuffer : ∃ s : State, (∀ j, (s.buf.drop j).take 8 ≠ Config.magic) ∧
    s.params.syncAbandonThreshold = 3 ∧ s.buf.length = 4 :=
  ⟨{ seeking (zeros 4) with params := ⟨3, none⟩ }, firstMatch_eq_none.1 (by decide), rfl, rfl⟩

/-- At a threshold of 3. -/
theorem witness_SeekKeepsAShortBuffer : ∃ s : State, (∀ j, (s.buf.drop j).take 8 ≠ Config.magic) ∧
    s.params.syncAbandonThreshold = 3 ∧ s.buf.length = 3 :=
  ⟨{ seeking (zeros 3) with params := ⟨3, none⟩ }, firstMatch_eq_none.1 (by decide), rfl, rfl⟩

/-- Both clauses. -/
theorem witness_FrameStartsAtTheFirstMagic :
    (((seeking (0xAA :: Config.magic)).buf.drop 1).take 8 = Config.magic ∧
      ∀ j < 1, ((seeking (0xAA :: Config.magic)).buf.drop j).take 8 ≠ Config.magic) ∧
    (∀ j, ((seeking [0xAA]).buf.drop j).take 8 ≠ Config.magic) :=
  ⟨by decide, firstMatch_eq_none.1 (by decide)⟩

theorem readHeader_awaiting (h : Header) : readHeader ((awaitingHeader (headerBytes h)).buf.take 40) = some h :=
  (congrArg readHeader (by rfl)).trans (readHeader_headerBytes h)

/-- 39 bytes; 40 bytes with a length of 41, and with one of 9999. -/
theorem witness_HdrAcceptsALengthInRange : (awaitingHeader (header22.take 39)).buf.length = 39 ∧
    ∀ len ∈ [(41 : Word), 9999], ∃ (s : State) (h : Header), s.buf.length = 40 ∧
      readHeader (s.buf.take 40) = some h ∧ h.totalPacketLen = len ∧ 40 < h.totalPacketLen.toInt ∧
      h.totalPacketLen.toInt < 10000 := by
  refine ⟨rfl, fun len hlen =>
    ⟨awaitingHeader (headerBytes (hd len 1 0 0)), hd len 1 0 0, rfl, readHeader_awaiting _, rfl, ?_⟩⟩
  simp only [List.mem_cons, List.not_mem_nil, or_false] at hlen
  obtain rfl | rfl := hlen <;> decide

/-- 40 bytes with a length of 40, of 10000, and of -1. -/
theorem witness_HdrRejectsALengthOutOfRange : ∀ len ∈ [(40 : Word), 10000, 0xFFFFFFFF],
    ∃ (s : State) (h : Header), s.buf.length = 40 ∧ readHeader (s.buf.take 40) = some h ∧ h.totalPacketLen = len ∧
      (h.totalPacketLen.toInt ≤ 40 ∨ 10000 ≤ h.totalPacketLen.toInt) := by
  intro len hlen
  refine ⟨awaitingHeader (headerBytes (hd len 1 0 0)), hd len 1 0 0, rfl, readHeader_awaiting _, rfl, ?_⟩
  simp only [List.mem_cons, List.not_mem_nil, or_false] at hlen
  obtain rfl | rfl | rfl := hlen <;> decide

theorem witness_HeaderFieldsAreReadAtTheirOffsets : header22.length = 40 ∧ wireU32 header22 12 = 48 ∧
    (readHeader header22).map Header.totalPacketLen = some 48 := by decide

/-- One byte short of the least frame. -/
theorem witness_PayloadWaitsForTheFrame : (((awaitingPayload (hd 41 1 0 0) []).buf.length : Nat) : Int) + 1 =
    (awaitingPayload (hd 41 1 0 0) []).hdr.totalPacketLen.toInt := by decide

/-- A frame of 41 bytes and one of 9999, complete and no more. -/
theorem witness_PayloadSlicesDecodesAndEmits : ∀ p ∈ [((41 : Word), 41), (9999, 9999)],
    (awaitingPayload (hd p.1 1 0 0) (zeros (p.2 - 40))).hdr.totalPacketLen.toInt = (p.2 : Int) ∧ 40 < p.2 ∧
    p.2 < 10000 ∧ p.2 ≤ (awaitingPayload (hd p.1 1 0 0) (zeros (p.2 - 40))).buf.length := by
  intro p hp
  simp only [List.mem_cons, List.not_mem_nil, or_false] at hp
  have key : ∀ (h : Header) (n : Nat), (awaitingPayload h (zeros n)).buf.length = 40 + n := by
    intro h n
    simp only [awaitingPayload, List.length_append, headerBytes_length, zeros, List.length_replicate]
  obtain rfl | rfl := hp <;> rw [key] <;> decide

/-- Frame views of 41 and 9999 bytes. -/
theorem witness_FrameAssembleCopiesTheHeaderFields : ∀ n ∈ [41, 9999], 41 ≤ (zeros n).length ∧ (zeros n).length ≤ 9999 := by
  simp only [zeros, List.length_replicate]
  decide

/-- Frame views of 41 and 9999 bytes with their headers, the start being what the statement says it is. -/
theorem witness_FrameAssembleIteratesTheWalk : ∀ p ∈ [((41 : Word), 1), (9999, 9959)],
    ∃ (f : List Byte) (h : Header), f.length = 40 + p.2 ∧ 41 ≤ f.length ∧ f.length ≤ 9999 ∧
      readHeader (f.take 40) = some h ∧ h.totalPacketLen = p.1 := by
  intro p hp
  have key : ∀ (h : Header) (n : Nat), (headerBytes h ++ zeros n).length = 40 + n := by
    intro h n
    simp only [List.length_append, headerBytes_length, length_zeros]
  refine ⟨headerBytes (hd p.1 1 0 1) ++ zeros p.2, hd p.1 1 0 1, key _ _, ?_, ?_,
    (congrArg readHeader (by rfl)).trans (readHeader_headerBytes _), rfl⟩ <;>
  · simp only [List.mem_cons, List.not_mem_nil, or_false] at hp
    rw [key]
    obtain rfl | rfl := hp <;> decide

/-- Vector W7's walk: the record, then the end at the count, and no step before the second stops. -/
theorem test_repeatExec_tlvStep : [0, 1, 2].map (fun k => after (repeatExec .tlvStep k
      (walking 1 [0x2E, 1, 0, 0, 8, 0, 0, 0, 7, 0, 0, 0, 8, 0, 0, 0])) (fun t => (t.dec.pf.rangeProfile, t.dec.walking))) =
    [some (none, true), some (some [7, 8], true), some (some [7, 8], false)] := by decide

/-- A count of 0, and a count of -1. -/
theorem witness_EmptyWalkForACountBelowOne : ∀ n ∈ [(0 : Word), 0xFFFFFFFF], ∃ (f : List Byte) (h : Header), 41 ≤ f.length ∧ f.length ≤ 9999 ∧
    readHeader (f.take 40) = some h ∧ h.numTlvs = n ∧ h.numTlvs.toInt ≤ 0 := by
  intro n hn
  refine ⟨headerBytes (hd 41 1 0 n) ++ [0xFF], hd 41 1 0 n, ?_, ?_, ?_, rfl, ?_⟩
  · rw [List.length_append, headerBytes_length]; decide
  · rw [List.length_append, headerBytes_length]; decide
  · exact (congrArg readHeader (by rfl)).trans (readHeader_headerBytes _)
  · simp only [List.mem_cons, List.not_mem_nil, or_false] at hn
    obtain rfl | rfl := hn <;> decide

/-- Each of the three ways: vectors W4, W1 and W6. -/
theorem witness_WalkEndsInOneOfThreeWays :
    after (exec (.frameAssemble (headerBytes (hd 52 1 0 0) ++ zeros 12)) State.reset)
      (fun t => (t.dec.pf.errorCode, t.dec.walking)) = some (.none, false) ∧
    after (exec (.frameAssemble (headerBytes (hd 47 1 0 1) ++ zeros 7)) State.reset)
      (fun t => (t.dec.pf.errorCode, t.dec.walking)) = some (.truncatedTlvHeader, false) ∧
    after (exec (.frameAssemble (headerBytes (hd 52 1 0 1) ++
        [0x2E, 1, 0, 0, 0xFF, 0xFF, 0xFF, 0xFF, 1, 2, 3, 4])) State.reset)
      (fun t => (t.dec.pf.errorCode, t.dec.walking)) = some (.tlvLengthExceedsBuffer, false) := by decide

/-- A count of 0 at `k = 0`. -/
theorem witness_TlvStepEndsAtTheCount : (walking 0 (zeros 8)).hdr.numTlvs.toInt = ((walking 0 (zeros 8)).dec.k : Int) := by
  decide

/-- Seven bytes left. -/
theorem witness_TlvStepTruncatedHeader : ((walking 1 (zeros 7)).dec.k : Int) < (walking 1 (zeros 7)).hdr.numTlvs.toInt ∧
    ((walking 1 (zeros 7)).dec.n : Int) - (walking 1 (zeros 7)).dec.cur = 7 := by decide

/-- One record of type 302 that declares `len` bytes and has two. -/
def oneRecord (len : Word) : State := walking 1 ([0x2E, 1, 0, 0] ++ le32 len ++ [7, 8])

theorem oneRecord_reads (len : Word) :
    u32le ((oneRecord len).dec.frame.drop 40) (oneRecord len).dec.cur = some 302 ∧
    u32le ((oneRecord len).dec.frame.drop 40) ((oneRecord len).dec.cur + 4) = some len :=
  ⟨rfl, u32le_le32 [0x2E, 1, 0, 0] [7, 8] len rfl⟩

/-- A length one above the bytes remaining (vector W8's shape), and a negative one (W6). -/
theorem witness_TlvStepLengthExceeds : ∀ len ∈ [(3 : Word), 0xFFFFFFFF],
    ((oneRecord len).dec.k : Int) < (oneRecord len).hdr.numTlvs.toInt ∧
    (oneRecord len).dec.cur + 8 ≤ (oneRecord len).dec.n ∧
    u32le ((oneRecord len).dec.frame.drop 40) (oneRecord len).dec.cur = some 302 ∧
    u32le ((oneRecord len).dec.frame.drop 40) ((oneRecord len).dec.cur + 4) = some len ∧
    (len.toInt < 0 ∨ ((oneRecord len).dec.n : Int) - ((oneRecord len).dec.cur + 8 : Nat) < len.toInt) := by
  intro len hlen
  refine ⟨(by decide : (0 : Int) < 1), (by decide : 8 ≤ 10), (oneRecord_reads len).1, (oneRecord_reads len).2, ?_⟩
  show len.toInt < 0 ∨ (10 : Int) - (8 : Nat) < len.toInt
  simp only [List.mem_cons, List.not_mem_nil, or_false] at hlen
  obtain rfl | rfl := hlen <;> decide

/-- A length of 0 and one of exactly the bytes remaining. -/
theorem witness_TlvStepRunsTheRecord : ∀ len ∈ [(0 : Word), 2],
    WalkFits (oneRecord len).dec ∧
    ((oneRecord len).dec.k : Int) < (oneRecord len).hdr.numTlvs.toInt ∧
    (oneRecord len).dec.cur + 8 ≤ (oneRecord len).dec.n ∧
    u32le ((oneRecord len).dec.frame.drop 40) (oneRecord len).dec.cur = some 302 ∧
    u32le ((oneRecord len).dec.frame.drop 40) ((oneRecord len).dec.cur + 4) = some len ∧ 0 ≤ len.toInt ∧
    len.toInt ≤ ((oneRecord len).dec.n : Int) - ((oneRecord len).dec.cur + 8 : Nat) := by
  intro len hlen
  refine ⟨⟨rfl, Nat.zero_le _⟩, (by decide : (0 : Int) < 1), (by decide : 8 ≤ 10), (oneRecord_reads len).1,
    (oneRecord_reads len).2, ?_⟩
  show 0 ≤ len.toInt ∧ len.toInt ≤ (10 : Int) - (8 : Nat)
  simp only [List.mem_cons, List.not_mem_nil, or_false] at hlen
  obtain rfl | rfl := hlen <;> decide

/-- A walk at its beginning, and one whose cursor is at the end of its payload. -/
theorem witness_TlvStepNeverMovesBackwards : WalkFits (walking 1 (zeros 8)).dec ∧
    WalkFits { (walking 1 (zeros 8)).dec with cur := 8 } := by
  unfold WalkFits
  decide

/-- The greatest payload, nothing left. -/
theorem witness_GuardTwoIsOneUnsignedComparison : ∃ d : Scratch, d.cur = 9959 ∧ d.n = 9959 ∧ d.cur ≤ d.n ∧ d.n ≤ 9959 :=
  ⟨{ Scratch.atReset with cur := 9959, n := 9959 }, rfl, rfl, by decide, by decide⟩

/-- 19 and 23 bytes. -/
theorem witness_MalformedSubRecordChangesNothing : (u1.take 19).length < 20 ∧ (d14.take 23).length < 24 := by decide

/-- 20 bytes, and 30 with one record. -/
theorem witness_DecPointsAppendsEveryRecord : u1.length = 20 ∧ (u1 ++ r1).length = 30 ∧
    ((u1 ++ r1).length - 20) / 10 = 1 := by decide

/-- Two values that differ in the counts and in a remainder byte. -/
theorem witness_DecPointsIgnoresUnreadBytes : ∃ v w : List Byte, 20 ≤ v.length ∧ v.length = w.length ∧ v ≠ w ∧
    ∀ i, i < 16 ∨ (20 ≤ i ∧ i < 20 + 10 * ((v.length - 20) / 10)) → v[i]? = w[i]? := by
  refine ⟨u1 ++ r1 ++ [0], u1.take 16 ++ [9, 0, 7, 0] ++ r1 ++ [1], by decide, by decide, by decide, ?_⟩
  have key : ∀ i < 30, i < 16 ∨ 20 ≤ i → (u1 ++ r1 ++ [0])[i]? = (u1.take 16 ++ [9, 0, 7, 0] ++ r1 ++ [1])[i]? := by
    decide
  have hl : 10 * (((u1 ++ r1 ++ [0]).length - 20) / 10) = 10 := by decide
  intro i hi
  rw [hl] at hi
  exact key i (by omega) (by omega)

theorem witness_DecStatsStoresTheFields : d14.length = 24 := rfl

/-- Two values that differ in the power levels and from offset 24 on. -/
theorem witness_DecStatsIgnoresUnreadBytes : ∃ v w : List Byte, v.length = 24 ∧ w.length = 26 ∧ v ≠ w ∧
    ∀ i, i < 8 ∨ (16 ≤ i ∧ i < 24) → v[i]? = w[i]? := by
  refine ⟨d14, d14.take 8 ++ zeros 8 ++ d14.drop 16 ++ [0xEE, 0xEE], rfl, rfl, by decide, ?_⟩
  have key : ∀ i < 24, i < 8 ∨ 16 ≤ i → d14[i]? = (d14.take 8 ++ zeros 8 ++ d14.drop 16 ++ [0xEE, 0xEE])[i]? := by
    decide
  intro i hi
  exact key i (by omega) (by omega)

/-- The ends of the range of raw integers; the NaN case and its complement. -/
theorem witness_NanResultExactlyWhenStated : isRaw (-32768) ∧ isRaw 32767 ∧ isNaN 0x7FC00000 = true ∧
    isInf 0x7F800000 = true ∧ ¬(isNaN 0x3F800000 = true ∨ ((0 : Int) = 0 ∧ isInf 0x3F800000 = true)) := by
  unfold isRaw
  decide

/-- Each row: a zero raw value and a finite unit; a positive and a negative one with a zero and with an infinite
unit; one and minus one. -/
theorem witness_ScaleSpecialCases : isRaw 0 ∧ isRaw 1 ∧ isRaw (-1) ∧ isRaw 32767 ∧ isRaw (-32768) ∧
    (isNaN 0x80000001 = false ∧ isInf 0x80000001 = false) ∧ (isNaN 0x80000000 = false ∧ isZero 0x80000000 = true) ∧
    (isNaN 0xFF800000 = false ∧ isInf 0xFF800000 = true) := by
  unfold isRaw
  decide

/-- A finite product, and the products just below and at overflow (vectors A18, A15). -/
theorem witness_ProductIsTheNearestFloat : isRaw 32767 ∧ isFinite 0x3C23D70A = true ∧ isFinite 0x7F7FFFFF = true ∧
    isFinite (scale 0 32767 0x3C23D70A) = true ∧ isFinite (scale 0 1 0x7F7FFFFF) = true ∧
    isInf (scale 0 2 0x7F7FFFFF) = true := by
  refine ⟨by unfold isRaw; decide, by decide, by decide, ?_, ?_, ?_⟩ <;> decide +kernel

theorem witness_BeatsDetermineTheParsedFrame : ∃ a b : ParsedFrame, frameBeats a = frameBeats b := ⟨frameP1, frameP1, rfl⟩

/-- A record with a value, and a diagnostic event at the greatest count. -/
theorem witness_DecodeOfEncodeIsTheInstruction : (Instr.decSkip 999 [1, 2, 3]).wf = true ∧
    (Instr.emitDiag (.badHeader 40 (2 ^ 32 - 1))).wf = true := by decide

theorem witness_EncodeOfDecodeIsTheSelector : ∃ sel i, decode sel = .ok i ∧ i = .decRange [1, 2, 3, 4] :=
  ⟨.tlv [0x2E, 1, 0, 0, 4, 0, 0, 0, 1, 2, 3, 4], _, rfl, rfl⟩

/-- The greatest length a record can have. -/
theorem witness_RecordSplitsFromAStream : ∃ v : List Byte, v.length = 2 ^ 31 - 1 ∧ v.length < 2 ^ 31 := by
  have h : ∀ n, n < 2 ^ 31 → ∃ v : List Byte, v.length = n ∧ v.length < 2 ^ 31 := fun n hn =>
    ⟨zeros n, length_zeros n, (length_zeros n).symm ▸ hn⟩
  exact h _ (by norm_num)

/-- Three bytes, the capacity met exactly. -/
theorem witness_BytePortIsPush : ∃ (s : State) (chunk : List Byte), chunk ≠ [] ∧ s.evaluating = false ∧
    s.chunkOpen = false ∧ s.params.bufCap = some 4 ∧ s.buf.length + chunk.length = 4 :=
  ⟨capped 4 [0xAA], [0x02, 0x01, 0x04], by decide, rfl, rfl, rfl, rfl⟩

/-- A full buffer with a byte offered. -/
theorem witness_FullBufferStallsThePort : ∃ s : State, s.evaluating = false ∧ s.inputs = [.byte 5 true] ∧
    s.params.bufCap = some s.buf.length ∧ step s = .next s :=
  ⟨{ capped 2 [1, 2] with inputs := [.byte 5 true] }, rfl, rfl, rfl, rfl⟩

/-- With a beat waiting, and with none. -/
theorem witness_OutputBeatsLeaveInOrder : (∃ s : State, s.evaluating = false ∧ s.inputs = [.outReady] ∧ s.outBeats ≠ []) ∧
    (∃ s : State, s.evaluating = false ∧ s.inputs = [.outReady] ∧ s.outBeats = []) :=
  ⟨⟨{ State.reset with inputs := [.outReady], outBeats := [⟨5, 0⟩] }, rfl, rfl, by decide⟩,
    ⟨{ State.reset with inputs := [.outReady] }, rfl, rfl, rfl⟩⟩

end Sys2Proof.Tests
end

section
/-! The state: reset, the invariant of every run, the walk's monotone step, the dead registers, and the byte
port as PUSH. -/

namespace Sys2Proof.Machine

/-! ### Reset -/

theorem atRest_reset : AtRest State.reset :=
  ⟨rfl, rfl, rfl, rfl, Nat.zero_le _⟩

/-- Settles O1: the reset state, field by field. -/
theorem resetLeavesTheInitialState : Obligations.ResetLeavesTheInitialState :=
  ⟨rfl, rfl, rfl, rfl, rfl, rfl, atRest_reset⟩

/-- Settles O3: no input is queued, the buffer is empty, and the state is at rest. -/
theorem resetMeetsTheInvariant : Obligations.ResetMeetsTheInvariant := by
  obtain ⟨-, -, hcoh, hset⟩ := atRest_reset
  exact ⟨fun i hi => absurd hi List.not_mem_nil, reset_memory_wf _, hcoh, fun _ _ => hset⟩

/-! ### The invariant -/

theorem orFault_eq_next {o : Option State} {t : State} : orFault o = .next t ↔ o = some t := by
  cases o <;> simp [orFault]

/-- What the loop leaves alone is enough to keep the inputs external and the buffer inside its capacity. -/
theorem inv_of_loopFrame {s t : State} (hin : ∀ i ∈ s.inputs, i.external = true)
    (hwf : Memory.wf s.params.bufCap s.buf = true) (hfr : LoopFrame s t) (hc : Coherent t)
    (hs : t.evaluating = false → Settled t) : Inv t := by
  obtain ⟨hp, hi, -, -, hl⟩ := hfr
  exact ⟨hi ▸ hin, hp ▸ Memory.wf_of_length_le hwf hl, hc, fun he _ => hs he⟩

/-- A step inside an evaluation keeps the invariant. -/
theorem loopStep_inv {s t : State} (hs : Inv s) (h : loopStep s = some t) : Inv t := by
  obtain ⟨hin, hwf, hc, -⟩ := hs
  obtain ⟨t', ht', hct, hfr, hend⟩ := loopStep_spec hc
  cases h.symm.trans ht'
  refine inv_of_loopFrame hin hwf hfr hct fun he => ?_
  obtain ⟨-, hset⟩ | ⟨hgo, -⟩ := hend
  · exact hset
  · simp [he] at hgo

/-- A whole evaluation establishes the invariant, settled or not before. -/
theorem evaluate_inv {s t : State} (hin : ∀ i ∈ s.inputs, i.external = true)
    (hwf : Memory.wf s.params.bufCap s.buf = true) (hc : Coherent s) (h : evaluate s = some t) : Inv t := by
  obtain ⟨t', ht', hct, hset, -, hfr⟩ := evaluate_spec hc
  cases h.symm.trans ht'
  exact inv_of_loopFrame hin hwf hfr hct fun _ => hset

/-- Of the inputs `Inv` asks only that they are external. -/
theorem inv_withInputs {s : State} (hs : Inv s) {rest : List Input}
    (hrest : ∀ i ∈ rest, i.external = true) : Inv { s with inputs := rest } := by
  obtain ⟨-, hwf, hc, hset⟩ := hs
  exact ⟨hrest, hwf, hc, hset⟩

theorem execReset_inv {s t : State} (hin : ∀ i ∈ s.inputs, i.external = true)
    (h : execReset s = .next t) : Inv t := by
  cases h
  exact ⟨hin, reset_memory_wf _, rfl, fun _ _ => ⟨rfl, Nat.zero_le _⟩⟩

theorem execPush_inv {s t : State} {chunk : List Byte} (hs : Inv s) (h : execPush chunk s = .next t) :
    Inv t := by
  obtain ⟨hin, -, hc, -⟩ := hs
  by_cases hbusy : s.evaluating = true ∨ s.chunkOpen = true
  · simp [execPush, hbusy] at h
  · simp only [not_or, Bool.not_eq_true] at hbusy
    obtain ⟨hfit, he⟩ | ⟨-, he⟩ := execPush_cases chunk hbusy.1 hbusy.2
    · rw [he, orFault_eq_next] at h
      exact evaluate_inv (s := s.append chunk) hin (append_wf hfit) (coherent_append hc chunk) h
    · simp [he] at h

/-- The two calls the outside has are RESET and PUSH (R80). -/
theorem runSelected_inv {s t : State} {sel : Selector} (hs : Inv s)
    (hext : (Input.select sel).external = true) (h : runSelected sel s = .next t) : Inv t := by
  cases sel with
  | rst => exact execReset_inv hs.1 h
  | chunk bytes => exact execPush_inv hs h
  | _ => simp [Input.external] at hext

theorem offerByte_inv {s t : State} {b : Byte} {last : Bool} {rest : List Input} (hs : Inv s)
    (hrest : ∀ i ∈ rest, i.external = true) (h : offerByte b last rest s = .next t) : Inv t := by
  obtain ⟨-, -, hc, -⟩ := id hs
  have hcoh := coherent_append hc [b]
  have hready : s.inReady = true → s.fits [b] = true := fun hr =>
    fits_iff.2 ((inReady_iff s).1 hr).2
  obtain ⟨-, he⟩ | ⟨hr, -, he⟩ | ⟨hr, -, he⟩ := offerByte_cases b last rest s
  · cases he.symm.trans h
    exact hs
  · cases he.symm.trans h
    exact ⟨hrest, hready hr, hcoh, fun _ ho => by cases ho⟩
  · rw [he, orFault_eq_next] at h
    exact evaluate_inv (s := { s with inputs := rest, buf := s.buf ++ [b], chunkOpen := false }) hrest
      (hready hr) hcoh h

/-- Settles O4: inside an evaluation by the loop's step, at rest by the kind of the next input. -/
theorem stepKeepsTheInvariant : Obligations.StepKeepsTheInvariant := by
  intro s t hs h
  cases he : s.evaluating with
  | true =>
    rw [step_evaluating he, orFault_eq_next] at h
    exact loopStep_inv hs h
  | false =>
    cases hin : s.inputs with
    | nil =>
      simp only [step, he, hin] at h
      cases h
      exact hs
    | cons i rest =>
      have hext : ∀ j ∈ i :: rest, j.external = true := hin ▸ hs.1
      obtain ⟨hi, hrest⟩ := List.forall_mem_cons.1 hext
      cases i with
      | select sel =>
        rw [step_select he hin] at h
        exact runSelected_inv (inv_withInputs hs hrest) hi h
      | streamAt a => simp [Input.external] at hi
      | byte b last =>
        rw [step_byte he hin] at h
        exact offerByte_inv hs hrest h
      | outReady =>
        cases (step_outReady he hin).symm.trans h
        exact inv_withInputs hs hrest
      | overlap a b => simp [step, he, hin] at h

/-! ### The walk -/

/-- No step of the walk takes a completed record back (R179). -/
theorem tlvStep_count {nt : Word} {d d' : Scratch} (h : tlvStep nt d = some d') : d.k ≤ d'.k := by
  obtain ⟨-, rfl⟩ | ⟨-, -, rfl⟩ | ⟨-, -, type, len, -, -, h⟩ := tlvStep_cases h
  · exact Nat.le_refl _
  · exact Nat.le_refl _
  · obtain ⟨-, rfl⟩ | ⟨-, v, d2, -, hd2, rfl⟩ := h
    · exact Nat.le_refl _
    · obtain ⟨d3, hd3, ⟨-, -, -, hk, -⟩, -⟩ := dispatch_total type v (d.loadRecordHeader type len)
      cases hd2.symm.trans hd3
      simp [hk]

/-- Settles O34: the step answers, and each register is where the walk's laws put it. -/
theorem tlvStepNeverMovesBackwards : Obligations.TlvStepNeverMovesBackwards := by
  intro s hfit
  obtain ⟨d, hd⟩ := tlvStep_total (nt := s.hdr.numTlvs) hfit
  obtain ⟨hfit', hframe, hn, hcur, -⟩ := tlvStep_progress hfit hd
  refine ⟨d, ?_, hfit', hcur, tlvStep_count hd, hframe, hn⟩
  simp only [exec, execTlvStep, hd, Option.map_some, orFault, State.withDec]

/-! ### The dead registers -/

/-- Two scratches that a decode cannot tell apart between two records: they agree on every register but the
record's words, the units and the decoders' locals, each of which is written before it is read. -/
structure SameDecode (d e : Scratch) : Prop where
  frame : e.frame = d.frame
  n : e.n = d.n
  cur : e.cur = d.cur
  k : e.k = d.k
  walking : e.walking = d.walking
  pf : e.pf = d.pf
  draws : e.draws = d.draws

/-- `SameDecode` inside a record, where the type and the length have been read as well. -/
def SameRecord (d e : Scratch) : Prop := SameDecode d e ∧ e.tlvType = d.tlvType ∧ e.tlvLen = d.tlvLen

/-- Two operations that may have no answer are related, one after the other, when each of the two is. -/
theorem rel_bind {α β : Type} {r : α → α → Prop} {q : β → β → Prop} {x y : Option α} {f g : α → Option β}
    (hxy : Option.Rel r x y) (hfg : ∀ a b, r a b → Option.Rel q (f a) (g b)) :
    Option.Rel q (x >>= f) (y >>= g) := by
  cases hxy with
  | some hab => exact hfg _ _ hab
  | none => exact .none

/-- Two operations that may have no answer and begin alike are related when what follows is. -/
theorem rel_bind_same {α β : Type} {q : β → β → Prop} {x : Option α} {f g : α → Option β}
    (hfg : ∀ a, Option.Rel q (f a) (g a)) : Option.Rel q (x >>= f) (x >>= g) := by
  cases x with
  | some a => exact hfg a
  | none => exact .none

/-- Where one of two related answers is known, so is the other. -/
theorem exists_of_rel {α : Type} {r : α → α → Prop} {x y : Option α} {a : α} (hxy : Option.Rel r x y)
    (hx : x = some a) : ∃ b, y = some b ∧ r a b := by
  cases hxy with
  | some hab =>
    cases hx
    exact ⟨_, rfl, hab⟩
  | none => cases hx

theorem SameDecode.payload {d e : Scratch} (h : SameDecode d e) : e.payload = d.payload := by
  rw [Scratch.payload, h.frame, Scratch.payload]

theorem SameDecode.raise {d e : Scratch} (h : SameDecode d e) (c : ErrorCode) :
    SameDecode (d.raise c) (e.raise c) :=
  ⟨h.frame, h.n, h.cur, h.k, rfl, by simp only [Scratch.raise, h.pf], h.draws⟩

theorem SameDecode.advance {d e : Scratch} (h : SameDecode d e) (len : Nat) :
    SameDecode (d.advance len) (e.advance len) :=
  ⟨h.frame, h.n, congrArg (· + len) h.cur, congrArg (· + 1) h.k, h.walking, h.pf, h.draws⟩

theorem decPoints_same {d e : Scratch} (h : SameDecode d e) (v : List Byte) :
    Option.Rel SameDecode (decPoints v d) (decPoints v e) := by
  by_cases hlen : v.length < 20
  · rw [decPoints_short d hlen, decPoints_short e hlen]
    exact .some h
  · obtain ⟨u, r, p, hu, hd⟩ := decPoints_spec d (Nat.le_of_not_lt hlen)
    obtain ⟨u', r', p', hu', he⟩ := decPoints_spec e (Nat.le_of_not_lt hlen)
    cases hu.symm.trans hu'
    rw [hd, he]
    exact .some ⟨h.frame, h.n, h.cur, h.k, h.walking, by simp only [h.pf, h.draws],
      by simp only [h.draws]⟩

theorem decRange_same {d e : Scratch} (h : SameDecode d e) (v : List Byte) :
    Option.Rel SameDecode (decRange v d) (decRange v e) := by
  rw [decRange_spec, decRange_spec]
  exact .some ⟨h.frame, h.n, h.cur, h.k, h.walking, by simp only [h.pf], h.draws⟩

theorem decStats_same {d e : Scratch} (h : SameDecode d e) (v : List Byte) :
    Option.Rel SameDecode (decStats v d) (decStats v e) := by
  by_cases hlen : v.length < 24
  · rw [decStats_short d hlen, decStats_short e hlen]
    exact .some h
  · obtain ⟨t, ht, hd⟩ := decStats_spec d (Nat.le_of_not_lt hlen)
    obtain ⟨t', ht', he⟩ := decStats_spec e (Nat.le_of_not_lt hlen)
    cases ht.symm.trans ht'
    rw [hd, he]
    exact .some ⟨h.frame, h.n, h.cur, h.k, h.walking, by simp only [h.pf], h.draws⟩

theorem dispatch_same {d e : Scratch} (h : SameDecode d e) (type : Word) (v : List Byte) :
    Option.Rel SameDecode (dispatch type v d) (dispatch type v e) := by
  unfold dispatch
  split
  · exact decPoints_same h v
  · split
    · exact decRange_same h v
    · split
      · exact decStats_same h v
      · exact .some h

theorem readRecordHeader_same {d e : Scratch} (h : SameDecode d e) :
    Option.Rel SameRecord (readRecordHeader d) (readRecordHeader e) := by
  simp only [readRecordHeader, h.payload, h.cur]
  refine rel_bind_same fun type => rel_bind_same fun len => .some ⟨?_, rfl, rfl⟩
  exact ⟨h.frame, h.n, congrArg (· + Config.tlvHdrLen) h.cur, h.k, h.walking, h.pf, h.draws⟩

theorem walkRecord_same {d e : Scratch} (h : SameRecord d e) :
    Option.Rel SameDecode (walkRecord d) (walkRecord e) := by
  obtain ⟨h, htype, hlen⟩ := h
  have hguard : guardTwoFails e = guardTwoFails d := by simp only [guardTwoFails, hlen, h.n, h.cur]
  have hvalue : e.value = d.value := by simp only [Scratch.value, h.payload, h.cur, hlen]
  simp only [walkRecord, hguard, hvalue, htype, hlen]
  split
  · exact .some (h.raise _)
  · exact rel_bind_same fun v => rel_bind (dispatch_same h d.tlvType v) fun _ _ hab =>
      .some (hab.advance _)

theorem tlvStep_same {d e : Scratch} (h : SameDecode d e) (nt : Word) :
    Option.Rel SameDecode (tlvStep nt d) (tlvStep nt e) := by
  have hleft : recordsLeft nt e = recordsLeft nt d := by simp only [recordsLeft, h.k]
  have hguard : guardOneFails e = guardOneFails d := by simp only [guardOneFails, h.n, h.cur]
  simp only [tlvStep, hleft, hguard]
  split
  · split
    · exact .some (h.raise _)
    · exact rel_bind (readRecordHeader_same h) fun _ _ hab => walkRecord_same hab
  · exact .some ⟨h.frame, h.n, h.cur, h.k, rfl, h.pf, h.draws⟩

theorem walkLoop_same {d e : Scratch} (h : SameDecode d e) (nt : Word) (fuel : Nat) :
    Option.Rel SameDecode (walkLoop nt fuel d) (walkLoop nt fuel e) := by
  induction fuel generalizing d e with
  | zero => exact .some h
  | succ fuel ih =>
    simp only [walkLoop, h.walking]
    split
    · exact rel_bind (tlvStep_same h nt) fun _ _ hab => ih hab
    · exact .some h

/-- Two states that differ in dead registers only: in `hdr`, unless it is valid, and in the scratch, but for
the count of NaN draws (log entry 6). -/
structure Alike (s s' : State) : Prop where
  params : s'.params = s.params
  st : s'.st = s.st
  buf : s'.buf = s.buf
  hdrValid : s'.hdrValid = s.hdrValid
  hdr : s.hdrValid = true → s'.hdr = s.hdr
  draws : s'.dec.draws = s.dec.draws
  evaluating : s'.evaluating = s.evaluating
  chunkOpen : s'.chunkOpen = s.chunkOpen
  events : s'.events = s.events
  outBeats : s'.outBeats = s.outBeats
  inputs : s'.inputs = s.inputs

/-- Writing any dead register leaves a state alike. -/
theorem alike_withDead {s : State} {h : Header} {d : Scratch} (hh : s.hdrValid = true → h = s.hdr)
    (hd : d.draws = s.dec.draws) : Alike s { s with hdr := h, dec := d } :=
  ⟨rfl, rfl, rfl, rfl, hh, hd, rfl, rfl, rfl, rfl, rfl⟩

theorem Alike.suspend {s s' : State} (h : Alike s s') : Alike s.suspend s'.suspend :=
  { h with evaluating := rfl }

theorem Alike.continueIn {s s' : State} (h : Alike s s') (st : SyncState) :
    Alike (s.continueIn st) (s'.continueIn st) :=
  { h with st := rfl, evaluating := rfl }

theorem Alike.dropBytes {s s' : State} (h : Alike s s') (m : Nat) :
    Alike (s.dropBytes m) (s'.dropBytes m) :=
  { h with buf := congrArg (List.drop m) h.buf }

theorem Alike.clearBuf {s s' : State} (h : Alike s s') : Alike s.clearBuf s'.clearBuf :=
  { h with buf := rfl }

theorem Alike.append {s s' : State} (h : Alike s s') (c : List Byte) :
    Alike (s.append c) (s'.append c) :=
  { h with buf := congrArg (· ++ c) h.buf }

theorem Alike.emit {s s' : State} (h : Alike s s') (e : Event) : Alike (s.emit e) (s'.emit e) :=
  { h with events := congrArg (· ++ [e]) h.events }

theorem Alike.offerBeats {s s' : State} (h : Alike s s') (bs : List Beat) :
    Alike (s.offerBeats bs) (s'.offerBeats bs) :=
  { h with outBeats := congrArg (· ++ bs) h.outBeats }

/-- Once a header is latched in both, nothing of an earlier one is left. -/
theorem Alike.latchHeader {s s' : State} (h : Alike s s') (g : Header) :
    Alike (s.latchHeader g) (s'.latchHeader g) :=
  { h with hdr := fun _ => rfl }

theorem Alike.withDec {s s' : State} (h : Alike s s') {d e : Scratch} (hd : e.draws = d.draws) :
    Alike (s.withDec d) (s'.withDec e) :=
  { h with draws := hd }

theorem Alike.setHdrValid {s s' : State} (h : Alike s s') {b : Bool} (hb : b = true → s'.hdr = s.hdr) :
    Alike (s.setHdrValid b) (s'.setHdrValid b) :=
  { h with hdrValid := rfl, hdr := hb }

theorem Alike.raiseSyncAbandon {s s' : State} (h : Alike s s') :
    Alike s.raiseSyncAbandon s'.raiseSyncAbandon := by
  rw [State.raiseSyncAbandon, State.raiseSyncAbandon, h.buf]
  exact (h.emit _).clearBuf.suspend

theorem Alike.raiseBadHeader {s s' : State} (h : Alike s s') (hhdr : s'.hdr = s.hdr) :
    Alike s.raiseBadHeader s'.raiseBadHeader := by
  rw [State.raiseBadHeader, State.raiseBadHeader, h.buf, hhdr]
  exact ((h.emit _).clearBuf.setHdrValid fun _ => hhdr).continueIn _

/-- The event and the beats of a frame carry its Parsed Frame and no other register (R251, R254). -/
theorem Alike.emitFrame {s s' : State} (h : Alike s s') (hpf : s'.dec.pf = s.dec.pf) :
    Alike s.emitFrame s'.emitFrame := by
  rw [State.emitFrame, State.emitFrame, hpf]
  exact (h.emit _).offerBeats _

/-- A frame's decode begins by writing what it reads (R157, R171), so it ends in the same Parsed Frame. -/
theorem frameAssemble_alike {s s' : State} (h : Alike s s') (f : List Byte) :
    Option.Rel (fun u u' => Alike u u' ∧ u'.dec.pf = u.dec.pf) (frameAssemble f s) (frameAssemble f s') := by
  refine rel_bind_same fun hd => ?_
  have hbegin : SameDecode (s.dec.begin f hd) (s'.dec.begin f hd) :=
    ⟨rfl, rfl, rfl, rfl, rfl, rfl, h.draws⟩
  exact rel_bind (walkLoop_same hbegin hd.numTlvs _) fun _ _ hab =>
    .some ⟨(h.latchHeader hd).withDec hab.draws, hab.pf⟩

theorem seekStep_alike {s s' : State} (h : Alike s s') : Alike (seekStep s) (seekStep s') := by
  unfold seekStep
  rw [h.buf, h.params]
  split
  · exact (h.dropBytes _).continueIn _
  · split
    · exact h.raiseSyncAbandon
    · exact h.suspend

/-- HDR writes the header before it reads it (R127, R128). -/
theorem hdrStep_alike {s s' : State} (h : Alike s s') : Option.Rel Alike (hdrStep s) (hdrStep s') := by
  unfold hdrStep
  rw [h.buf]
  split
  · exact .some h.suspend
  · refine rel_bind_same fun latched => .some ?_
    have hl := h.latchHeader latched
    split
    · exact (hl.setHdrValid fun _ => rfl).continueIn _
    · exact hl.raiseBadHeader rfl

/-- PAYLOAD reads `hdr`, so it needs a valid one; the frame it completes leaves none. -/
theorem payloadStep_alike {s s' : State} (h : Alike s s') (hv : s.hdrValid = true) :
    Option.Rel Alike (payloadStep s) (payloadStep s') := by
  unfold payloadStep
  rw [h.buf, h.hdr hv]
  split
  · exact .some h.suspend
  · refine rel_bind (frameAssemble_alike (h.dropBytes _) _) fun u u' ⟨hu, hpf⟩ => .some ?_
    exact ((hu.emitFrame hpf).setHdrValid fun hf => absurd hf Bool.false_ne_true).continueIn _

theorem loopStep_alike {s s' : State} (hc : Coherent s) (h : Alike s s') :
    Option.Rel Alike (loopStep s) (loopStep s') := by
  unfold loopStep
  rw [h.st]
  cases hst : s.st with
  | seekingSync => exact .some (seekStep_alike h)
  | readingHeader => exact hdrStep_alike h
  | readingPayload =>
    simp only [Coherent, hst] at hc
    exact payloadStep_alike h hc.1

theorem evalLoop_alike {s s' : State} (hc : Coherent s) (h : Alike s s') (fuel : Nat) :
    Option.Rel Alike (evalLoop fuel s) (evalLoop fuel s') := by
  induction fuel generalizing s s' with
  | zero => exact .some h
  | succ fuel ih =>
    simp only [evalLoop, h.evaluating]
    split
    · obtain ⟨t, ht, hct, -⟩ := loopStep_spec hc
      obtain ⟨t', ht', hrel⟩ := exists_of_rel (loopStep_alike hc h) ht
      rw [ht, ht']
      exact ih hct hrel
    · exact .some h

/-- An evaluation cannot tell apart two states that differ in dead registers only. -/
theorem evaluate_alike {s s' : State} (hc : Coherent s) (h : Alike s s') :
    Option.Rel Alike (evaluate s) (evaluate s') := by
  rw [evaluate, evaluate, evalFuel, evalFuel, h.buf, h.st]
  exact evalLoop_alike (coherent_continueIn hc) (h.continueIn _) _

theorem execPush_alike {s s' t : State} {chunk : List Byte} (hs : AtRest s) (h : Alike s s')
    (ht : execPush chunk s = .next t) : ∃ t', execPush chunk s' = .next t' ∧ Alike t t' := by
  obtain ⟨hev, hopen, hc, -⟩ := hs
  obtain ⟨hfit, he⟩ | ⟨-, he⟩ := execPush_cases chunk hev hopen
  · rw [he, orFault_eq_next] at ht
    obtain ⟨t', ht', hrel⟩ := exists_of_rel (evaluate_alike (coherent_append hc chunk) (h.append chunk)) ht
    have hfit' : s'.fits chunk = true := by rw [State.fits, h.params, h.buf]; exact hfit
    refine ⟨t', ?_, hrel⟩
    rw [execPush_eq (h.evaluating.trans hev) (h.chunkOpen.trans hopen) hfit', ht', orFault]
  · simp [he] at ht

/-- Settles O16, by a simulation: each step of the evaluation keeps `Alike`. -/
theorem deadRegistersDoNotMatter : Obligations.DeadRegistersDoNotMatter := by
  intro s t chunk h d hs hh hd ht
  obtain ⟨t', ht', hrel⟩ := execPush_alike hs (alike_withDead hh hd) ht
  exact ⟨t', ht', hrel.st, hrel.buf, hrel.hdrValid, hrel.hdr, hrel.events, hrel.outBeats, hrel.draws⟩

/-! ### The byte port -/

theorem run_succ_of_next {M : Host.Core} {k : Nat} {s t : M.State} (h : M.step s = .next t) :
    M.run (k + 1) s = M.run k t := by
  simp only [Host.Core.run, h]

theorem run_one {M : Host.Core} (s : M.State) : M.run 1 s = M.step s := by
  simp only [Host.Core.run]
  cases M.step s <;> rfl

/-- A byte that fits, offered at rest or inside a chunk, is accepted. -/
theorem step_byte_ready {s : State} (b : Byte) (last : Bool) (rest : List Input)
    (hev : s.evaluating = false)
    (hcap : ∀ cap, s.params.bufCap = some cap → s.buf.length + 1 ≤ cap) :
    step { s with inputs := .byte b last :: rest } =
      orFault (acceptByte b last { s with inputs := rest }) := by
  rw [step_byte (s := { s with inputs := .byte b last :: rest }) hev rfl]
  exact if_pos ((inReady_iff _).2 ⟨hev, hcap⟩)

/-- The bytes of a chunk, offered one by one: all appended, the chunk closed, then one evaluation. -/
theorem run_chunkBytes {chunk : List Byte} (hne : chunk ≠ []) {s : State} (rest : List Input)
    (hev : s.evaluating = false)
    (hcap : ∀ cap, s.params.bufCap = some cap → s.buf.length + chunk.length ≤ cap) :
    Host.Core.run Sys2Proof.core chunk.length { s with inputs := chunkBytes chunk ++ rest } =
      orFault (evaluate { s with inputs := rest, buf := s.buf ++ chunk, chunkOpen := false }) := by
  induction chunk generalizing s with
  | nil => exact absurd rfl hne
  | cons b bs ih =>
    have hroom : ∀ cap, s.params.bufCap = some cap → s.buf.length + 1 ≤ cap := fun cap hc => by
      have := hcap cap hc
      simp only [List.length_cons] at this
      omega
    cases bs with
    | nil => exact (run_one (M := core) _).trans (step_byte_ready b true rest hev hroom)
    | cons b' bs =>
      have hstep := step_byte_ready b false (chunkBytes (b' :: bs) ++ rest) hev hroom
      refine (run_succ_of_next (M := core) hstep).trans ?_
      have hih := ih (List.cons_ne_nil _ _)
        (s := { s with buf := s.buf ++ [b], chunkOpen := true }) hev fun cap hc => by
          have := hcap cap hc
          simp only [List.length_cons, List.length_append, List.length_nil] at this ⊢
          omega
      rw [List.append_assoc] at hih
      exact hih

/-- Settles O56: both are one evaluation of the state with the chunk appended. -/
theorem bytePortIsPush : Obligations.BytePortIsPush := by
  intro s chunk rest hne hev hopen hcap
  rw [run_chunkBytes hne rest hev hcap]
  show _ = execPush chunk { s with inputs := rest }
  rw [execPush_eq (s := { s with inputs := rest }) hev hopen (fits_iff.2 hcap), State.append, ← hopen]

end Sys2Proof.Machine
end

section
/-! The buffer as a memory: no read outside a view (R51), the refusal and the stall at the capacity (R53). -/

namespace Sys2Proof.Machine

/-! ### No fault -/

/-- An operation that has an answer does not fault (R51). -/
theorem orFault_ne_fault {o : Option State} {t : State} (h : o = some t) (f : Fault) :
    orFault o ≠ .fault f := by
  simp [orFault_eq_next.2 h]

theorem evaluate_ne_fault {s : State} (hc : Coherent s) (f : Fault) : orFault (evaluate s) ≠ .fault f := by
  obtain ⟨t, ht, -⟩ := evaluate_spec hc
  exact orFault_ne_fault ht f

theorem execPush_ne_fault {s : State} (hc : Coherent s) (chunk : List Byte) (f : Fault) :
    execPush chunk s ≠ .fault f := by
  by_cases hbusy : s.evaluating = true ∨ s.chunkOpen = true
  · simp [execPush, hbusy]
  · simp only [not_or, Bool.not_eq_true] at hbusy
    obtain ⟨-, he⟩ | ⟨-, he⟩ := execPush_cases chunk hbusy.1 hbusy.2
    · rw [he]
      exact evaluate_ne_fault (coherent_append hc chunk) f
    · simp [he]

/-- The outside can call RESET, which reads nothing, and PUSH (R80). -/
theorem runSelected_ne_fault {s : State} (hc : Coherent s) {sel : Selector}
    (hext : (Input.select sel).external = true) (f : Fault) : runSelected sel s ≠ .fault f := by
  cases sel with
  | rst => simp [runSelected, decode, exec, execReset]
  | chunk bytes => exact execPush_ne_fault hc bytes f
  | _ => simp [Input.external] at hext

theorem offerByte_ne_fault {s : State} (hc : Coherent s) (b : Byte) (last : Bool) (rest : List Input)
    (f : Fault) : offerByte b last rest s ≠ .fault f := by
  obtain ⟨-, he⟩ | ⟨-, -, he⟩ | ⟨-, -, he⟩ := offerByte_cases b last rest s
  · simp [he]
  · simp [he]
  · rw [he]
    exact evaluate_ne_fault (s := { s with inputs := rest, buf := s.buf ++ [b], chunkOpen := false })
      (coherent_append hc [b]) f

/-- Settles O5: of the invariant a step needs that the state is coherent, inside an evaluation and at rest,
and that the next input is external, which excludes the inner operations. -/
theorem stepNeverFaults : Obligations.StepNeverFaults := by
  intro s f hs
  obtain ⟨hext, -, hc, -⟩ := hs
  cases he : s.evaluating with
  | true =>
    obtain ⟨t, ht, -⟩ := loopStep_spec hc
    rw [step_evaluating he]
    exact orFault_ne_fault ht f
  | false =>
    cases hin : s.inputs with
    | nil => simp [step, he, hin]
    | cons i rest =>
      have hi : i.external = true := hext i (hin ▸ List.mem_cons_self)
      cases i with
      | select sel =>
        rw [step_select he hin]
        exact runSelected_ne_fault (s := { s with inputs := rest }) hc hi f
      | streamAt a => simp [Input.external] at hi
      | byte b last =>
        rw [step_byte he hin]
        exact offerByte_ne_fault hc b last rest f
      | outReady => simp [step_outReady he hin]
      | overlap a b => simp [step, he, hin]

/-! ### The capacity -/

/-- Settles O8: of the two things a PUSH outside a call can do, a chunk that does not fit leaves the refusal. -/
theorem pushBeyondCapacityIsRefused : Obligations.PushBeyondCapacityIsRefused := by
  intro s chunk cap he ho hcap hlt
  obtain ⟨hfit, -⟩ | ⟨-, href⟩ := execPush_cases chunk he ho
  · exact absurd (fits_iff.1 hfit cap hcap) (Nat.not_le_of_lt hlt)
  · exact href

/-- A full buffer takes `in_ready` away (R53). -/
theorem not_inReady_of_full {s : State} (hfull : s.params.bufCap = some s.buf.length) :
    ¬ s.inReady = true := fun hready =>
  Nat.not_succ_le_self _ (((inReady_iff s).1 hready).2 _ hfull)

/-- Settles O57: without `in_ready` the port holds the byte back (R318). -/
theorem fullBufferStallsThePort : Obligations.FullBufferStallsThePort := by
  intro s data last rest he hin hfull
  rw [step_byte he hin, offerByte, if_neg (not_inReady_of_full hfull)]

end Sys2Proof.Machine
end

section
/-! The encoding: each decoder accepts exactly what the encoder writes (R82 to R89, R94, R95), and from that the
two round trips. -/

namespace Sys2Proof.Machine

/-! ### The layouts, both ways

A layout's fields stand at the head of the bytes they were read from; with a bound on the length, they are the
whole of it. -/

theorem eq_of_eq_append_drop {n : Nat} {v w : List Byte} (h : v = w ++ v.drop n) (hl : v.length ≤ n) : v = w := by
  rwa [List.drop_eq_nil_of_le hl, List.append_nil] at h

theorem u32le_only_iff {v : List Byte} {w : Word} : u32le v 0 = some w ∧ v.length ≤ 4 ↔ v = le32 w := by
  constructor
  · rintro ⟨hw, hl⟩
    exact eq_of_eq_append_drop (drop_of_u32le hw) hl
  · rintro rfl
    exact ⟨u32le_of_le32 w, Nat.le_refl _⟩

theorem eq_append_drop_of_readRawPoint {v : List Byte} {r : RawPoint} (h : readRawPoint v = some r) :
    v = rawPointBytes r ++ v.drop 10 := by
  simp only [readRawPoint, Option.bind_eq_bind, Option.bind_eq_some_iff, Option.pure_def,
    Option.some.injEq] at h
  obtain ⟨x, hx, y, hy, z, hz, d, hd, s, hs, n, hn, rfl⟩ := h
  calc v = v.drop 0 := rfl
    _ = _ := by
      rw [drop_of_u16le hx, drop_of_u16le hy, drop_of_u16le hz, drop_of_u16le hd, drop_of_u8 hs, drop_of_u8 hn]
      rfl

theorem readRawPoint_only_iff {v : List Byte} {r : RawPoint} :
    readRawPoint v = some r ∧ v.length ≤ 10 ↔ v = rawPointBytes r := by
  constructor
  · rintro ⟨hr, hl⟩
    exact eq_of_eq_append_drop (eq_append_drop_of_readRawPoint hr) hl
  · rintro rfl
    exact ⟨readRawPoint_rawPointBytes r, Nat.le_refl _⟩

theorem eq_append_drop_of_readUnits {v : List Byte} {u : Units} {c : Word} (hu : readUnits v = some u)
    (hc : u32le v 16 = some c) : v = unitsBytes u c ++ v.drop 20 := by
  simp only [readUnits, Option.bind_eq_bind, Option.bind_eq_some_iff, Option.pure_def,
    Option.some.injEq] at hu
  obtain ⟨x, hx, d, hd, s, hs, n, hn, rfl⟩ := hu
  calc v = v.drop 0 := rfl
    _ = _ := by
      rw [drop_of_u32le hx, drop_of_u32le hd, drop_of_u32le hs, drop_of_u32le hn, drop_of_u32le hc]
      rfl

theorem readUnits_only_iff {v : List Byte} {u : Units} {c : Word} :
    readUnits v = some u ∧ u32le v 16 = some c ∧ v.length ≤ 20 ↔ v = unitsBytes u c := by
  constructor
  · rintro ⟨hu, hc, hl⟩
    exact eq_of_eq_append_drop (eq_append_drop_of_readUnits hu hc) hl
  · rintro rfl
    exact ⟨readUnits_unitsBytes u c, readCounts_unitsBytes u c, Nat.le_refl _⟩

/-- The magic word is not read into a register (R151), so it is asked for beside the fields. -/
theorem eq_append_drop_of_readHeader {v : List Byte} {h : Header} (hm : v.take 8 = Config.magic)
    (hh : readHeader v = some h) : v = headerBytes h ++ v.drop 40 := by
  simp only [readHeader, Option.bind_eq_bind, Option.bind_eq_some_iff, Option.pure_def,
    Option.some.injEq] at hh
  obtain ⟨f1, h1, f2, h2, f3, h3, f4, h4, f5, h5, f6, h6, f7, h7, f8, h8, rfl⟩ := hh
  calc v = Config.magic ++ v.drop 8 := by rw [← hm, List.take_append_drop]
    _ = _ := by
      rw [drop_of_u32le h1, drop_of_u32le h2, drop_of_u32le h3, drop_of_u32le h4, drop_of_u32le h5,
        drop_of_u32le h6, drop_of_u32le h7, drop_of_u32le h8]
      rfl

theorem readHeader_only_iff {v : List Byte} {h : Header} :
    v.take 8 = Config.magic ∧ readHeader v = some h ∧ v.length ≤ 40 ↔ v = headerBytes h := by
  constructor
  · rintro ⟨hm, hh, hl⟩
    exact eq_of_eq_append_drop (eq_append_drop_of_readHeader hm hh) hl
  · rintro rfl
    exact ⟨rfl, readHeader_headerBytes h, Nat.le_refl _⟩

theorem eq_append_drop_of_readStats {v : List Byte} {t : Stats} {p : BitVec 64} (ht : readStats v = some t)
    (hp : u64le v 8 = some p) : v = statsBytes t p ++ v.drop 24 := by
  simp only [readStats, Option.bind_eq_bind, Option.bind_eq_some_iff, Option.pure_def,
    Option.some.injEq] at ht
  obtain ⟨a, ha, b, hb, rx, hrx, tx, htx, pm, hpm, dig, hdig, rfl⟩ := ht
  calc v = v.drop 0 := rfl
    _ = _ := by
      rw [drop_of_u32le ha, drop_of_u32le hb, drop_of_u64le hp, drop_of_u16le hrx, drop_of_u16le htx,
        drop_of_u16le hpm, drop_of_u16le hdig]
      rfl

/-- The bytes from offset 24 on are an operand of the layout, so this one has no bound on the length. -/
theorem readStats_iff {v rest : List Byte} {t : Stats} {p : BitVec 64} :
    readStats v = some t ∧ u64le v 8 = some p ∧ v.drop 24 = rest ↔ v = statsBytes t p ++ rest := by
  constructor
  · rintro ⟨ht, hp, rfl⟩
    exact eq_append_drop_of_readStats ht hp
  · rintro rfl
    exact ⟨readStats_statsBytes t p rest, readPower_statsBytes t p rest, drop_statsBytes t p rest⟩

/-! ### A record in a stream -/

theorem splitRecord_recordBytes_append (type : Word) {v : List Byte} (rest : List Byte) (hv : v.length < 2 ^ 31) :
    splitRecord (recordBytes type v ++ rest) = .ok (type, v, rest) := by
  have htype : u32le (recordBytes type v ++ rest) 0 = some type := by
    simpa [recordBytes] using u32le_le32 [] (le32 (BitVec.ofNat 32 v.length) ++ (v ++ rest)) type rfl
  have hlen : u32le (recordBytes type v ++ rest) 4 = some (BitVec.ofNat 32 v.length) := by
    simpa [recordBytes] using u32le_le32 (le32 type) (v ++ rest) (BitVec.ofNat 32 v.length) rfl
  have hdrop : (recordBytes type v ++ rest).drop 8 = v ++ rest := rfl
  have hsize : (recordBytes type v ++ rest).length = 8 + (v.length + rest.length) := by
    simp only [recordBytes, List.length_append, le32_length]
    omega
  obtain ⟨hnat, hint⟩ := lengthWord hv
  simp only [splitRecord, htype, hlen, hdrop, hsize, hnat, hint]
  rw [if_neg (by omega), List.take_left, List.drop_left]

/-- What guard 2 lets through has a length word that states its length (R176). -/
theorem recordBytes_of_splitRecord {bytes v rest : List Byte} {type : Word}
    (h : splitRecord bytes = .ok (type, v, rest)) : v.length < 2 ^ 31 ∧ bytes = recordBytes type v ++ rest := by
  unfold splitRecord at h
  split at h
  case h_2 => cases h
  case h_1 ty len hty hlen =>
    split at h
    · cases h
    next hguard =>
      cases h
      have hbound := lt_length_of_u32le hlen
      have hnat := toNat_eq_of_toInt_nonneg (w := len) (by omega)
      have hv : ((bytes.drop 8).take len.toNat).length = len.toNat := by
        simp only [List.length_take, List.length_drop]
        omega
      refine ⟨by rw [hv]; have := BitVec.toInt_lt (x := len); omega, ?_⟩
      rw [recordBytes, hv, BitVec.ofNat_toNat, BitVec.setWidth_eq, List.append_assoc, List.take_append_drop,
        List.append_assoc]
      calc bytes = bytes.drop 0 := rfl
        _ = _ := by rw [drop_of_u32le hty, drop_of_u32le hlen]

/-- Settles O53: the two words are read back, and the length word says where the value ends. -/
theorem recordSplitsFromAStream : Obligations.RecordSplitsFromAStream :=
  fun type _ rest hv => splitRecord_recordBytes_append type rest hv

/-! ### What each decoder accepts -/

theorem encodableLength_iff {v : List Byte} : encodableLength v = true ↔ v.length < 2 ^ 31 := decide_eq_true_iff

theorem registeredType_eq_false_iff {type : Word} : registeredType type = false ↔
    type ≠ Config.typePoints ∧ type ≠ Config.typeRange ∧ type ≠ Config.typeStats := by
  simp [registeredType, and_assoc]

theorem decodeState_eq_ok_iff {code : BitVec 2} {i : Instr} : decodeState code = .ok i ↔
    (code = 0 ∧ i = .seek) ∨ (code = 1 ∧ i = .hdr) ∨ (code = 2 ∧ i = .payload) := by
  have hcode : code = 0 ∨ code = 1 ∨ code = 2 ∨ code = 3 := by
    revert code
    decide
  obtain rfl | rfl | rfl | rfl := hcode <;> simp [decodeState, eq_comm]

theorem decodeStream_eq_ok_iff {window : List Byte} {i : Instr} :
    decodeStream window = .ok i ↔ window = Config.magic ∧ i = .frame := by
  by_cases h : window = Config.magic <;> simp [decodeStream, h, eq_comm]

theorem decodeFrameView_eq_ok_iff {f : List Byte} {i : Instr} :
    decodeFrameView f = .ok i ↔ (Instr.frameAssemble f).wf = true ∧ i = .frameAssemble f := by
  simp only [Instr.wf, Bool.and_eq_true, decide_eq_true_iff]
  by_cases h : Config.headerLen < f.length ∧ f.length < Config.pktLenHi <;> simp [decodeFrameView, h, eq_comm]

/-- Exactly one record, as the format `tlv` and the layout of R84 both ask: the operation is made of its type and
its value. -/
def decodeWhole (mk : Word → List Byte → Instr) (bytes : List Byte) : Except Reject Instr :=
  match splitRecord bytes with
  | .ok (type, v, []) => .ok (mk type v)
  | .ok _ => .error .trailingBytes
  | .error r => .error r

theorem decodeWhole_eq_ok_iff {mk : Word → List Byte → Instr} {bytes : List Byte} {i : Instr} :
    decodeWhole mk bytes = .ok i ↔
      ∃ type v, v.length < 2 ^ 31 ∧ bytes = recordBytes type v ∧ i = mk type v := by
  constructor
  · intro h
    unfold decodeWhole at h
    split at h
    case h_1 type v hsplit =>
      obtain ⟨hv, hbytes⟩ := recordBytes_of_splitRecord hsplit
      cases h
      exact ⟨type, v, hv, hbytes.trans (List.append_nil _), rfl⟩
    all_goals cases h
  · rintro ⟨type, v, hv, rfl, rfl⟩
    have hsplit := splitRecord_recordBytes_append type [] hv
    rw [List.append_nil] at hsplit
    simp only [decodeWhole, hsplit]

theorem decodeRecord_eq_ok_iff {bytes : List Byte} {i : Instr} : decodeRecord bytes = .ok i ↔
    ∃ type v, v.length < 2 ^ 31 ∧ bytes = recordBytes type v ∧ i = decodeType type v :=
  decodeWhole_eq_ok_iff

theorem decodeLayout_tlvRecord_eq_ok_iff {bytes : List Byte} {i : Instr} :
    decodeLayout .tlvRecord bytes = .ok i ↔
      ∃ type v, v.length < 2 ^ 31 ∧ bytes = recordBytes type v ∧ i = .layoutTlvRecord type v :=
  decodeWhole_eq_ok_iff

theorem exactSize_map_eq_ok_iff {α : Type} {size : Nat} {bytes : List Byte} {o : Option α} {mk : α → Instr}
    {i : Instr} :
    exactSize size bytes (o.map mk) = .ok i ↔ ∃ a, (o = some a ∧ bytes.length ≤ size) ∧ i = mk a := by
  rw [exactSize_ok, Option.map_eq_some_iff]
  constructor
  · rintro ⟨⟨a, ha, rfl⟩, hl⟩
    exact ⟨a, ⟨ha, hl⟩, rfl⟩
  · rintro ⟨a, ⟨ha, hl⟩, rfl⟩
    exact ⟨⟨a, ha, rfl⟩, hl⟩

theorem decodePointRecord_eq_ok_iff {bytes : List Byte} {i : Instr} : decodePointRecord bytes = .ok i ↔
    ∃ r, bytes = rawPointBytes r ∧ i = .pointDecompress r := by
  simp only [decodePointRecord, exactSize_map_eq_ok_iff, Config.pointRecLen, readRawPoint_only_iff]

theorem decodeLayout_compactPoint_eq_ok_iff {bytes : List Byte} {i : Instr} :
    decodeLayout .compactPoint bytes = .ok i ↔ ∃ r, bytes = rawPointBytes r ∧ i = .layoutCompactPoint r := by
  simp only [decodeLayout, exactSize_map_eq_ok_iff, Config.pointRecLen, readRawPoint_only_iff]

theorem decodeLayout_rangeBin_eq_ok_iff {bytes : List Byte} {i : Instr} :
    decodeLayout .rangeBin bytes = .ok i ↔ ∃ w, bytes = le32 w ∧ i = .layoutRangeBin w := by
  simp only [decodeLayout, exactSize_map_eq_ok_iff, Config.rangeBinLen, u32le_only_iff]

theorem decodeLayout_frameHeader_eq_ok_iff {bytes : List Byte} {i : Instr} :
    decodeLayout .frameHeader bytes = .ok i ↔ ∃ h, bytes = headerBytes h ∧ i = .layoutFrameHeader h := by
  simp only [decodeLayout, ← readHeader_only_iff, Config.magicLen, Config.headerLen]
  by_cases hm : bytes.take 8 = Config.magic
  · simp only [hm, if_true, true_and, exactSize_map_eq_ok_iff]
  · simp only [hm, if_false, false_and, exists_false, reduceCtorEq]

theorem decodeLayout_pointUnitHeader_eq_ok_iff {bytes : List Byte} {i : Instr} :
    decodeLayout .pointUnitHeader bytes = .ok i ↔
      ∃ u c, bytes = unitsBytes u c ∧ i = .layoutPointUnitHeader u c := by
  simp only [decodeLayout, exactSize_ok, Option.bind_eq_bind, Option.bind_eq_some_iff, Option.pure_def,
    Option.some.injEq, Config.unitHdrLen, ← readUnits_only_iff]
  constructor
  · rintro ⟨⟨u, hu, c, hc, rfl⟩, hl⟩
    exact ⟨u, c, ⟨hu, hc, hl⟩, rfl⟩
  · rintro ⟨u, c, ⟨hu, hc, hl⟩, rfl⟩
    exact ⟨⟨u, hu, c, hc, rfl⟩, hl⟩

theorem decodeLayout_stats_eq_ok_iff {bytes : List Byte} {i : Instr} :
    decodeLayout .stats bytes = .ok i ↔
      ∃ t p rest, bytes = statsBytes t p ++ rest ∧ i = .layoutStats t p rest := by
  simp only [decodeLayout, ← readStats_iff, Config.statsMinLen]
  constructor
  · intro h
    split at h
    next t p ht hp =>
      cases h
      exact ⟨t, p, _, ⟨ht, hp, rfl⟩, rfl⟩
    next => cases h
  · rintro ⟨t, p, rest, ⟨ht, hp, rfl⟩, rfl⟩
    simp only [ht, hp]

/-! ### A diagnostic beat -/

/-- The upper and the lower half of `diag_info` (R256). -/
theorem halves_of_append (hi lo : Word) :
    (hi ++ lo : BitVec 64).extractLsb' 32 32 = hi ∧ (hi ++ lo : BitVec 64).extractLsb' 0 32 = lo :=
  append_injective (dword_of_words (hi ++ lo))

theorem encodableCount_iff {n : Nat} : encodableCount n = true ↔ n < 2 ^ 32 := decide_eq_true_iff

theorem toNat_countWord {n : Nat} (h : encodableCount n = true) : (BitVec.ofNat 32 n).toNat = n :=
  Nat.mod_eq_of_lt (encodableCount_iff.1 h)

/-- A count that fits its half of `diag_info` is read back from it. -/
theorem decodeDiag_encodeDiag {d : Diag} (h : (Instr.emitDiag d).wf = true) :
    decodeDiag (encodeDiag d).1 (encodeDiag d).2 = .ok (.emitDiag d) := by
  cases d with
  | syncAbandon dropped =>
    obtain ⟨hhi, hlo⟩ := halves_of_append 0 (BitVec.ofNat 32 dropped)
    simp only [encodeDiag, decodeDiag, hhi, hlo, toNat_countWord h]
    rfl
  | badHeader len dropped =>
    obtain ⟨hhi, hlo⟩ := halves_of_append len (BitVec.ofNat 32 dropped)
    simp only [encodeDiag, decodeDiag, hhi, hlo, toNat_countWord h, if_true]

/-- Both halves of `diag_info` are told: the upper one is the rejected length, or zero where there is none. -/
theorem encodeDiag_of_decodeDiag {kind : BitVec 1} {info : BitVec 64} {i : Instr}
    (h : decodeDiag kind info = .ok i) : ∃ d, i = .emitDiag d ∧ (Instr.emitDiag d).wf = true ∧
      encodeDiag d = (kind, info) := by
  have hcount : encodableCount (info.extractLsb' 0 32).toNat = true :=
    encodableCount_iff.2 (info.extractLsb' 0 32).isLt
  unfold decodeDiag at h
  split at h
  next hkind =>
    cases h
    refine ⟨_, rfl, hcount, ?_⟩
    rw [encodeDiag, BitVec.ofNat_toNat, BitVec.setWidth_eq, dword_of_words, hkind]
  next hkind =>
    split at h
    next hhi =>
      cases h
      refine ⟨_, rfl, hcount, ?_⟩
      rw [encodeDiag, BitVec.ofNat_toNat, BitVec.setWidth_eq, ← hhi, dword_of_words,
        (BitVec.eq_zero_or_eq_one kind).resolve_right hkind]
      rfl
    next => cases h

/-! ### The rows of the format `tlv` -/

/-- The row a type selects is well-formed and is written out with that type: the three registered types are no
operand of DEC_SKIP (R85). -/
theorem decodeType_wf_encode (type : Word) {v : List Byte} (hv : v.length < 2 ^ 31) :
    (decodeType type v).wf = true ∧ encode (decodeType type v) = .tlv (recordBytes type v) := by
  have hlen := encodableLength_iff.2 hv
  by_cases h1 : type = Config.typePoints
  · subst h1
    exact ⟨hlen, rfl⟩
  by_cases h2 : type = Config.typeRange
  · subst h2
    exact ⟨hlen, rfl⟩
  by_cases h3 : type = Config.typeStats
  · subst h3
    exact ⟨hlen, rfl⟩
  have hreg := registeredType_eq_false_iff.2 ⟨h1, h2, h3⟩
  rw [decodeType, if_neg h1, if_neg h2, if_neg h3]
  exact ⟨by simp only [Instr.wf, hreg, hlen, Bool.not_false, Bool.and_self], rfl⟩

theorem decodeType_of_not_registered {type : Word} (v : List Byte) (h : registeredType type = false) :
    decodeType type v = .decSkip type v := by
  obtain ⟨h1, h2, h3⟩ := registeredType_eq_false_iff.1 h
  rw [decodeType, if_neg h1, if_neg h2, if_neg h3]

/-- A record that can be written out decodes to the row of its type. -/
theorem decode_tlv_recordBytes (type : Word) {v : List Byte} (h : encodableLength v = true) :
    decode (.tlv (recordBytes type v)) = .ok (decodeType type v) :=
  decodeRecord_eq_ok_iff.2 ⟨type, v, encodableLength_iff.1 h, rfl, rfl⟩

/-! ### The round trips -/

theorem decode_encode {i : Instr} (h : i.wf = true) : decode (encode i) = .ok i := by
  cases i with
  | reset => rfl
  | push chunk => rfl
  | seek => rfl
  | hdr => rfl
  | payload => rfl
  | frame => rfl
  | frameAssemble f => exact decodeFrameView_eq_ok_iff.2 ⟨h, rfl⟩
  | tlvStep => rfl
  | decPoints v => exact decode_tlv_recordBytes _ h
  | decRange v => exact decode_tlv_recordBytes _ h
  | decStats v => exact decode_tlv_recordBytes _ h
  | decSkip type v =>
    simp only [Instr.wf, Bool.and_eq_true, Bool.not_eq_true'] at h
    obtain ⟨hreg, hlen⟩ := h
    exact (decode_tlv_recordBytes type hlen).trans (congrArg _ (decodeType_of_not_registered v hreg))
  | pointDecompress r => exact decodePointRecord_eq_ok_iff.2 ⟨r, rfl, rfl⟩
  | emitFrame => rfl
  | emitDiag d => exact decodeDiag_encodeDiag h
  | layoutFrameHeader hd => exact decodeLayout_frameHeader_eq_ok_iff.2 ⟨hd, rfl, rfl⟩
  | layoutTlvRecord type v => exact decodeLayout_tlvRecord_eq_ok_iff.2 ⟨type, v, encodableLength_iff.1 h, rfl, rfl⟩
  | layoutPointUnitHeader u c => exact decodeLayout_pointUnitHeader_eq_ok_iff.2 ⟨u, c, rfl, rfl⟩
  | layoutCompactPoint r => exact decodeLayout_compactPoint_eq_ok_iff.2 ⟨r, rfl, rfl⟩
  | layoutRangeBin w => exact decodeLayout_rangeBin_eq_ok_iff.2 ⟨w, rfl, rfl⟩
  | layoutStats t p rest => exact decodeLayout_stats_eq_ok_iff.2 ⟨t, p, rest, rfl, rfl⟩

/-- Settles O51, by cases on the operation, each row by what its format's decoder accepts. -/
theorem decodeOfEncodeIsTheInstruction : Obligations.DecodeOfEncodeIsTheInstruction :=
  fun _ h => decode_encode h

theorem encode_of_decodeLayout {kind : LayoutKind} {bytes : List Byte} {i : Instr}
    (h : decodeLayout kind bytes = .ok i) : i.wf = true ∧ encode i = .layout kind bytes := by
  cases kind with
  | frameHeader =>
    obtain ⟨hd, rfl, rfl⟩ := decodeLayout_frameHeader_eq_ok_iff.1 h
    exact ⟨rfl, rfl⟩
  | tlvRecord =>
    obtain ⟨type, v, hv, rfl, rfl⟩ := decodeLayout_tlvRecord_eq_ok_iff.1 h
    exact ⟨encodableLength_iff.2 hv, rfl⟩
  | pointUnitHeader =>
    obtain ⟨u, c, rfl, rfl⟩ := decodeLayout_pointUnitHeader_eq_ok_iff.1 h
    exact ⟨rfl, rfl⟩
  | compactPoint =>
    obtain ⟨r, rfl, rfl⟩ := decodeLayout_compactPoint_eq_ok_iff.1 h
    exact ⟨rfl, rfl⟩
  | rangeBin =>
    obtain ⟨w, rfl, rfl⟩ := decodeLayout_rangeBin_eq_ok_iff.1 h
    exact ⟨rfl, rfl⟩
  | stats =>
    obtain ⟨t, p, rest, rfl, rfl⟩ := decodeLayout_stats_eq_ok_iff.1 h
    exact ⟨rfl, rfl⟩

/-- Settles O52, by cases on the selector's format. -/
theorem encodeOfDecodeIsTheSelector : Obligations.EncodeOfDecodeIsTheSelector := by
  intro sel i h
  cases sel with
  | rst =>
    cases h
    exact ⟨rfl, rfl⟩
  | chunk bytes =>
    cases h
    exact ⟨rfl, rfl⟩
  | stCode code =>
    obtain ⟨rfl, rfl⟩ | ⟨rfl, rfl⟩ | ⟨rfl, rfl⟩ := decodeState_eq_ok_iff.1 h <;> exact ⟨rfl, rfl⟩
  | stream window =>
    obtain ⟨rfl, rfl⟩ := decodeStream_eq_ok_iff.1 h
    exact ⟨rfl, rfl⟩
  | frameView f =>
    obtain ⟨hwf, rfl⟩ := decodeFrameView_eq_ok_iff.1 h
    exact ⟨hwf, rfl⟩
  | walkStep =>
    cases h
    exact ⟨rfl, rfl⟩
  | tlv record =>
    obtain ⟨type, v, hv, rfl, rfl⟩ := decodeRecord_eq_ok_iff.1 h
    exact decodeType_wf_encode type hv
  | pointRecord bytes =>
    obtain ⟨r, rfl, rfl⟩ := decodePointRecord_eq_ok_iff.1 h
    exact ⟨rfl, rfl⟩
  | frameDone =>
    cases h
    exact ⟨rfl, rfl⟩
  | diag kind info =>
    obtain ⟨d, rfl, hwf, hd⟩ := encodeDiag_of_decodeDiag h
    exact ⟨hwf, by rw [encode, hd]⟩
  | layout kind bytes => exact encode_of_decodeLayout h

/-! ### The opcode table -/

/-- A table word that is written out for an operation decodes to it. -/
theorem decodeTableWord_of_encode {nbits w : Nat} {i : Instr} (hwf : i.wf = true)
    (h : tableSelector nbits w = encode i) : decodeTableWord nbits w = some i := by
  rw [decodeTableWord, h, decode_encode hwf]

/-- Settles O54: eight words are the encodings of their rows; the state code 3 is refused. -/
theorem tableWordsDecode : Obligations.TableWordsDecode :=
  ⟨decodeTableWord_of_encode rfl (by decide), decodeTableWord_of_encode rfl (by decide),
    decodeTableWord_of_encode rfl (by decide), decodeTableWord_of_encode rfl (by decide),
    decodeTableWord_of_encode rfl (by decide), decodeTableWord_of_encode rfl rfl,
    decodeTableWord_of_encode rfl rfl, decodeTableWord_of_encode rfl rfl, rfl⟩

end Sys2Proof.Machine
end

section
/-! The Frame Synchronizer, one step: what SEEK, HDR and PAYLOAD do on each side of their tests (R122 to R130),
and that a step of the machine runs the operation selected. -/

namespace Sys2Proof.Machine

variable {s : State}

/-! ### The step `st` selects -/

theorem loopStep_seekingSync (hst : s.st = .seekingSync) : loopStep s = some (seekStep s) := by
  simp only [loopStep, hst]

theorem loopStep_readingHeader (hst : s.st = .readingHeader) : loopStep s = hdrStep s := by
  simp only [loopStep, hst]

theorem loopStep_readingPayload (hst : s.st = .readingPayload) : loopStep s = payloadStep s := by
  simp only [loopStep, hst]

/-- The eight bytes that are the magic word select the frame start (R83). -/
theorem step_streamAt_magic {a : Nat} {rest : List Input} (he : s.evaluating = false)
    (hin : s.inputs = .streamAt a :: rest) (hm : (s.buf.drop a).take 8 = Config.magic) :
    step s = exec .frame { s with inputs := rest } := by
  have hdec : decode (.stream (s.window a)) = .ok .frame := decodeStream_eq_ok_iff.2 ⟨hm, rfl⟩
  simp only [step, he, hin, runSelected, hdec, Bool.false_eq_true, if_false]

/-- Settles O6: at rest by the kind of the next input, inside an evaluation by `st`. -/
theorem stepRunsTheSelectedOperation : Obligations.StepRunsTheSelectedOperation := by
  refine ⟨fun s sel rest i he hin hdec => ?_, fun s a rest he hin hm => step_streamAt_magic he hin hm,
    fun s he hst => ?_, fun s he hst => ?_, fun s he hst => ?_, fun s he hin => ?_⟩
  · simp only [step_select he hin, runSelected, hdec]
  · rw [step_evaluating he, loopStep_seekingSync hst]
    rfl
  · rw [step_evaluating he, loopStep_readingHeader hst]
    rfl
  · rw [step_evaluating he, loopStep_readingPayload hst]
    rfl
  · simp only [step, he, hin, Bool.false_eq_true, if_false]

/-! ### SEEK -/

theorem seekStep_of_match {i : Nat} (hi : firstMatch Config.magic s.buf = some i) :
    seekStep s = s.startFrameAt i := by
  simp only [seekStep, hi]

theorem seekStep_of_long (hn : firstMatch Config.magic s.buf = none)
    (hlt : s.params.syncAbandonThreshold < s.buf.length) : seekStep s = s.raiseSyncAbandon := by
  simp only [seekStep, hn, if_pos hlt]

theorem seekStep_of_short (hn : firstMatch Config.magic s.buf = none)
    (hle : s.buf.length ≤ s.params.syncAbandonThreshold) : seekStep s = s.suspend := by
  simp only [seekStep, hn, if_neg (Nat.not_lt_of_le hle)]

/-- Settles O17: the least offset of the magic word is the first match. -/
theorem seekStartsAtTheFirstMagic : Obligations.SeekStartsAtTheFirstMagic := fun _ _ hm hmin =>
  congrArg Host.Outcome.next (seekStep_of_match (firstMatch_eq_some.2 ⟨hm, hmin⟩))

/-- Settles O18: no offset of the magic word is no match, and the buffer is above the threshold. -/
theorem seekAbandonsALongBuffer : Obligations.SeekAbandonsALongBuffer := fun _ hn hlt =>
  congrArg Host.Outcome.next (seekStep_of_long (firstMatch_eq_none.2 hn) hlt)

/-- Settles O19: no offset of the magic word is no match, and the buffer is within the threshold. -/
theorem seekKeepsAShortBuffer : Obligations.SeekKeepsAShortBuffer := fun _ hn hle =>
  congrArg Host.Outcome.next (seekStep_of_short (firstMatch_eq_none.2 hn) hle)

/-! ### HDR -/

theorem length_of_readHeader {v : List Byte} {h : Header} (hh : readHeader v = some h) : 40 ≤ v.length := by
  simp only [readHeader, Option.bind_eq_bind, Option.bind_eq_some_iff] at hh
  obtain ⟨_, -, _, -, _, -, _, -, _, -, _, -, _, -, _, hlast, -⟩ := hh
  have := lt_length_of_u32le hlast
  omega

theorem hdrStep_of_short (hlen : s.buf.length < 40) : hdrStep s = some s.suspend := if_pos hlen

/-- HDR with 40 bytes, by the header they hold (R127, R128). -/
theorem hdrStep_of_header {h : Header} (hh : readHeader (s.buf.take 40) = some h) :
    hdrStep s = some (if headerOk h then ((s.latchHeader h).setHdrValid true).continueIn .readingPayload
      else (s.latchHeader h).raiseBadHeader) := by
  have hlen := length_of_readHeader hh
  rw [List.length_take] at hlen
  have h40 : ¬ s.buf.length < Config.headerLen := by
    simp only [Config.headerLen]
    omega
  simp only [hdrStep, if_neg h40]
  exact congrArg (· >>= _) hh

theorem hdrStep_of_accepted {h : Header} (hh : readHeader (s.buf.take 40) = some h)
    (hlo : 40 < h.totalPacketLen.toInt) (hhi : h.totalPacketLen.toInt < 10000) :
    hdrStep s = some (((s.latchHeader h).setHdrValid true).continueIn .readingPayload) := by
  rw [hdrStep_of_header hh, if_pos ((headerOk_iff h).2 ⟨hlo, hhi⟩)]

theorem hdrStep_of_rejected {h : Header} (hh : readHeader (s.buf.take 40) = some h)
    (hbad : h.totalPacketLen.toInt ≤ 40 ∨ 10000 ≤ h.totalPacketLen.toInt) :
    hdrStep s = some (s.latchHeader h).raiseBadHeader := by
  rw [hdrStep_of_header hh, if_neg fun hok => ?_]
  obtain ⟨hlo, hhi⟩ := (headerOk_iff h).1 hok
  omega

theorem readHeader_take_isSome {v : List Byte} (hlen : 40 ≤ v.length) : ∃ h, readHeader (v.take 40) = some h :=
  readHeader_isSome (by rw [List.length_take]; omega)

/-- Settles O21: HDR waits below 40 bytes, and accepts a length in range. -/
theorem hdrAcceptsALengthInRange : Obligations.HdrAcceptsALengthInRange := by
  refine ⟨fun s hlen => congrArg orFault (hdrStep_of_short hlen), fun s hlen => ?_⟩
  obtain ⟨h, hh⟩ := readHeader_take_isSome hlen
  exact ⟨h, hh, fun hlo hhi => congrArg orFault (hdrStep_of_accepted hh hlo hhi)⟩

/-- Settles O22: HDR rejects a length out of range. -/
theorem hdrRejectsALengthOutOfRange : Obligations.HdrRejectsALengthOutOfRange := by
  intro s hlen
  obtain ⟨h, hh⟩ := readHeader_take_isSome hlen
  exact ⟨h, hh, fun hbad => congrArg orFault (hdrStep_of_rejected hh hbad)⟩

/-! ### PAYLOAD -/

theorem payloadStep_of_short (hlt : (s.buf.length : Int) < s.hdr.totalPacketLen.toInt) :
    payloadStep s = some s.suspend := if_pos hlt

/-- Frame assembly reads its view and not the buffer (R58, R158). -/
theorem frameAssemble_withBuf (f : List Byte) (m : Memory) (s : State) :
    frameAssemble f { s with buf := m } = (frameAssemble f s).map ({ · with buf := m }) := by
  simp only [frameAssemble, Option.bind_eq_bind, Option.map_bind, Function.comp_def]
  rfl

/-- PAYLOAD with the whole frame there, by what FRAME_ASSEMBLE makes of it (R130). -/
theorem payloadStep_of_whole {u : State} {len : Nat} (hlen : s.hdr.totalPacketLen.toInt = len)
    (hle : len ≤ s.buf.length) (hu : frameAssemble (s.buf.take len) s = some u) :
    payloadStep s = some (({ u with buf := s.buf.drop len }.emitFrame.setHdrValid false).continueIn
      .seekingSync) := by
  have hwhole : ¬ (s.buf.length : Int) < len := by omega
  simp only [payloadStep, hlen, if_neg hwhole, Int.toNat_natCast, State.dropBytes, frameAssemble_withBuf, hu,
    Option.map_some, Option.bind_eq_bind, Option.bind_some, Option.pure_def]

/-- Settles O25: PAYLOAD waits below the latched length. -/
theorem payloadWaitsForTheFrame : Obligations.PayloadWaitsForTheFrame := fun _ hlt =>
  congrArg orFault (payloadStep_of_short hlt)

/-- Settles O26: frame assembly answers on the slice, and writes the header registers and the scratch only. -/
theorem payloadSlicesDecodesAndEmits : Obligations.PayloadSlicesDecodesAndEmits := by
  intro s len hlen hlo hhi hle
  obtain ⟨hd, d, -, -, hu, -⟩ := frameAssemble_total (f := s.buf.take len) s (by rw [List.length_take]; omega)
  exact ⟨_, congrArg orFault hu, congrArg orFault (payloadStep_of_whole hlen hle hu)⟩

end Sys2Proof.Machine
end

section
/-! The evaluation loop as a relation without fuel, PUSH as one evaluation, and what follows for PUSH: it returns at
rest (R136), is the steps `st` selects (R121), and where the stream is cut does not matter (R135). -/

namespace Sys2Proof.Machine

/-! ### Evaluations -/

/-- An evaluation in `s` ends in `t`: steps of the loop, up to the first that suspends (R121). -/
inductive Evaluates : State → State → Prop where
  | suspended {t : State} (hev : t.evaluating = false) : Evaluates t t
  | step {s s' t : State} (hev : s.evaluating = true) (hs : loopStep s = some s') (ht : Evaluates s' t) :
      Evaluates s t

theorem Evaluates.eq_of_not_evaluating {s t : State} (h : Evaluates s t) (hev : s.evaluating = false) :
    s = t := by
  cases h with
  | suspended => rfl
  | step hgo => exact absurd (hev.symm.trans hgo) Bool.false_ne_true

/-- The block is deterministic: an evaluation ends in one state only. -/
theorem Evaluates.unique {s t t' : State} (h : Evaluates s t) (h' : Evaluates s t') : t = t' := by
  induction h with
  | suspended hev => exact h'.eq_of_not_evaluating hev
  | step hev hs _ ih =>
    cases h' with
    | suspended hev' => exact absurd (hev'.symm.trans hev) Bool.false_ne_true
    | step _ hs' ht' =>
      cases hs.symm.trans hs'
      exact ih ht'

/-- An evaluation keeps the state coherent and leaves alone what each of its steps does. -/
theorem Evaluates.spec {s t : State} (h : Evaluates s t) (hc : Coherent s) : Coherent t ∧ LoopFrame s t := by
  induction h with
  | suspended => exact ⟨hc, .refl _⟩
  | step _ hs _ ih =>
    obtain ⟨u, hu, hcu, hfr, -⟩ := loopStep_spec hc
    cases hs.symm.trans hu
    obtain ⟨hct, hfr'⟩ := ih hcu
    exact ⟨hct, hfr.trans hfr'⟩

theorem evaluates_of_evalLoop {fuel : Nat} {s t : State} (h : evalLoop fuel s = some t)
    (ht : t.evaluating = false) : Evaluates s t := by
  induction fuel generalizing s with
  | zero =>
    cases h
    exact .suspended ht
  | succ fuel ih =>
    cases hev : s.evaluating with
    | false =>
      simp only [evalLoop, hev, Bool.false_eq_true, if_false] at h
      cases h
      exact .suspended ht
    | true =>
      simp only [evalLoop, hev, if_true, Option.bind_eq_bind, Option.bind_eq_some_iff] at h
      obtain ⟨s', hs, h⟩ := h
      exact .step hev hs (ih h)

/-- The fuel of `evaluate` is enough (R132), so `evaluate` is the relation. -/
theorem evaluate_eq_some_iff {s t : State} (hc : Coherent s) :
    evaluate s = some t ↔ Evaluates (s.continueIn s.st) t := by
  obtain ⟨u, hu, -, -, hev, -⟩ := evaluate_spec hc
  have hrel : Evaluates (s.continueIn s.st) u := evaluates_of_evalLoop hu hev
  rw [hu, Option.some_inj]
  exact ⟨fun h => h ▸ hrel, fun h => hrel.unique h⟩

/-- The state in which a PUSH of `chunk` begins its evaluation (R120). -/
def State.receive (chunk : List Byte) (s : State) : State := (s.append chunk).continueIn s.st

theorem coherent_receive {s : State} (hc : Coherent s) (chunk : List Byte) : Coherent (s.receive chunk) :=
  coherent_append hc chunk

/-- PUSH at rest answers `t` when the chunk fits and its evaluation ends in `t` (R120). -/
theorem execPush_eq_next_iff {s t : State} {chunk : List Byte} (hs : AtRest s) :
    execPush chunk s = .next t ↔ s.fits chunk = true ∧ Evaluates (s.receive chunk) t := by
  obtain ⟨hev, hopen, hc, -⟩ := hs
  have hiff : evaluate (s.append chunk) = some t ↔ Evaluates (s.receive chunk) t :=
    evaluate_eq_some_iff (coherent_append hc chunk)
  obtain ⟨hfit, he⟩ | ⟨hfit, he⟩ := execPush_cases chunk hev hopen
  · rw [he, orFault_eq_next, hiff, and_iff_right hfit]
  · simp [he, hfit]

/-- PUSH of a chunk that fits answers, at rest (R136, R34). -/
theorem execPush_total {s : State} {chunk : List Byte} (hs : AtRest s) (hfit : s.fits chunk = true) :
    ∃ t, execPush chunk s = .next t ∧ AtRest t ∧ LoopFrame (s.append chunk) t := by
  obtain ⟨hev, hopen, hc, -⟩ := hs
  obtain ⟨t, ht, hct, hset, hevt, hfr⟩ := evaluate_spec (coherent_append hc chunk)
  obtain ⟨-, -, hopent, -⟩ := id hfr
  exact ⟨t, by rw [execPush_eq hev hopen hfit, ht, orFault], ⟨hevt, hopent.trans hopen, hct, hset⟩, hfr⟩

/-- Settles O7: the evaluation of a coherent state ends settled, and its frame says what stays. -/
theorem pushAlwaysReturnsToRest : Obligations.PushAlwaysReturnsToRest := by
  intro s chunk hs hcap
  obtain ⟨t, ht, hrest, hp, hi, -, hes, -⟩ := execPush_total hs (fits_iff.2 hcap)
  exact ⟨t, ht, hrest, hp, hi, hes⟩

/-! ### The steps of the machine -/

/-- Each turn of the loop is a step of the machine (R121, R122). -/
theorem run_of_evalLoop {fuel : Nat} {s t : State} (h : evalLoop fuel s = some t) :
    ∃ k ≤ fuel, Host.Core.run Sys2Proof.core k s = .next t := by
  induction fuel generalizing s with
  | zero =>
    cases h
    exact ⟨0, Nat.le_refl _, rfl⟩
  | succ fuel ih =>
    cases hev : s.evaluating with
    | false =>
      simp only [evalLoop, hev, Bool.false_eq_true, if_false] at h
      cases h
      exact ⟨0, Nat.zero_le _, rfl⟩
    | true =>
      simp only [evalLoop, hev, if_true, Option.bind_eq_bind, Option.bind_eq_some_iff] at h
      obtain ⟨s', hs, h⟩ := h
      obtain ⟨k, hk, hrun⟩ := ih h
      have hstep : step s = .next s' := by rw [step_evaluating hev, hs, orFault]
      exact ⟨k + 1, Nat.succ_le_succ hk, (run_succ_of_next (M := core) hstep).trans hrun⟩

/-- Settles O10: the loop's fuel is the bound of R132, and each turn of the loop is a step. -/
theorem pushIteratesTheSelectedSteps : Obligations.PushIteratesTheSelectedSteps := by
  rintro s t chunk ⟨hev, hopen, -, -⟩ ht
  obtain ⟨-, he⟩ | ⟨-, he⟩ := execPush_cases chunk hev hopen
  · exact run_of_evalLoop (orFault_eq_next.1 (he.symm.trans ht))
  · cases he.symm.trans ht

/-! ### Chunks that change nothing but the buffer -/

/-- In a settled state the next step suspends: no step can make progress (R34, R134). -/
theorem loopStep_of_settled {s : State} (hs : Settled s) : loopStep s = some s.suspend := by
  cases hst : s.st with
  | seekingSync =>
    simp only [Settled, hst] at hs
    rw [loopStep_seekingSync hst, seekStep_of_short hs.1 hs.2]
  | readingHeader =>
    simp only [Settled, hst] at hs
    rw [loopStep_readingHeader hst, hdrStep_of_short (Nat.lt_succ_of_le hs)]
  | readingPayload =>
    simp only [Settled, hst] at hs
    rw [loopStep_readingPayload hst, payloadStep_of_short hs]

theorem State.suspend_eq_self {s : State} (hev : s.evaluating = false) : s.suspend = s := by
  rw [State.suspend, ← hev]

theorem evaluates_of_settled {s : State} (hev : s.evaluating = true) (hs : Settled s) :
    Evaluates s s.suspend :=
  .step hev (loopStep_of_settled hs) (.suspended rfl)

/-- A chunk after which the state is settled is appended, and nothing else happens. -/
theorem execPush_of_settled {s : State} {chunk : List Byte} (hs : AtRest s) (hfit : s.fits chunk = true)
    (hset : Settled (s.append chunk)) : execPush chunk s = .next (s.append chunk) := by
  have hend : Evaluates (s.receive chunk) (s.append chunk).suspend := evaluates_of_settled rfl hset
  rw [State.suspend_eq_self (s := s.append chunk) hs.1] at hend
  exact (execPush_eq_next_iff hs).2 ⟨hfit, hend⟩

/-- Settles O11: nothing is appended, and a state at rest is settled. -/
theorem emptyChunkChangesNothing : Obligations.EmptyChunkChangesNothing := by
  intro s hs hcap
  have hself : s.append [] = s := by rw [State.append, List.append_nil]
  obtain ⟨-, -, -, hset⟩ := id hs
  have h := execPush_of_settled (chunk := []) hs (fits_iff.2 hcap) (hself.symm ▸ hset)
  rwa [hself] at h

/-- Settles O12: with the chunk appended a waiting state is still settled. -/
theorem waitingStatesTakeAnyByte : Obligations.WaitingStatesTakeAnyByte := by
  intro s chunk hs hcap hwait
  refine execPush_of_settled hs (fits_iff.2 hcap) ?_
  obtain ⟨hst, hlen⟩ | ⟨hst, hlen⟩ := hwait
  · simp only [Settled, State.append_st, hst, State.append_buf, List.length_append]
    exact Nat.le_of_lt_succ hlen
  · simp only [Settled, State.append_st, hst, State.append_buf, State.append_hdr, List.length_append]
    exact hlen

/-- Settles O13: HDR rejects the header, and the emptied buffer leaves SEEK nothing to find. -/
theorem badHeaderLosesTheWholeBuffer : Obligations.BadHeaderLosesTheWholeBuffer := by
  intro s chunk h hs hst hcap hh hbad
  have hreject : loopStep (s.receive chunk) = some ((s.receive chunk).latchHeader h).raiseBadHeader :=
    (loopStep_readingHeader (s := s.receive chunk) hst).trans (hdrStep_of_rejected hh hbad)
  have hset : Settled ((s.receive chunk).latchHeader h).raiseBadHeader := ⟨rfl, Nat.zero_le _⟩
  have hpush := (execPush_eq_next_iff hs).2
    ⟨fits_iff.2 hcap, .step rfl hreject (evaluates_of_settled rfl hset)⟩
  obtain ⟨hev, -⟩ := hs
  refine hpush.trans (congrArg Host.Outcome.next ?_)
  rw [hev]
  rfl

/-! ### Where the stream is cut -/

/-- A diagnostic event shows among the diagnostics. -/
theorem diagnostics_append_diag_ne (es : List Event) (d : Diag) :
    diagnostics (es ++ [.diag d]) ≠ diagnostics es := by
  simp [diagnostics_append, diagnostics]

/-- Events only added, and no diagnostic event from beginning to end: none on either side of the middle. -/
theorem diagnostics_split {a b c : List Event} (hb : ∃ es, b = a ++ es) (hc : ∃ es, c = b ++ es)
    (h : diagnostics c = diagnostics a) :
    diagnostics b = diagnostics a ∧ diagnostics c = diagnostics b := by
  obtain ⟨es, rfl⟩ := hb
  obtain ⟨fs, rfl⟩ := hc
  simp only [diagnostics_append, List.append_assoc, List.append_right_eq_self, List.append_eq_nil_iff] at h
  obtain ⟨hes, hfs⟩ := h
  simp only [diagnostics_append, hes, hfs, List.append_nil, and_self]

/-- A step that goes on, and does the same with more bytes behind the buffer. -/
def GoesOn (s s' : State) : Prop :=
  s'.evaluating = true ∧ ∀ b, loopStep (s.append b) = some (s'.append b)

/-- More bytes behind do not move the first match (R124). -/
theorem goesOn_startFrameAt {s : State} {i : Nat} (hst : s.st = .seekingSync)
    (hi : firstMatch Config.magic s.buf = some i) : GoesOn s (s.startFrameAt i) := by
  have hle := firstMatch_lt hi
  refine ⟨rfl, fun b => ?_⟩
  rw [loopStep_seekingSync (s := s.append b) hst, seekStep_of_match (firstMatch_append hi b)]
  simp only [State.startFrameAt, State.dropBytes, State.append, State.continueIn,
    List.drop_append_of_le_length (show i ≤ s.buf.length by omega)]

theorem goesOn_accepted {s : State} {h : Header} (hst : s.st = .readingHeader) (hlen : 40 ≤ s.buf.length)
    (hh : readHeader (s.buf.take 40) = some h) (hok : headerOk h = true) :
    GoesOn s (((s.latchHeader h).setHdrValid true).continueIn .readingPayload) := by
  obtain ⟨hlo, hhi⟩ := (headerOk_iff h).1 hok
  refine ⟨rfl, fun b => ?_⟩
  rw [← List.take_append_of_le_length (l₂ := b) hlen] at hh
  exact (loopStep_readingHeader (s := s.append b) hst).trans (hdrStep_of_accepted (s := s.append b) hh hlo hhi)

theorem goesOn_frame {s u : State} {len : Nat} (hst : s.st = .readingPayload)
    (hlen : s.hdr.totalPacketLen.toInt = len) (hle : len ≤ s.buf.length)
    (hu : frameAssemble (s.buf.take len) s = some u) :
    GoesOn s (({ u with buf := s.buf.drop len }.emitFrame.setHdrValid false).continueIn .seekingSync) := by
  refine ⟨rfl, fun b => ?_⟩
  have hub : frameAssemble ((s.append b).buf.take len) (s.append b) = some { u with buf := s.buf ++ b } := by
    rw [State.append_buf, List.take_append_of_le_length hle, State.append, frameAssemble_withBuf, hu,
      Option.map_some]
  have hleb : len ≤ (s.append b).buf.length := by
    rw [State.append_buf, List.length_append]
    omega
  rw [loopStep_readingPayload (s := s.append b) hst, payloadStep_of_whole (s := s.append b) hlen hleb hub,
    State.append_buf, List.drop_append_of_le_length hle]
  rfl

/-- A step without a diagnostic event suspends or goes on. -/
theorem suspend_or_goesOn {s s' : State} (hc : Coherent s) (h : loopStep s = some s')
    (hquiet : diagnostics s'.events = diagnostics s.events) : s' = s.suspend ∨ GoesOn s s' := by
  cases hst : s.st with
  | seekingSync =>
    rw [loopStep_seekingSync hst] at h
    cases h
    obtain ⟨i, hi, he⟩ | ⟨-, -, he⟩ | ⟨-, -, he⟩ := seekStep_cases s
    · exact .inr (he ▸ goesOn_startFrameAt hst hi)
    · rw [he] at hquiet
      exact absurd hquiet (diagnostics_append_diag_ne _ _)
    · exact .inl he
  | readingHeader =>
    rw [loopStep_readingHeader hst] at h
    obtain ⟨-, he⟩ | ⟨hlen, hd, hh, ⟨hok, he⟩ | ⟨-, he⟩⟩ := hdrStep_cases s
    · exact .inl (Option.some_inj.1 (h.symm.trans he))
    · cases h.symm.trans he
      exact .inr (goesOn_accepted hst hlen hh hok)
    · cases h.symm.trans he
      exact absurd hquiet (diagnostics_append_diag_ne _ _)
  | readingPayload =>
    simp only [Coherent, hst] at hc
    obtain ⟨-, -, -, hlo, -, -⟩ := hc
    rw [loopStep_readingPayload hst] at h
    obtain ⟨len, hlen⟩ := Int.eq_ofNat_of_zero_le (a := s.hdr.totalPacketLen.toInt) (by omega)
    by_cases hlt : s.buf.length < len
    · exact .inl (Option.some_inj.1 (h.symm.trans (payloadStep_of_short (by omega))))
    · obtain ⟨hd, d, -, -, hu, -⟩ :=
        frameAssemble_total (f := s.buf.take len) s (by rw [List.length_take]; omega)
      cases h.symm.trans (payloadStep_of_whole hlen (Nat.le_of_not_lt hlt) hu)
      exact .inr (goesOn_frame hst hlen (Nat.le_of_not_lt hlt) hu)

/-- A chunk that comes in a suspended state goes on where the evaluation had suspended. -/
theorem receive_suspend {s : State} (hev : s.evaluating = true) (b : List Byte) :
    s.suspend.receive b = s.append b := by
  rw [State.receive, State.continueIn, ← hev]
  rfl

/-- Two chunks received at once are the second one behind the first. -/
theorem receive_append (s : State) (a b : List Byte) : (s.receive a).append b = s.receive (a ++ b) := by
  simp only [State.receive, State.append, State.continueIn, List.append_assoc]

/-- An evaluation without a diagnostic event, followed by a chunk `b`, is the evaluation of the state that had `b`
behind its buffer from the beginning (R135). -/
theorem Evaluates.append {s s1 t : State} {b : List Byte} (h : Evaluates s s1) (hc : Coherent s)
    (hev : s.evaluating = true) (hquiet : diagnostics s1.events = diagnostics s.events)
    (ht : Evaluates (s1.receive b) t) : Evaluates (s.append b) t := by
  induction h with
  | suspended hoff => exact absurd (hoff.symm.trans hev) Bool.false_ne_true
  | step _ hs hend ih =>
    obtain ⟨s', hs', hc', ⟨-, -, -, hes, -⟩, -⟩ := loopStep_spec hc
    cases hs.symm.trans hs'
    obtain ⟨-, -, -, -, hes', -⟩ := hend.spec hc'
    obtain ⟨hq, hq'⟩ := diagnostics_split hes hes' hquiet
    obtain rfl | ⟨hgo, hb⟩ := suspend_or_goesOn hc hs hq
    · cases hend.eq_of_not_evaluating rfl
      rwa [receive_suspend hev] at ht
    · exact .step hev (hb b) (ih hc' hgo hq' ht)

/-- Settles O14: PUSH of `b` answers (O7), and its evaluation composes with that of `a` to the one evaluation of
`a ++ b`. -/
theorem chunkBoundaryDoesNotMatter : Obligations.ChunkBoundaryDoesNotMatter := by
  intro s s1 t a b hs hs1 hquiet ht
  obtain ⟨hfit1, hev1⟩ := (execPush_eq_next_iff hs).1 hs1
  obtain ⟨hfit, hevt⟩ := (execPush_eq_next_iff hs).1 ht
  obtain ⟨s1', hs1', hrest, hfr⟩ := execPush_total hs hfit1
  cases hs1.symm.trans hs1'
  obtain ⟨-, -, hc, -⟩ := id hs
  obtain ⟨hp, -, -, -, hl⟩ := hfr
  have hfitb : s1.fits b = true := by
    rw [fits_iff] at hfit ⊢
    intro cap hcap
    have := hfit cap (hp ▸ hcap)
    simp only [State.append_buf, List.length_append] at hl this
    omega
  obtain ⟨t', ht', -⟩ := execPush_total hrest hfitb
  obtain ⟨-, hevt'⟩ := (execPush_eq_next_iff hrest).1 ht'
  have hjoined : Evaluates (s.receive (a ++ b)) t' :=
    receive_append s a b ▸ hev1.append (coherent_receive hc a) rfl hquiet hevt'
  rw [hevt.unique hjoined]
  exact ht'

end Sys2Proof.Machine
end

section
/-! Back-to-back frames (R133, R135): while the buffer and what has not yet arrived are together a row of whole
frames, each step waits, moves on inside the first frame, or emits it. -/

namespace Sys2Proof.Machine

/-! ### The frame number -/

theorem tlvStep_frameNumber {nt : Word} {d d' : Scratch} (h : tlvStep nt d = some d') :
    d'.pf.frameNumber = d.pf.frameNumber := by
  obtain ⟨-, rfl⟩ | ⟨-, -, rfl⟩ | ⟨-, -, type, len, -, -, h⟩ := tlvStep_cases h
  · rfl
  · rfl
  · obtain ⟨-, rfl⟩ | ⟨-, v, d2, -, hd2, rfl⟩ := h
    · rfl
    · obtain ⟨d3, hd3, -, -, hnum, -⟩ := dispatch_total type v (d.loadRecordHeader type len)
      cases hd2.symm.trans hd3
      exact hnum

theorem walkLoop_frameNumber {nt : Word} {fuel : Nat} {d d' : Scratch} (h : walkLoop nt fuel d = some d') :
    d'.pf.frameNumber = d.pf.frameNumber := by
  induction fuel generalizing d with
  | zero =>
    cases h
    rfl
  | succ fuel ih =>
    unfold walkLoop at h
    split at h
    · simp only [Option.bind_eq_bind, Option.bind_eq_some_iff] at h
      obtain ⟨d1, h1, h⟩ := h
      exact (ih h).trans (tlvStep_frameNumber h1)
    · cases h
      rfl

/-! ### The bytes of a frame -/

/-- A row of frames on the wire, back to back (R133). -/
def wireFrames (fs : List (Header × List Byte)) : List Byte := (fs.map wireFrame).flatten

theorem wireFrame_length (f : Header × List Byte) : (wireFrame f).length = 40 + f.2.length :=
  List.length_append

theorem wireFrames_cons (f : Header × List Byte) (fs : List (Header × List Byte)) :
    wireFrames (f :: fs) = wireFrame f ++ wireFrames fs := rfl

theorem wireFrame_take_eight (f : Header × List Byte) : (wireFrame f).take 8 = Config.magic := rfl

theorem wireFrame_take_forty (f : Header × List Byte) : (wireFrame f).take 40 = headerBytes f.1 := rfl

theorem FrameFits.length_eq {f : Header × List Byte} (hf : FrameFits f) :
    f.1.totalPacketLen.toInt = ((wireFrame f).length : Int) := by
  obtain ⟨hlen, -⟩ := hf
  rw [hlen, wireFrame_length]
  omega

/-- What FRAME_ASSEMBLE makes of the frame `f`, with its number. -/
def DecodesTo (f : Header × List Byte) (pf : ParsedFrame) : Prop :=
  pf.frameNumber = f.1.frameNumber ∧ ∃ u v, exec (.frameAssemble (wireFrame f)) u = .next v ∧ v.dec.pf = pf

/-- Every frame view that begins with the header of `f` has its number. -/
theorem decodesTo_of_frameAssemble {f : Header × List Byte} {s u : State}
    (h : frameAssemble (wireFrame f) s = some u) : DecodesTo f u.dec.pf := by
  refine ⟨?_, s, u, by simp only [exec, execFrameAssemble, h, orFault], rfl⟩
  obtain ⟨hd, d, hread, hwalk, hasm, -⟩ := frameAssemble_total (f := wireFrame f) s
    (by rw [wireFrame_length]; omega)
  rw [wireFrame_take_forty, readHeader_headerBytes] at hread
  cases hread
  cases h.symm.trans hasm
  exact walkLoop_frameNumber hwalk

/-! ### A state inside a row of frames -/

/-- The state is coherent, the threshold keeps every part of a magic word, and the buffer with the bytes `rest` to
come is the row of frames `fs`. -/
structure Carries (s : State) (fs : List (Header × List Byte)) (rest : List Byte) : Prop where
  coherent : Coherent s
  threshold : 7 ≤ s.params.syncAbandonThreshold
  fits : ∀ f ∈ fs, FrameFits f
  bytes : s.buf ++ rest = wireFrames fs

/-- From `s` to `t` the frames before `fs'` have been emitted, in order, and nothing else. -/
def Delivers (s t : State) (fs fs' : List (Header × List Byte)) : Prop :=
  ∃ done pfs, fs = done ++ fs' ∧ List.Forall₂ DecodesTo done pfs ∧ t.events = s.events ++ pfs.map Event.frame

theorem Delivers.of_events_eq {s t : State} {fs : List (Header × List Byte)} (h : t.events = s.events) :
    Delivers s t fs fs :=
  ⟨[], [], rfl, .nil, by rw [h, List.map_nil, List.append_nil]⟩

theorem Delivers.one {s t : State} {f : Header × List Byte} {fs : List (Header × List Byte)} {pf : ParsedFrame}
    (hf : DecodesTo f pf) (h : t.events = s.events ++ [.frame pf]) : Delivers s t (f :: fs) fs :=
  ⟨[f], [pf], rfl, .cons hf .nil, h⟩

theorem Delivers.trans {s t u : State} {fs fs' fs'' : List (Header × List Byte)} (h : Delivers s t fs fs')
    (h' : Delivers t u fs' fs'') : Delivers s u fs fs'' := by
  obtain ⟨done, pfs, rfl, hd, he⟩ := h
  obtain ⟨done', pfs', rfl, hd', he'⟩ := h'
  refine ⟨done ++ done', pfs ++ pfs', (List.append_assoc _ _ _).symm, List.rel_append hd hd', ?_⟩
  rw [he', he, List.map_append, List.append_assoc]

variable {s : State} {fs : List (Header × List Byte)} {f : Header × List Byte} {rest : List Byte}

/-- With bytes buffered there is a frame they belong to. -/
theorem Carries.exists_cons (h : Carries s fs rest) (hpos : 0 < s.buf.length) :
    ∃ f fs', fs = f :: fs' := by
  cases fs with
  | nil =>
    have hnil := (List.append_eq_nil_iff.1 h.bytes).1
    simp [hnil] at hpos
  | cons f fs' => exact ⟨f, fs', rfl⟩

/-- The buffer begins as the first frame does. -/
theorem Carries.take_eq (h : Carries s (f :: fs) rest) {n : Nat} (hbuf : n ≤ s.buf.length)
    (hn : n ≤ (wireFrame f).length) : s.buf.take n = (wireFrame f).take n := by
  have hbytes := congrArg (List.take n) h.bytes
  rwa [wireFrames_cons, List.take_append_of_le_length hbuf, List.take_append_of_le_length hn] at hbytes

/-- Behind the first frame the buffer goes on with the next. -/
theorem Carries.drop_eq (h : Carries s (f :: fs) rest) (hbuf : (wireFrame f).length ≤ s.buf.length) :
    s.buf.drop (wireFrame f).length ++ rest = wireFrames fs := by
  have hbytes := congrArg (List.drop (wireFrame f).length) h.bytes
  rwa [wireFrames_cons, List.drop_append_of_le_length hbuf, List.drop_left] at hbytes

theorem Carries.take_eight (h : Carries s (f :: fs) rest) (hbuf : 8 ≤ s.buf.length) :
    s.buf.take 8 = Config.magic := by
  rw [h.take_eq hbuf (by rw [wireFrame_length]; omega), wireFrame_take_eight]

theorem Carries.readHeader_eq (h : Carries s (f :: fs) rest) (hbuf : 40 ≤ s.buf.length) :
    readHeader (s.buf.take 40) = some f.1 := by
  rw [h.take_eq hbuf (by rw [wireFrame_length]; omega), wireFrame_take_forty, readHeader_headerBytes]

theorem Carries.fits_head (h : Carries s (f :: fs) rest) : FrameFits f := h.fits f List.mem_cons_self

/-- While a payload is awaited, the latched header is that of the first frame. -/
theorem Carries.exists_payload (h : Carries s fs rest) (hst : s.st = .readingPayload) :
    ∃ f fs', fs = f :: fs' ∧ s.hdr.totalPacketLen.toInt = ((wireFrame f).length : Int) := by
  have hc := h.coherent
  simp only [Coherent, hst] at hc
  obtain ⟨-, -, hlen, -, -, hread⟩ := hc
  obtain ⟨f, fs', rfl⟩ := h.exists_cons (by omega)
  have hhdr : s.hdr = f.1 := Option.some_inj.1 (hread.symm.trans (h.readHeader_eq hlen))
  exact ⟨f, fs', rfl, hhdr ▸ h.fits_head.length_eq⟩

/-- A step that writes neither the buffer nor an event stays inside the row. -/
theorem Carries.stay (h : Carries s fs rest) {s' : State} (hc : Coherent s') (hp : s'.params = s.params)
    (hbuf : s'.buf = s.buf) (hev : s'.events = s.events) : ∃ fs', Carries s' fs' rest ∧ Delivers s s' fs fs' :=
  ⟨fs, ⟨hc, hp ▸ h.threshold, h.fits, hbuf ▸ h.bytes⟩, .of_events_eq hev⟩

/-- SEEK finds the magic word at the head of the buffer, or keeps fewer than eight bytes (R123, R126). -/
theorem Carries.suspend_or_startFrame (h : Carries s fs rest) :
    seekStep s = s.suspend ∨ seekStep s = s.startFrameAt 0 := by
  by_cases hlen : 8 ≤ s.buf.length
  · obtain ⟨f, fs', rfl⟩ := h.exists_cons (by omega)
    exact .inr (seekStep_of_match (firstMatch_eq_some.2
      ⟨h.take_eight hlen, fun j hj => absurd hj (Nat.not_lt_zero j)⟩))
  · have hnone : firstMatch Config.magic s.buf = none := by
      refine Option.eq_none_iff_forall_ne_some.2 fun i hi => ?_
      have := firstMatch_lt hi
      omega
    have := h.threshold
    exact .inl (seekStep_of_short hnone (by omega))

/-- Each step of the loop stays inside the row of frames, and what it emits is the frame it leaves behind. -/
theorem Carries.of_loopStep (h : Carries s fs rest) {s' : State} (hs : loopStep s = some s') :
    ∃ fs', Carries s' fs' rest ∧ Delivers s s' fs fs' := by
  obtain ⟨u, hu, hc, ⟨hp, -⟩, -⟩ := loopStep_spec h.coherent
  cases hs.symm.trans hu
  cases hst : s.st with
  | seekingSync =>
    rw [loopStep_seekingSync hst] at hs
    cases hs
    obtain he | he := h.suspend_or_startFrame
    · exact h.stay hc hp (by rw [he]; rfl) (by rw [he]; rfl)
    · exact h.stay hc hp (by rw [he]; rfl) (by rw [he]; rfl)
  | readingHeader =>
    rw [loopStep_readingHeader hst] at hs
    by_cases hlen : s.buf.length < 40
    · cases hs.symm.trans (hdrStep_of_short hlen)
      exact h.stay hc hp rfl rfl
    · obtain ⟨f, fs', rfl⟩ := h.exists_cons (by omega)
      obtain ⟨htotal, hlo, hhi⟩ := h.fits_head
      cases hs.symm.trans (hdrStep_of_accepted (h.readHeader_eq (by omega)) (by omega) (by omega))
      exact h.stay hc hp rfl rfl
  | readingPayload =>
    rw [loopStep_readingPayload hst] at hs
    obtain ⟨f, fs', rfl, htotal⟩ := h.exists_payload hst
    by_cases hlen : s.buf.length < (wireFrame f).length
    · cases hs.symm.trans (payloadStep_of_short (by omega))
      exact h.stay hc hp rfl rfl
    · have hle := Nat.le_of_not_lt hlen
      have hview : s.buf.take (wireFrame f).length = wireFrame f := by
        rw [h.take_eq hle (Nat.le_refl _), List.take_length]
      obtain ⟨hd, d, -, -, hasm, -⟩ := frameAssemble_total (f := wireFrame f) s
        (by rw [wireFrame_length]; omega)
      cases hs.symm.trans (payloadStep_of_whole htotal hle (hview.symm ▸ hasm))
      exact ⟨fs', ⟨hc, h.threshold, fun g hg => h.fits g (List.mem_cons_of_mem f hg), h.drop_eq hle⟩,
        .one (decodesTo_of_frameAssemble hasm) rfl⟩

/-- So does a whole evaluation. -/
theorem Carries.of_evaluates {t : State} (hs : Evaluates s t) (h : Carries s fs rest) :
    ∃ fs', Carries t fs' rest ∧ Delivers s t fs fs' := by
  induction hs generalizing fs with
  | suspended => exact ⟨fs, h, .of_events_eq rfl⟩
  | step _ hstep _ ih =>
    obtain ⟨fs', h', hd⟩ := h.of_loopStep hstep
    obtain ⟨fs'', h'', hd'⟩ := ih h'
    exact ⟨fs'', h'', hd.trans hd'⟩

/-- The bytes of a chunk move from what is to come into the buffer. -/
theorem Carries.receive {chunk : List Byte} (h : Carries s fs (chunk ++ rest)) :
    Carries (s.receive chunk) fs rest :=
  ⟨coherent_receive h.coherent chunk, h.threshold, h.fits, (List.append_assoc _ _ _).trans h.bytes⟩

/-- Chunk after chunk, the frames that are complete have been emitted. -/
theorem Carries.exists_pushAll {chunks : List (List Byte)} (h : Carries s fs chunks.flatten) (hs : AtRest s)
    (hcap : s.params.bufCap = none) :
    ∃ t fs', pushAll chunks s = .next t ∧ AtRest t ∧ Carries t fs' [] ∧ Delivers s t fs fs' := by
  induction chunks generalizing s fs with
  | nil => exact ⟨s, fs, rfl, hs, h, .of_events_eq rfl⟩
  | cons c cs ih =>
    have hfit : s.fits c = true := fits_iff.2 fun cap hc => by simp [hcap] at hc
    obtain ⟨u, hu, hrest, hp, -⟩ := execPush_total hs hfit
    obtain ⟨-, hev⟩ := (execPush_eq_next_iff hs).1 hu
    obtain ⟨fs', h', hd⟩ := h.receive.of_evaluates hev
    obtain ⟨t, fs'', ht, hrest', h'', hd'⟩ := ih h' hrest (hp ▸ hcap)
    exact ⟨t, fs'', by simp only [pushAll, hu, ht], hrest', h'', hd.trans hd'⟩

/-- At rest with nothing more to come, no frame is left: every state would have gone on with a whole one. -/
theorem Carries.done (h : Carries s fs []) (hset : Settled s) :
    fs = [] ∧ s.st = .seekingSync ∧ s.buf = [] := by
  have hc := h.coherent
  cases fs with
  | nil =>
    have hbuf : s.buf = [] := (List.append_eq_nil_iff.1 h.bytes).1
    cases hst : s.st with
    | seekingSync => exact ⟨rfl, rfl, hbuf⟩
    | readingHeader => simp [Coherent, hst, hbuf, Config.magic] at hc
    | readingPayload => simp [Coherent, hst, hbuf, Config.magic] at hc
  | cons f fs =>
    have hle : (wireFrame f).length ≤ s.buf.length := by
      have hlen := congrArg List.length h.bytes
      rw [List.append_nil, wireFrames_cons, List.length_append] at hlen
      omega
    have hframe := wireFrame_length f
    exfalso
    cases hst : s.st with
    | seekingSync =>
      simp only [Settled, hst] at hset
      exact firstMatch_eq_none.1 hset.1 0 (h.take_eight (by omega))
    | readingHeader =>
      simp only [Settled, hst] at hset
      omega
    | readingPayload =>
      simp only [Settled, hst] at hset
      obtain ⟨g, gs, hcons, htotal⟩ := h.exists_payload hst
      cases hcons
      omega

/-- Settles O15, by a step invariant: the buffer and the bytes to come are the frames not yet emitted. -/
theorem backToBackFramesAllArrive : Obligations.BackToBackFramesAllArrive := by
  intro s fs chunks hs hst hbuf hcap hthr hfits hbytes
  obtain ⟨-, -, hc, -⟩ := id hs
  have h : Carries s fs chunks.flatten := ⟨hc, hthr, hfits, by rw [hbuf, hbytes]; rfl⟩
  obtain ⟨t, fs', ht, ⟨-, -, -, hset⟩, h', done, pfs, rfl, hdec, hev⟩ := h.exists_pushAll hs hcap
  obtain ⟨rfl, hst', hbuf'⟩ := h'.done hset
  rw [List.append_nil]
  exact ⟨t, pfs, ht, hst', hbuf', hev, hdec⟩

end Sys2Proof.Machine
end

section
/-! The header and frame assembly: where the eight fields stand and which lengths are accepted (R151, R154), and
FRAME_ASSEMBLE as the walk from the started scratch (R157, R158, R171). -/

namespace Sys2Proof.Machine

/-! ### The header fields -/

/-- A word read at `a` is the number of the four bytes there (R56). -/
theorem u32le_toNat {v : List Byte} {a : Nat} {w : Word} (hw : u32le v a = some w) :
    w.toNat = wireU32 v a := by
  have hlen := lt_length_of_u32le hw
  have hbyte : ∀ (i : Nat) (hi : i < v.length), v[i] = v.getD i 0 := fun _ _ => List.getElem_eq_getD 0
  rw [u32le_eq_some hlen] at hw
  cases hw
  rw [word_toNat, half_toNat, half_toNat]
  simp only [hbyte, wireU32]
  omega

/-- Settles O23: each field is one word read, and a word read is the number of its bytes. -/
theorem headerFieldsAreReadAtTheirOffsets : Obligations.HeaderFieldsAreReadAtTheirOffsets := by
  intro v hv
  obtain ⟨h, hh⟩ := readHeader_isSome (v := v) (by omega)
  refine ⟨h, hh, ?_⟩
  simp only [readHeader, Option.bind_eq_bind, Option.bind_eq_some_iff, Option.pure_def, Option.some.injEq] at hh
  obtain ⟨_, h8, _, h12, _, h16, _, h20, _, h24, _, h28, _, h32, _, h36, rfl⟩ := hh
  exact ⟨u32le_toNat h8, u32le_toNat h12, u32le_toNat h16, u32le_toNat h20, u32le_toNat h24, u32le_toNat h28,
    u32le_toNat h32, u32le_toNat h36⟩

/-! ### The length check -/

/-- A negative word is at least `2 ^ 31` when read as unsigned, so it fails the upper bound either way. -/
theorem headerOk_iff_toNat (h : Header) :
    headerOk h = true ↔ 40 < h.totalPacketLen.toNat ∧ h.totalPacketLen.toNat < 10000 := by
  rw [headerOk_iff, BitVec.toInt_eq_toNat_cond]
  split <;> omega

/-- A word below `2 ^ 14` is its low 14 bits. -/
theorem toNat_range_iff_low_bits (w : Word) :
    (40 < w.toNat ∧ w.toNat < 10000) ↔
      w.extractLsb' 14 18 = 0 ∧ 41 ≤ (w.extractLsb' 0 14).toNat ∧ (w.extractLsb' 0 14).toNat ≤ 9999 := by
  rw [← BitVec.toNat_inj, BitVec.extractLsb'_toNat, BitVec.extractLsb'_toNat, Nat.shiftRight_zero,
    Nat.shiftRight_eq_div_pow]
  have := w.isLt
  simp only [BitVec.ofNat_eq_ofNat, BitVec.toNat_ofNat]
  omega

/-- Settles O24: the signed reading is the definition's, the other two follow from the unsigned one. -/
theorem headerCheckIgnoresSignedness : Obligations.HeaderCheckIgnoresSignedness := fun h =>
  ⟨headerOk_iff h, headerOk_iff_toNat h, (headerOk_iff_toNat h).trans (toNat_range_iff_low_bits _)⟩

/-! ### Frame assembly -/

/-- What every step keeps, the walk keeps. -/
theorem walkLoop_induction {nt : Word} {P : Scratch → Prop}
    (hstep : ∀ d d', tlvStep nt d = some d' → P d → P d') {fuel : Nat} {d d' : Scratch}
    (h : walkLoop nt fuel d = some d') (hd : P d) : P d' := by
  induction fuel generalizing d with
  | zero =>
    cases h
    exact hd
  | succ fuel ih =>
    unfold walkLoop at h
    split at h
    · simp only [Option.bind_eq_bind, Option.bind_eq_some_iff] at h
      obtain ⟨d1, h1, h⟩ := h
      exact ih h (hstep d d1 h1 hd)
    · cases h
      exact hd

theorem tlvStep_numDetectedObj {nt : Word} {d d' : Scratch} (h : tlvStep nt d = some d') :
    d'.pf.numDetectedObj = d.pf.numDetectedObj := by
  obtain ⟨-, rfl⟩ | ⟨-, -, rfl⟩ | ⟨-, -, type, len, -, -, h⟩ := tlvStep_cases h
  · rfl
  · rfl
  · obtain ⟨-, rfl⟩ | ⟨-, v, d2, -, hd2, rfl⟩ := h
    · rfl
    · obtain ⟨d3, hd3, -, -, -, hobj⟩ := dispatch_total type v (d.loadRecordHeader type len)
      cases hd2.symm.trans hd3
      exact hobj

theorem walkLoop_numDetectedObj {nt : Word} {fuel : Nat} {d d' : Scratch} (h : walkLoop nt fuel d = some d') :
    d'.pf.numDetectedObj = d.pf.numDetectedObj :=
  walkLoop_induction (P := fun x => x.pf.numDetectedObj = d.pf.numDetectedObj)
    (fun _ _ hs hx => (tlvStep_numDetectedObj hs).trans hx) h rfl

/-- The payload of a frame view is what follows its header (R50, R172). -/
theorem Scratch.begin_n_eq (f : List Byte) (h : Header) (d : Scratch) : (d.begin f h).n = f.length - 40 := by
  rw [Scratch.begin_n, List.length_drop, Config.headerLen]

/-- Settles O59: frame assembly is the walk within its fuel, and each turn of the walk is a TLV_STEP. -/
theorem frameAssembleIteratesTheWalk : Obligations.FrameAssembleIteratesTheWalk := by
  intro s start f h hlo _ hread hstart
  obtain ⟨hd, d, hread', hwalk, hasm, -, hstop, -⟩ := frameAssemble_total (f := f) s (by omega)
  cases hread.symm.trans hread'
  have hbegin : start = (s.latchHeader h).withDec (s.dec.begin f h) := by
    rw [hstart, ← Scratch.begin_n_eq f h s.dec]
    rfl
  obtain ⟨k, hk, hend, hgo⟩ := walkLoop_repeatExec (s := s.latchHeader h) hwalk
  rw [walkFuel, Scratch.begin_n_eq] at hk
  rw [hbegin]
  exact ⟨_, k, hk, congrArg orFault hasm, hend, hstop, hgo⟩

/-- Settles O27: the walk answers and ends inside the payload, and no record changes the two copied fields. -/
theorem frameAssembleCopiesTheHeaderFields : Obligations.FrameAssembleCopiesTheHeaderFields := by
  intro s f hlo _
  obtain ⟨h, d, hread, hwalk, hasm, ⟨hn, hcur⟩, hstop, hframe⟩ := frameAssemble_total (f := f) s (by omega)
  refine ⟨h, d, hread, congrArg orFault hasm, walkLoop_frameNumber hwalk, walkLoop_numDetectedObj hwalk, hframe,
    ?_, hcur, hstop⟩
  rw [hn, Scratch.payload, hframe, List.length_drop, Config.headerLen]

end Sys2Proof.Machine
end

section
/-! The walk, from the state a step meets to what the step does: the four arms of TLV_STEP (R171 to R179), and from
them how a walk ends (R171, R181, R182). -/

namespace Sys2Proof.Machine

/-! ### The guards -/

theorem recordsLeft_iff (nt : Word) (d : Scratch) : recordsLeft nt d = true ↔ (d.k : Int) < nt.toInt := by
  unfold recordsLeft
  exact decide_eq_true_iff

/-- Settles O35: a negative length is at least `2 ^ 31` when read as unsigned, more than any payload holds. -/
theorem guardTwoIsOneUnsignedComparison : Obligations.GuardTwoIsOneUnsignedComparison := by
  intro d hcur hn
  rw [guardTwoFails_iff, BitVec.toInt_eq_toNat_cond]
  split <;> omega

/-! ### What a step does -/

section
variable {nt type len : Word} {d : Scratch}

theorem tlvStep_of_count (hk : nt.toInt ≤ d.k) : tlvStep nt d = some d.endWalk :=
  if_neg fun hleft => Int.not_lt.2 hk ((recordsLeft_iff nt d).1 hleft)

theorem tlvStep_of_short (hk : (d.k : Int) < nt.toInt) (hshort : (d.n : Int) - d.cur < 8) :
    tlvStep nt d = some d.raiseTruncatedTlvHeader := by
  rw [tlvStep, if_pos ((recordsLeft_iff nt d).2 hk), if_pos ((guardOneFails_iff d).2 hshort)]

/-- Past guard 1 a step latches the record header and goes on with the record (R174). -/
theorem tlvStep_of_header (hk : (d.k : Int) < nt.toInt) (hroom : d.cur + 8 ≤ d.n)
    (htype : u32le d.payload d.cur = some type) (hlen : u32le d.payload (d.cur + 4) = some len) :
    tlvStep nt d = walkRecord (d.loadRecordHeader type len) := by
  have hguard : ¬ guardOneFails d = true := by
    rw [guardOneFails_iff]
    omega
  rw [tlvStep, if_pos ((recordsLeft_iff nt d).2 hk), if_neg hguard]
  simp only [readRecordHeader, htype, hlen, Option.bind_eq_bind, Option.bind_some, Option.pure_def]

theorem walkRecord_of_guardTwo (hguard : d.tlvLen.toInt < 0 ∨ (d.n : Int) - d.cur < d.tlvLen.toInt) :
    walkRecord d = some d.raiseTlvLengthExceedsBuffer :=
  if_pos ((guardTwoFails_iff d).2 hguard)

/-- Past guard 2 the decoder runs on exactly the value, and the record is passed and counted (R177 to R179). -/
theorem walkRecord_of_value {d' : Scratch} (hfit : WalkFits d) (hnonneg : 0 ≤ d.tlvLen.toInt)
    (hle : d.tlvLen.toInt ≤ (d.n : Int) - d.cur)
    (hrun : dispatch d.tlvType ((d.payload.drop d.cur).take d.tlvLen.toNat) d = some d') :
    walkRecord d = some (d'.advance d.tlvLen.toNat) := by
  obtain ⟨hn, -⟩ := hfit
  have hnat := toNat_eq_of_toInt_nonneg hnonneg
  have hguard : ¬ guardTwoFails d = true := by
    rw [guardTwoFails_iff]
    omega
  have hvalue : d.value = some ((d.payload.drop d.cur).take d.tlvLen.toNat) := memRead_eq_some (by omega)
  rw [walkRecord, if_neg hguard]
  simp only [hvalue, hrun, Option.bind_eq_bind, Option.bind_some, Option.pure_def]

end

/-! ### TLV_STEP -/

section
variable {s : State} {d : Scratch}

theorem orFault_map_withDec {o : Option Scratch} (h : o = some d) :
    orFault (o.map (s.withDec ·)) = .next (s.withDec d) := by
  rw [h]
  rfl

theorem exec_tlvStep (h : tlvStep s.hdr.numTlvs s.dec = some d) : exec .tlvStep s = .next (s.withDec d) :=
  orFault_map_withDec h

/-- The operation the type selects does to the scratch what the walk's dispatch does (R85, R177). -/
theorem exec_decodeType {type : Word} {v : List Byte} (h : dispatch type v s.dec = some d) :
    exec (decodeType type v) s = .next (s.withDec d) := by
  rw [← orFault_map_withDec h]
  unfold decodeType dispatch
  split_ifs <;> rfl

end

/-- Settles O30: the loop test fails. -/
theorem tlvStepEndsAtTheCount : Obligations.TlvStepEndsAtTheCount := fun _ hk =>
  exec_tlvStep (tlvStep_of_count hk)

/-- Settles O31: the loop test passes and guard 1 fails. -/
theorem tlvStepTruncatedHeader : Obligations.TlvStepTruncatedHeader := fun _ hk hshort =>
  exec_tlvStep (tlvStep_of_short hk hshort)

/-- Settles O32: the record header is latched, and guard 2 fails on it. -/
theorem tlvStepLengthExceeds : Obligations.TlvStepLengthExceeds := by
  intro s type len hk hroom htype hlen hguard
  have hrecord := walkRecord_of_guardTwo (d := s.dec.loadRecordHeader type len) hguard
  exact exec_tlvStep ((tlvStep_of_header hk hroom htype hlen).trans hrecord)

/-- Settles O33: both guards pass, the decoder answers, and it leaves the cursor and the count alone. -/
theorem tlvStepRunsTheRecord : Obligations.TlvStepRunsTheRecord := by
  intro s type len hfit hk hroom htype hlen hnonneg hle
  obtain ⟨d, hrun, ⟨-, -, hcur, hcount, -⟩, -⟩ := dispatch_total type
    ((s.dec.payload.drop (s.dec.cur + 8)).take len.toNat) (s.dec.loadRecordHeader type len)
  have hrecord := walkRecord_of_value (d := s.dec.loadRecordHeader type len) ⟨hfit.1, hroom⟩ hnonneg hle hrun
  refine ⟨(s.withDec (s.dec.loadRecordHeader type len)).withDec d, ?_, ?_⟩
  · exact exec_decodeType (s := s.withDec (s.dec.loadRecordHeader type len)) hrun
  · rw [exec_tlvStep ((tlvStep_of_header hk hroom htype hlen).trans hrecord), Scratch.advance, hcur, hcount]
    rfl

/-! ### The end of a walk -/

theorem walkLoop_of_stopped {nt : Word} {d : Scratch} (fuel : Nat) (hstop : d.walking = false) :
    walkLoop nt fuel d = some d := by
  cases fuel with
  | zero => rfl
  | succ fuel => simp only [walkLoop, hstop, Bool.false_eq_true, if_false]

/-- A walk that is at its count ends in its next turn (R171). -/
theorem walkLoop_of_count {nt : Word} {d : Scratch} (fuel : Nat) (hwalk : d.walking = true)
    (hk : nt.toInt ≤ d.k) : walkLoop nt (fuel + 1) d = some d.endWalk := by
  rw [walkLoop, if_pos hwalk, tlvStep_of_count hk]
  exact walkLoop_of_stopped fuel rfl

/-- Settles O28: the walk is at its count from the start, and its end leaves the new Parsed Frame as it is. -/
theorem emptyWalkForACountBelowOne : Obligations.EmptyWalkForACountBelowOne := by
  intro s f h hlo _ hread hcount
  obtain ⟨h', d, hread', hwalk, hasm, -⟩ := frameAssemble_total (f := f) s (by omega)
  cases hread.symm.trans hread'
  cases (walkLoop_of_count _ rfl hcount).symm.trans hwalk
  exact ⟨_, congrArg orFault hasm, rfl⟩

/-- A walk between two records: no error so far, and no more records than promised, 8 bytes each at least. -/
structure WalkGoesOn (nt : Word) (d : Scratch) : Prop where
  walking : d.walking = true
  bytes : 8 * d.k ≤ d.cur
  noError : d.pf.errorCode = .none
  count : (d.k : Int) ≤ max 0 nt.toInt

/-- The three endings, told apart by the error code (R171, R173, R175, R176). -/
def WalkEnding (nt : Word) (d : Scratch) : Prop :=
  (d.pf.errorCode = .none ∧ (d.k : Int) = max 0 nt.toInt) ∨
    (d.pf.errorCode = .truncatedTlvHeader ∧ (d.k : Int) < nt.toInt ∧ d.n - d.cur < 8) ∨
    (d.pf.errorCode = .tlvLengthExceedsBuffer ∧ (d.k : Int) < nt.toInt ∧
      (d.tlvLen.toInt < 0 ∨ (d.n : Int) - d.cur < d.tlvLen.toInt))

/-- A walk that has stopped, by one of the three endings. -/
structure WalkEnded (nt : Word) (d : Scratch) : Prop where
  stopped : d.walking = false
  bytes : 8 * d.k ≤ d.cur
  ending : WalkEnding nt d

theorem walkGoesOn_begin (nt : Word) (f : List Byte) (h : Header) (d : Scratch) :
    WalkGoesOn nt (d.begin f h) :=
  ⟨rfl, Nat.le_refl 0, rfl, le_max_left 0 nt.toInt⟩

/-- A step stops a walk by one of the three endings, or completes a record and lets it go on. -/
theorem tlvStep_goesOn_or_ended {nt : Word} {d d' : Scratch} (hgo : WalkGoesOn nt d)
    (h : tlvStep nt d = some d') : WalkGoesOn nt d' ∨ WalkEnded nt d' := by
  obtain ⟨hwalk, hbytes, herr, hcount⟩ := hgo
  have hleft := recordsLeft_iff nt d
  obtain ⟨hl, rfl⟩ | ⟨hl, hg, rfl⟩ | ⟨hl, -, type, len, -, -, h⟩ := tlvStep_cases h
  · rw [hl] at hleft
    refine .inr ⟨rfl, hbytes, .inl ⟨herr, ?_⟩⟩
    simp only [Bool.false_eq_true, false_iff] at hleft
    show (d.k : Int) = max 0 nt.toInt
    omega
  · rw [guardOneFails_iff] at hg
    refine .inr ⟨rfl, hbytes, .inr (.inl ⟨rfl, hleft.1 hl, ?_⟩)⟩
    show d.n - d.cur < 8
    omega
  · obtain ⟨hg, rfl⟩ | ⟨-, v, d2, -, hrun, rfl⟩ := h
    · exact .inr ⟨rfl, Nat.le_add_right_of_le hbytes,
        .inr (.inr ⟨rfl, hleft.1 hl, (guardTwoFails_iff _).1 hg⟩)⟩
    · obtain ⟨d3, hrun', ⟨-, -, hcur, hk, -, -, hw⟩, hcode, -⟩ :=
        dispatch_total type v (d.loadRecordHeader type len)
      cases hrun.symm.trans hrun'
      have hlt := hleft.1 hl
      simp only [Scratch.loadRecordHeader_cur, Scratch.loadRecordHeader_k, Config.tlvHdrLen] at hcur hk
      refine .inl ⟨hw.trans hwalk, ?_, hcode.trans herr, ?_⟩
      · rw [Scratch.advance_k, Scratch.advance_cur]
        omega
      · rw [Scratch.advance_k]
        omega

/-- A walk that runs out of fuel still goes on; any other has ended. -/
theorem walkLoop_goesOn_or_ended {nt : Word} {fuel : Nat} {d d' : Scratch} (hgo : WalkGoesOn nt d)
    (h : walkLoop nt fuel d = some d') : WalkGoesOn nt d' ∨ WalkEnded nt d' := by
  induction fuel generalizing d with
  | zero =>
    cases h
    exact .inl hgo
  | succ fuel ih =>
    rw [walkLoop, if_pos hgo.walking] at h
    obtain ⟨d1, hstep, hrest⟩ := Option.bind_eq_some_iff.1 h
    obtain hgo1 | hend := tlvStep_goesOn_or_ended hgo hstep
    · exact ih hgo1 hrest
    · cases (walkLoop_of_stopped fuel hend.stopped).symm.trans hrest
      exact .inr hend

/-- Settles O29: the walk of a frame has stopped within its fuel, so it has ended. -/
theorem walkEndsInOneOfThreeWays : Obligations.WalkEndsInOneOfThreeWays := by
  intro s t f hlo h
  obtain ⟨hd, d, -, hwalk, hasm, -, hstop, -⟩ := frameAssemble_total (f := f) s (by omega)
  cases (congrArg orFault hasm).symm.trans h
  obtain hgo | hend := walkLoop_goesOn_or_ended (walkGoesOn_begin _ _ _ _) hwalk
  · exact absurd (hgo.walking.symm.trans hstop) (by decide)
  · exact ⟨hend.bytes, hend.ending⟩

end Sys2Proof.Machine
end

section
/-! The product of the decompressor (R205, R211, R212, R214, R215): which products are NaNs, what the special operands
give, and that every other product is the exact one rounded to nearest. A word is taken as `signWord b` with its
magnitude bits, and a magnitude as the whole number of units of 2^-149 that `magBits` gives. -/

namespace Sys2Proof.Machine

/-! ### The classes of a product -/

theorem infBits_eq : infBits = BitVec.ofNat 32 0x7F800000 := rfl

/-- Without a NaN operand or `0 * inf` the product is a sign and magnitude bits of no NaN (R212, R214). -/
theorem scale_of_no_nan {raw : Int} {u : Word} (hraw : isRaw raw) (hnan : isNaN u = false)
    (hzero : ¬ (raw = 0 ∧ isInf u = true)) :
    ∃ m ≤ 0x7F800000, ∀ i, scale i raw u = signWord (decide (raw < 0) ^^ u.getLsbD 31) ||| BitVec.ofNat 32 m := by
  cases hinf : isInf u with
  | true =>
    refine ⟨0x7F800000, Nat.le_refl _, fun i => ?_⟩
    rw [scale_cases i hraw, hnan, if_neg Bool.false_ne_true, if_pos hinf, if_neg fun h0 => hzero ⟨h0, hinf⟩,
      infBits_eq]
  | false =>
    refine ⟨_, roundToNearestEven_le (raw.natAbs * magnitude u * 2 ^ 149), fun i => ?_⟩
    rw [scale_cases i hraw, hnan, if_neg Bool.false_ne_true, hinf, if_neg Bool.false_ne_true]

theorem scale_of_nan {raw : Int} {u : Word} (hraw : isRaw raw) (h : isNaN u = true ∨ (raw = 0 ∧ isInf u = true))
    (i : Nat) : scale i raw u = nanResult i := by
  rw [scale_cases i hraw]
  obtain hnan | ⟨h0, hinf⟩ := h
  · rw [if_pos hnan]
  · rw [if_pos hinf, if_pos h0, ite_self]

/-- Settles O45: a stated case gives the draw, which is a NaN, and every other product is free of the draw. -/
theorem nanResultExactlyWhenStated : Obligations.NanResultExactlyWhenStated := by
  intro i j raw u hraw
  by_cases h : isNaN u = true ∨ (raw = 0 ∧ isInf u = true)
  · refine ⟨iff_of_true ?_ h, fun hn => absurd h hn⟩
    rw [scale_of_nan hraw h]
    exact isNaN_nanPattern _
  · obtain ⟨hnan, hzero⟩ := not_or.1 h
    obtain ⟨m, hm, hscale⟩ := scale_of_no_nan hraw (Bool.eq_false_iff.2 hnan) hzero
    refine ⟨iff_of_false ?_ h, fun _ => (hscale i).trans (hscale j).symm⟩
    rw [hscale, isNaN_signedBits _ hm]
    exact Bool.false_ne_true

/-! ### Products that keep the unit's magnitude -/

/-- A finite unit gives the exact product of the magnitudes, rounded once (R212). -/
theorem scale_of_finite {raw : Int} {u : Word} (hraw : isRaw raw) (hnan : isNaN u = false) (hinf : isInf u = false)
    (i : Nat) : scale i raw u = signWord (decide (raw < 0) ^^ u.getLsbD 31) |||
      BitVec.ofNat 32 (roundToNearestEven (raw.natAbs * magnitude u * 2 ^ 149)) := by
  rw [scale_cases i hraw, hnan, hinf, if_neg Bool.false_ne_true, if_neg Bool.false_ne_true]

theorem lowBits_of_isInf {u : Word} (h : isInf u = true) : u.toNat % 2 ^ 31 = 0x7F800000 := by
  rw [isInf_iff] at h
  omega

/-- Apart from a NaN and the infinities the magnitude bits are those of a finite number. -/
theorem lowBits_lt {u : Word} (hnan : isNaN u = false) (hinf : isInf u = false) : u.toNat % 2 ^ 31 < 0x7F800000 := by
  rw [← Bool.not_eq_true, isNaN_iff] at hnan
  rw [← Bool.not_eq_true, isInf_iff] at hinf
  omega

theorem magnitude_of_isZero {u : Word} (h : isZero u = true) : magnitude u = 0 := by
  rw [magnitude_eq, (isZero_iff u).1 h]
  rfl

theorem roundToNearestEven_zero : roundToNearestEven 0 = 0 := by simp [roundToNearestEven]

/-- A zero or infinite unit, and any unit times 1 or -1, keeps its magnitude bits (R215). -/
theorem scale_keeps_magnitude {raw : Int} {u : Word} (hraw : isRaw raw) (hnan : isNaN u = false) (h0 : raw ≠ 0)
    (h : (isZero u = true ∨ isInf u = true) ∨ raw.natAbs = 1) (i : Nat) :
    scale i raw u = signWord (decide (raw < 0) ^^ u.getLsbD 31) ||| BitVec.ofNat 32 (u.toNat % 2 ^ 31) := by
  cases hinf : isInf u with
  | true =>
    rw [scale_cases i hraw, hnan, if_neg Bool.false_ne_true, if_pos hinf, if_neg h0, infBits_eq, lowBits_of_isInf hinf]
  | false =>
    rw [scale_of_finite hraw hnan hinf]
    obtain (hz | hi) | h1 := h
    · rw [magnitude_of_isZero hz, Nat.mul_zero, Nat.zero_mul, roundToNearestEven_zero, (isZero_iff u).1 hz]
    · exact absurd (hi.symm.trans hinf) (by decide)
    · rw [h1, Nat.one_mul, magnitude_eq, roundToNearestEven_magBits (lowBits_lt hnan hinf)]

theorem scale_eq_unit {raw : Int} {u : Word} (hraw : isRaw raw) (hnan : isNaN u = false) (hpos : 0 < raw)
    (h : (isZero u = true ∨ isInf u = true) ∨ raw.natAbs = 1) (i : Nat) : scale i raw u = u := by
  rw [scale_keeps_magnitude hraw hnan hpos.ne' h, decide_eq_false hpos.not_gt, Bool.false_xor]
  exact (word_eq_signedBits u).symm

theorem scale_eq_negated_unit {raw : Int} {u : Word} (hraw : isRaw raw) (hnan : isNaN u = false) (hneg : raw < 0)
    (h : (isZero u = true ∨ isInf u = true) ∨ raw.natAbs = 1) (i : Nat) : scale i raw u = u ^^^ signBit := by
  rw [scale_keeps_magnitude hraw hnan hneg.ne h, decide_eq_true hneg, Bool.true_xor,
    ← signedBits_xor_signBit _ (Nat.mod_lt _ (by decide)), ← word_eq_signedBits]

theorem and_signBit_eq (u : Word) : u &&& signBit = signWord (u.getLsbD 31) := by
  simpa using productSign_eq 0 u

/-- A zero raw value gives the zero of the unit's sign (R215). -/
theorem scale_zero {u : Word} (hnan : isNaN u = false) (hinf : isInf u = false) (i : Nat) :
    scale i 0 u = u &&& signBit := by
  rw [scale_of_finite (by unfold isRaw; omega) hnan hinf, Int.natAbs_zero, Nat.zero_mul, Nat.zero_mul,
    roundToNearestEven_zero, and_signBit_eq, decide_eq_false (lt_irrefl 0), Bool.false_xor]
  exact BitVec.or_zero

/-- Settles O46: each row is one of the products that keep the unit's magnitude, or the zero. -/
theorem scaleSpecialCases : Obligations.ScaleSpecialCases := by
  intro i raw u hraw hnan
  refine ⟨?_, fun hpos h => scale_eq_unit hraw hnan hpos (.inl h) i,
    fun hneg h => scale_eq_negated_unit hraw hnan hneg (.inl h) i, ?_, ?_⟩
  · rintro rfl hinf
    exact scale_zero hnan hinf i
  · rintro rfl
    exact scale_eq_unit hraw hnan (by decide) (.inr rfl) i
  · rintro rfl
    exact scale_eq_negated_unit hraw hnan (by decide) (.inr rfl) i

/-! ### The rounding of a whole number of units -/

/-- The rounding of `n` units of 2^-149 with both sides in halves of such a unit: `q` at the place `t` is within half
a place of `n`, and even on a tie. -/
theorem roundToNearestEven_units (n : Nat) :
    ∃ t q, roundToNearestEven (n * 2 ^ 149) = min (t * 2 ^ 23 + q) 0x7F800000 ∧ q ≤ 2 ^ 24 ∧
      (t = 0 ∨ (2 ^ 23 ≤ q ∧ 2 ^ 23 * 2 ^ t ≤ n)) ∧ n < 2 ^ 24 * 2 ^ t ∧
      2 * (q * 2 ^ t) ≤ 2 * n + 2 ^ t ∧ 2 * n ≤ 2 * (q * 2 ^ t) + 2 ^ t ∧
      (2 * n = 2 * (q * 2 ^ t) + 2 ^ t → q % 2 = 0) := by
  obtain ⟨s, q, hs, hround, hq, hlow, hlt, hbelow, habove, htie⟩ := roundToNearestEven_spec (n * 2 ^ 149)
  obtain ⟨t, rfl⟩ := Nat.exists_eq_add_of_le hs
  have hunit : 0 < 2 ^ 148 := by positivity
  have hhalf : 2 ^ (149 + t - 1) = 2 ^ t * 2 ^ 148 := by
    rw [show 149 + t - 1 = t + 148 by omega, Nat.pow_add]
  have hplace : ∀ x, x * 2 ^ (149 + t) = 2 * (x * 2 ^ t) * 2 ^ 148 := fun x => by ring
  have hn : n * 2 ^ 149 = 2 * n * 2 ^ 148 := by ring
  rw [hplace, hn] at hlow hlt
  rw [hplace, hn, hhalf, ← Nat.add_mul] at hbelow habove
  refine ⟨t, q, ?_, hq, ?_, ?_, Nat.le_of_mul_le_mul_right hbelow hunit, Nat.le_of_mul_le_mul_right habove hunit, ?_⟩
  · rw [hround, Nat.add_sub_cancel_left]
  · refine hlow.imp (fun h => by omega) (fun h => ⟨h.1, ?_⟩)
    have := Nat.le_of_mul_le_mul_right h.2 hunit
    omega
  · have := Nat.lt_of_mul_lt_mul_right hlt
    omega
  · intro h
    apply htie
    right
    rw [hplace, hn, hhalf, ← Nat.add_mul, h]

/-- The rounding overflows exactly from the midpoint above the largest finite number on (R212). The last place `t` of
a finite number is at most 253; there the midpoint is the tie below `2 ^ 24`, which goes up because `2 ^ 24 - 1` is
odd. -/
theorem roundToNearestEven_eq_inf_iff (n : Nat) :
    roundToNearestEven (n * 2 ^ 149) = 0x7F800000 ↔ (2 ^ 25 - 1) * 2 ^ 252 ≤ n := by
  obtain ⟨t, q, hround, hq, hlow, hlt, hbelow, habove, htie⟩ := roundToNearestEven_units n
  rw [hround]
  obtain h | h | h : t ≤ 252 ∨ t = 253 ∨ 254 ≤ t := by omega
  · have hpow : 2 ^ t ≤ 2 ^ 252 := Nat.pow_le_pow_right (by omega) h
    generalize 2 ^ t = Y at *
    generalize 2 ^ 252 = X at *
    omega
  · subst h
    rw [show 2 ^ 253 = 2 * 2 ^ 252 by rw [Nat.pow_add 2 1 252]] at hbelow habove htie
    generalize 2 ^ 252 = X at *
    obtain rfl | rfl | hless : q = 2 ^ 24 ∨ q = 2 ^ 24 - 1 ∨ q ≤ 2 ^ 24 - 2 := by omega
    · omega
    · omega
    · have hmul := Nat.mul_le_mul_right (2 * X) hless
      omega
  · have hpow : 2 ^ 254 ≤ 2 ^ t := Nat.pow_le_pow_right (by omega) h
    rw [show 2 ^ 254 = 4 * 2 ^ 252 by rw [Nat.pow_add 2 2 252]] at hpow
    generalize 2 ^ t = Y at *
    generalize 2 ^ 252 = X at *
    omega

/-- Seen from `z`, `y` is no nearer than `x`, and where another `y` is as near, `even` holds of `x`. -/
def NoNearer (even : Prop) (x y z : Int) : Prop :=
  |x - z| ≤ |y - z| ∧ (|x - z| = |y - z| → y ≠ x → even)

/-- No finite magnitude is nearer to `n` units than the rounded one, and one as near leaves it even (R212). -/
theorem roundToNearestEven_noNearer {n : Nat} (k : Nat) (hfin : roundToNearestEven (n * 2 ^ 149) < 0x7F800000) :
    NoNearer (roundToNearestEven (n * 2 ^ 149) % 2 = 0) (magBits (roundToNearestEven (n * 2 ^ 149))) (magBits k) n := by
  obtain ⟨s, q, hs, hround, hq, hlow, -, hbelow, habove, htie⟩ := roundToNearestEven_spec (n * 2 ^ 149)
  obtain ⟨f, g, hmag, -, hf, hg⟩ := magBits_form k
  have hm : roundToNearestEven (n * 2 ^ 149) = (s - 149) * 2 ^ 23 + q := by omega
  have heven : q % 2 = 0 → ((s - 149) * 2 ^ 23 + q) % 2 = 0 := by omega
  rw [hm, magBits_eq hq (hlow.imp (fun h => by omega) And.left), hmag]
  obtain ⟨hle, heq⟩ := rounded_nearest hs hq hlow hbelow habove htie hf hg
  exact ⟨hle, fun h hne => heven (heq h fun hfg => hne (congrArg _ hfg))⟩

/-! ### The values -/

/-- A number of units under a sign. -/
def signedUnits (b : Bool) (n : Nat) : Int := if b then -(n : Int) else n

theorem floatValue_signedBits (b : Bool) {m : Nat} (hm : m ≤ 0x7F800000) :
    floatValue (signWord b ||| BitVec.ofNat 32 m) = signedUnits b (magBits m) := by
  rw [floatValue, signedBits_bit31 b hm, magnitude_signedBits b hm, signedUnits]

theorem floatValue_eq (w : Word) : floatValue w = signedUnits (w.getLsbD 31) (magBits (w.toNat % 2 ^ 31)) := by
  rw [floatValue, magnitude_eq, signedUnits]

/-- The exact product: the signs combine, the magnitudes multiply. -/
theorem raw_mul_floatValue (raw : Int) (u : Word) :
    raw * floatValue u = signedUnits (decide (raw < 0) ^^ u.getLsbD 31) (raw.natAbs * magnitude u) := by
  rw [floatValue, signedUnits]
  by_cases hneg : raw < 0
  · have habs : ((raw.natAbs : Nat) : Int) = -raw := by omega
    cases u.getLsbD 31 <;> simp [hneg, habs]
  · have habs : ((raw.natAbs : Nat) : Int) = raw := by omega
    cases u.getLsbD 31 <;> simp [hneg, habs]

theorem abs_signedUnits (b : Bool) (n : Nat) : |signedUnits b n| = n := by
  cases b <;> simp [signedUnits]

theorem abs_signedUnits_sub (b : Bool) (x y : Nat) :
    |signedUnits b x - signedUnits b y| = |(x : Int) - y| := by
  cases b
  · rfl
  · rw [signedUnits, signedUnits, if_pos rfl, if_pos rfl, neg_sub_neg, abs_sub_comm]

theorem abs_signedUnits_sub_not (b : Bool) (x y : Nat) : |signedUnits (!b) x - signedUnits b y| = x + y := by
  cases b <;> simp only [signedUnits, Bool.not_true, Bool.not_false, if_true, if_false, Bool.false_eq_true] <;>
    rw [Int.abs_eq_natAbs] <;> omega

theorem signedUnits_zero (b : Bool) : signedUnits b 0 = 0 := by
  cases b <;> rfl

/-- Under any signs `k` is no nearer to `n` than `m`, if neither `k` nor zero is: an opposite sign is no nearer than
zero. -/
theorem NoNearer.under_signs {even : Prop} {m n k : Nat} (b c : Bool) (hnear : NoNearer even m k n)
    (hzero : NoNearer even m 0 n) :
    NoNearer even (signedUnits b m) (signedUnits c k) (signedUnits b n) := by
  unfold NoNearer
  rw [abs_signedUnits_sub]
  obtain rfl | rfl : c = b ∨ c = !b := by cases b <;> cases c <;> simp
  · rw [abs_signedUnits_sub]
    exact ⟨hnear.1, fun h hne => hnear.2 h fun hk => hne (congrArg _ (Int.ofNat_inj.1 hk))⟩
  · obtain ⟨hle, heven⟩ := hzero
    rw [zero_sub, abs_neg, Nat.abs_cast] at hle heven
    rw [abs_signedUnits_sub_not]
    refine ⟨by omega, fun h hne => ?_⟩
    obtain rfl : k = 0 := by omega
    refine heven (by omega) fun hm => hne ?_
    rw [← Int.ofNat_inj.1 hm, signedUnits_zero, signedUnits_zero]

/-- Settles O47: the finite product is the rounded magnitude under the product's sign, so the nearest magnitude is the
nearest number. -/
theorem productIsTheNearestFloat : Obligations.ProductIsTheNearestFloat := by
  intro i raw u c hraw hu _
  have hnan : isNaN u = false := by
    rw [← Bool.not_eq_true, isNaN_iff]
    exact fun h => (isFinite_iff u).1 hu h.1
  have hinf : isInf u = false := by
    rw [← Bool.not_eq_true, isInf_iff]
    exact fun h => (isFinite_iff u).1 hu h.1
  rw [scale_of_finite hraw hnan hinf, raw_mul_floatValue]
  have hle := roundToNearestEven_le (raw.natAbs * magnitude u * 2 ^ 149)
  refine ⟨fun hfin => ?_, ?_, signedBits_bit31 _ hle⟩
  · rw [isFinite_signedBits _ hle] at hfin
    rw [floatValue_signedBits _ hle, signedBits_bit0 _ hle, floatValue_eq c, decide_eq_false_iff_not,
      Nat.mod_two_not_eq_one]
    exact (roundToNearestEven_noNearer _ hfin).under_signs _ _ (roundToNearestEven_noNearer 0 hfin)
  · have hmid : ((2 ^ 25 - 1) * 2 ^ 252 : Int) = ((2 ^ 25 - 1) * 2 ^ 252 : Nat) := by norm_num
    rw [isInf_signedBits _ hle, roundToNearestEven_eq_inf_iff, abs_signedUnits, hmid, Nat.cast_le]

end Sys2Proof.Machine
end

section
/-! The decoders of the registered types (R200 to R242): what each stores, which bytes of its value it reads, and that
decoders of different types do not meet. -/

namespace Sys2Proof.Machine

/-! ### The value formats -/

/-- A half read at `a` is the number of the two bytes there (R55). -/
theorem u16le_toNat {v : List Byte} {a : Nat} {x : Half} (hx : u16le v a = some x) : x.toNat = wireU16 v a := by
  have hlen := lt_length_of_u16le hx
  rw [u16le_eq_some hlen] at hx
  cases hx
  rw [half_toNat, wireU16, List.getElem_eq_getD 0, List.getElem_eq_getD 0]

theorem u8_getD {v : List Byte} {a : Nat} {x : Byte} (hx : u8 v a = some x) : x = v.getD a 0 := by
  have hx : v[a]? = some x := hx
  rw [List.getD_eq_getElem?_getD, hx, Option.getD_some]

/-- The four units stand at offsets 0, 4, 8, 12 (R86, R202). -/
theorem readUnits_toNat {v : List Byte} {u : Units} (hu : readUnits v = some u) :
    u.xyz.toNat = wireU32 v 0 ∧ u.doppler.toNat = wireU32 v 4 ∧ u.snr.toNat = wireU32 v 8 ∧
      u.noise.toNat = wireU32 v 12 := by
  simp only [readUnits, Option.bind_eq_bind, Option.bind_eq_some_iff, Option.pure_def, Option.some.injEq] at hu
  obtain ⟨_, hxyz, _, hdoppler, _, hsnr, _, hnoise, rfl⟩ := hu
  exact ⟨u32le_toNat hxyz, u32le_toNat hdoppler, u32le_toNat hsnr, u32le_toNat hnoise⟩

/-- The six raw fields of the record at offset `a` (R87). -/
theorem readRawPoint_drop_fields {v : List Byte} {a : Nat} {r : RawPoint} (hr : readRawPoint (v.drop a) = some r) :
    r.x.toNat = wireU16 v a ∧ r.y.toNat = wireU16 v (a + 2) ∧ r.z.toNat = wireU16 v (a + 4) ∧
      r.doppler.toNat = wireU16 v (a + 6) ∧ r.snr = v.getD (a + 8) 0 ∧ r.noise = v.getD (a + 9) 0 := by
  simp only [readRawPoint, u16le_drop, u8_drop, Option.bind_eq_bind, Option.bind_eq_some_iff, Option.pure_def,
    Option.some.injEq] at hr
  obtain ⟨_, hx, _, hy, _, hz, _, hdoppler, _, hsnr, _, hnoise, rfl⟩ := hr
  exact ⟨u16le_toNat hx, u16le_toNat hy, u16le_toNat hz, u16le_toNat hdoppler, u8_getD hsnr, u8_getD hnoise⟩

/-- The six fields of the statistics stand at offsets 0, 4, 16, 18, 20, 22 (R89, R231). -/
theorem readStats_toNat {v : List Byte} {t : Stats} (ht : readStats v = some t) :
    t.interFrameProcTime.toNat = wireU32 v 0 ∧ t.transmitOutTime.toNat = wireU32 v 4 ∧
      t.tempRx.toNat = wireU16 v 16 ∧ t.tempTx.toNat = wireU16 v 18 ∧ t.tempPm.toNat = wireU16 v 20 ∧
      t.tempDig.toNat = wireU16 v 22 := by
  simp only [readStats, Option.bind_eq_bind, Option.bind_eq_some_iff, Option.pure_def, Option.some.injEq] at ht
  obtain ⟨_, hproc, _, htransmit, _, hrx, _, htx, _, hpm, _, hdig, rfl⟩ := ht
  exact ⟨u32le_toNat hproc, u32le_toNat htransmit, u16le_toNat hrx, u16le_toNat htx, u16le_toNat hpm,
    u16le_toNat hdig⟩

/-! ### Locality of the value formats (R58) -/

section
variable {v w : List Byte}

theorem readUnits_congr (h : ∀ i < 16, v[i]? = w[i]?) : readUnits v = readUnits w := by
  have hword : ∀ a, a + 3 < 16 → u32le v a = u32le w a := fun a ha => u32le_congr fun i hi => h (a + i) (by omega)
  simp only [readUnits, hword 0 (by decide), hword 4 (by decide), hword 8 (by decide), hword 12 (by decide)]

theorem readRawPoint_congr (h : ∀ i < 10, v[i]? = w[i]?) : readRawPoint v = readRawPoint w := by
  have hhalf : ∀ a, a + 1 < 10 → u16le v a = u16le w a := fun a ha => u16le_congr fun i hi => h (a + i) (by omega)
  simp only [readRawPoint, hhalf 0 (by decide), hhalf 2 (by decide), hhalf 4 (by decide), hhalf 6 (by decide),
    u8_congr (h 8 (by decide)), u8_congr (h 9 (by decide))]

/-- The statistics are read at offsets 0 to 7 and 16 to 23 only (R233). -/
theorem readStats_congr (h : ∀ i, i < 8 ∨ (16 ≤ i ∧ i < 24) → v[i]? = w[i]?) : readStats v = readStats w := by
  have hword : ∀ a, a + 3 < 8 → u32le v a = u32le w a := fun a ha => u32le_congr fun i hi => h (a + i) (by omega)
  have hhalf : ∀ a, 16 ≤ a → a + 1 < 24 → u16le v a = u16le w a := fun a _ ha =>
    u16le_congr fun i hi => h (a + i) (by omega)
  simp only [readStats, hword 0 (by decide), hword 4 (by decide), hhalf 16 (by decide) (by decide),
    hhalf 18 (by decide) (by decide), hhalf 20 (by decide) (by decide), hhalf 22 (by decide) (by decide)]

end

/-! ### Each decoder alone -/

section
variable {s : State} {v : List Byte} {d : Scratch}

theorem exec_decPoints (h : decPoints v s.dec = some d) : exec (.decPoints v) s = .next (s.withDec d) :=
  orFault_map_withDec h

theorem exec_decRange (h : decRange v s.dec = some d) : exec (.decRange v) s = .next (s.withDec d) :=
  orFault_map_withDec h

theorem exec_decStats (h : decStats v s.dec = some d) : exec (.decStats v) s = .next (s.withDec d) :=
  orFault_map_withDec h

end

/-- Settles O36: a short value leaves the scratch as it is. -/
theorem malformedSubRecordChangesNothing : Obligations.MalformedSubRecordChangesNothing := fun s _ =>
  ⟨fun h => exec_decPoints (decPoints_short s.dec h), fun h => exec_decStats (decStats_short s.dec h)⟩

/-- Settles O42: DEC_SKIP answers the scratch it is given. -/
theorem decSkipChangesNothing : Obligations.DecSkipChangesNothing := fun _ _ _ => rfl

/-- Settles O37: the points are those of the records, record `j` standing at offset `20 + 10 * j`. -/
theorem decPointsAppendsEveryRecord : Obligations.DecPointsAppendsEveryRecord := by
  intro s v hlen
  obtain ⟨u, r, p, hu, hrun⟩ := decPoints_spec s.dec hlen
  have hroom : 10 * ((v.length - 20) / 10) ≤ (v.drop 20).length := by
    rw [List.length_drop]
    omega
  obtain ⟨hxyz, hdoppler, hsnr, hnoise⟩ := readUnits_toNat hu
  refine ⟨u, _, pointsOf ((v.length - 20) / 10) (v.drop 20) u s.dec.draws, exec_decPoints hrun, rfl, hxyz, hdoppler,
    hsnr, hnoise, rfl, pointsOf_length hroom u _, fun j hj => ?_, rfl, rfl, rfl, rfl, rfl, rfl, rfl, rfl, rfl, rfl⟩
  obtain ⟨r', hread, hpoint⟩ := pointsOf_getElem hroom u s.dec.draws j hj
  rw [List.drop_drop] at hread
  obtain ⟨hx, hy, hz, hd, hs, hn⟩ := readRawPoint_drop_fields hread
  have hoff : ∀ k, 20 + 10 * j + k = 20 + k + 10 * j := fun k => by omega
  rw [hoff] at hy hz hd hs hn
  exact ⟨r', hx, hy, hz, hd, hs, hn, hpoint⟩

/-- Settles O39: bin `j` is the word at offset `4 * j`. -/
theorem decRangeStoresTheBins : Obligations.DecRangeStoresTheBins := by
  intro s v
  have hroom : 4 * (v.length / 4) ≤ v.length := Nat.mul_div_le v.length 4
  refine ⟨binsOf (v.length / 4) v, exec_decRange (decRange_spec v s.dec), binsOf_length hroom, fun j hj => ?_⟩
  obtain ⟨bin, hbin⟩ := u32le_isSome (v := v) (a := 4 * j) (by omega)
  exact ⟨bin, (binsOf_getElem hroom j hj).trans hbin, u32le_toNat hbin⟩

/-- Settles O40: the stored statistics are those read from the value. -/
theorem decStatsStoresTheFields : Obligations.DecStatsStoresTheFields := by
  intro s v hlen
  obtain ⟨t, ht, hrun⟩ := decStats_spec s.dec hlen
  exact ⟨t, exec_decStats hrun, readStats_toNat ht⟩

/-- Settles O44: `decompress` is the six products, written out. -/
theorem pointDecompressScalesEachField : Obligations.PointDecompressScalesEachField := fun _ _ => rfl

/-! ### The bytes a decoder reads -/

/-- A turn of the record loop on a whole record (R204). -/
theorem pointLoop_succ {v : List Byte} {r : RawPoint} (count : Nat) (d : Scratch) (hlen : 10 ≤ v.length)
    (hr : readRawPoint v = some r) :
    pointLoop (count + 1) v d = pointLoop count (v.drop 10) (d.loadRaw r).decompressRaw.appendPoint := by
  rw [pointLoop, if_neg (show ¬ v.length < Config.pointRecLen from Nat.not_lt.2 hlen), hr]
  rfl

/-- Past its length check DEC_POINTS is the loading of the units and the record loop (R202, R203). -/
theorem decPoints_of_units {v : List Byte} {u : Units} (d : Scratch) (hlen : 20 ≤ v.length)
    (hu : readUnits v = some u) :
    decPoints v d = pointLoop ((v.length - 20) / 10) (v.drop 20) (d.loadUnits u) := by
  rw [decPoints, if_neg (show ¬ v.length < Config.unitHdrLen from Nat.not_lt.2 hlen), hu]
  rfl

/-- The record loop reads its records only (R206, R207). -/
theorem pointLoop_congr {count : Nat} {v w : List Byte} (d : Scratch) (hv : 10 * count ≤ v.length)
    (hw : 10 * count ≤ w.length) (h : ∀ i < 10 * count, v[i]? = w[i]?) :
    pointLoop count v d = pointLoop count w d := by
  induction count generalizing v w d with
  | zero => rfl
  | succ count ih =>
    obtain ⟨r, hr⟩ := readRawPoint_isSome (v := v) (by omega)
    have hr' := (readRawPoint_congr fun i hi => h i (by omega)).symm.trans hr
    rw [pointLoop_succ count d (by omega) hr, pointLoop_succ count d (by omega) hr']
    refine ih _ (by rw [List.length_drop]; omega) (by rw [List.length_drop]; omega) fun i hi => ?_
    rw [List.getElem?_drop, List.getElem?_drop]
    exact h (10 + i) (by omega)

/-- Settles O38: both values hold the same units, and the record loop reads the same bytes of both. -/
theorem decPointsIgnoresUnreadBytes : Obligations.DecPointsIgnoresUnreadBytes := by
  intro s v w hlen hsame h
  obtain ⟨u, hu⟩ := readUnits_isSome (v := v) (by omega)
  have hu' := (readUnits_congr fun i hi => h i (.inl hi)).symm.trans hu
  have hrun : decPoints v s.dec = decPoints w s.dec := by
    rw [decPoints_of_units s.dec hlen hu, decPoints_of_units s.dec (hsame ▸ hlen) hu', ← hsame]
    refine pointLoop_congr _ (by rw [List.length_drop]; omega) (by rw [List.length_drop]; omega) fun i hi => ?_
    rw [List.getElem?_drop, List.getElem?_drop]
    exact h (20 + i) (.inr (by omega))
  show execDecPoints v s = execDecPoints w s
  rw [execDecPoints, execDecPoints, hrun]

/-- Settles O41: both values hold the same statistics. -/
theorem decStatsIgnoresUnreadBytes : Obligations.DecStatsIgnoresUnreadBytes := by
  intro s v w hv hw h
  obtain ⟨t, ht, hrun⟩ := decStats_spec s.dec hv
  obtain ⟨t', ht', hrun'⟩ := decStats_spec s.dec hw
  cases ht.symm.trans ((readStats_congr h).trans ht')
  exact (exec_decStats hrun).trans (exec_decStats hrun').symm

/-! ### Decoders of different types (R242) -/

/-- What DEC_RANGE does to the scratch (R220, R223). -/
def Scratch.storeRange (bins : List Word) (d : Scratch) : Scratch := { d with bins := bins }.setRange bins

/-- What DEC_STATS does to the scratch (R230, R232). -/
def Scratch.storeStats (t : Stats) (d : Scratch) : Scratch := (d.loadStat t).setStats t

theorem decRange_eq (v : List Byte) (d : Scratch) : decRange v d = some (d.storeRange (binsOf (v.length / 4) v)) :=
  decRange_spec v d

/-- A change of the scratch that does not meet the operations DEC_POINTS is made of. -/
structure ApartFromPoints (g : Scratch → Scratch) : Prop where
  loadUnits : ∀ u d, (g d).loadUnits u = g (d.loadUnits u)
  record : ∀ r d, ((g d).loadRaw r).decompressRaw.appendPoint = g (d.loadRaw r).decompressRaw.appendPoint

theorem apartFromPoints_storeRange (bins : List Word) : ApartFromPoints (Scratch.storeRange bins) :=
  ⟨fun _ _ => rfl, fun _ _ => rfl⟩

theorem apartFromPoints_storeStats (t : Stats) : ApartFromPoints (Scratch.storeStats t) :=
  ⟨fun _ _ => rfl, fun _ _ => rfl⟩

theorem ApartFromPoints.pointLoop_map {g : Scratch → Scratch} (hg : ApartFromPoints g) (count : Nat) (v : List Byte)
    (d : Scratch) : pointLoop count v (g d) = (pointLoop count v d).map g := by
  induction count generalizing v d with
  | zero => rfl
  | succ count ih =>
    unfold pointLoop
    split
    · rfl
    · cases readRawPoint v with
      | none => rfl
      | some r =>
        simp only [Option.bind_eq_bind, Option.bind_some, hg.record]
        exact ih _ _

theorem ApartFromPoints.decPoints_map {g : Scratch → Scratch} (hg : ApartFromPoints g) (v : List Byte) (d : Scratch) :
    decPoints v (g d) = (decPoints v d).map g := by
  unfold decPoints
  split
  · rfl
  · cases readUnits v with
    | none => rfl
    | some u =>
      simp only [Option.bind_eq_bind, Option.bind_some, hg.loadUnits]
      exact hg.pointLoop_map _ _ _

theorem ApartFromPoints.commutes {f g : Scratch → Scratch} {v : List Byte} (hg : ApartFromPoints g)
    (hf : ∀ d, decPoints v d = some (f d)) (d : Scratch) : f (g d) = g (f d) := by
  have hmap := hg.decPoints_map v d
  rw [hf, hf] at hmap
  exact Option.some.inj hmap

/-- DEC_POINTS as a function of the scratch, by totality (R241). -/
theorem decPoints_total (v : List Byte) : ∃ f : Scratch → Scratch, ∀ d, decPoints v d = some (f d) := by
  have htotal : ∀ d, ∃ d', decPoints v d = some d' := fun d => by
    by_cases hlen : v.length < 20
    · exact ⟨d, decPoints_short d hlen⟩
    · obtain ⟨u, r, p, -, hrun⟩ := decPoints_spec d (Nat.le_of_not_lt hlen)
      exact ⟨_, hrun⟩
  choose f hf using htotal
  exact ⟨f, hf⟩

/-- DEC_STATS as a function of the scratch: nothing, or statistics stored. -/
theorem decStats_total (v : List Byte) :
    ∃ g : Scratch → Scratch, (∀ d, decStats v d = some (g d)) ∧ (g = id ∨ ∃ t, g = Scratch.storeStats t) := by
  by_cases hlen : v.length < 24
  · exact ⟨id, fun d => decStats_short d hlen, .inl rfl⟩
  · obtain ⟨t, ht⟩ := readStats_isSome (Nat.le_of_not_lt hlen)
    refine ⟨Scratch.storeStats t, fun d => ?_, .inr ⟨t, rfl⟩⟩
    obtain ⟨t', ht', hrun⟩ := decStats_spec d (Nat.le_of_not_lt hlen)
    cases ht.symm.trans ht'
    exact hrun

/-- Two operations that change the scratch only, by commuting functions, give the same in either order. -/
theorem exec_commute {i j : Instr} {f g : Scratch → Scratch} (hi : ∀ s, exec i s = .next (s.withDec (f s.dec)))
    (hj : ∀ s, exec j s = .next (s.withDec (g s.dec))) (hcomm : ∀ d, f (g d) = g (f d)) (s : State) :
    ∃ a b t, exec i s = .next a ∧ exec j a = .next t ∧ exec j s = .next b ∧ exec i b = .next t := by
  refine ⟨_, _, _, hi s, hj _, hj s, (hi _).trans ?_⟩
  rw [State.withDec_dec, State.withDec_dec, hcomm]
  rfl

/-- Settles O43: DEC_RANGE and DEC_STATS store in places of their own, which no operation of DEC_POINTS touches. -/
theorem decodersOfDifferentTypesCommute : Obligations.DecodersOfDifferentTypesCommute := by
  intro s v w
  obtain ⟨f, hf⟩ := decPoints_total v
  obtain ⟨g, hg, hstore⟩ := decStats_total w
  have hpoints : ∀ s, exec (.decPoints v) s = .next (s.withDec (f s.dec)) := fun s => exec_decPoints (hf s.dec)
  have hrange : ∀ x s, exec (.decRange x) s = .next (s.withDec (s.dec.storeRange (binsOf (x.length / 4) x))) :=
    fun x s => exec_decRange (decRange_eq x s.dec)
  have hstats : ∀ s, exec (.decStats w) s = .next (s.withDec (g s.dec)) := fun s => exec_decStats (hg s.dec)
  refine ⟨exec_commute hpoints (hrange w) ((apartFromPoints_storeRange _).commutes hf) s,
    exec_commute hpoints hstats ?_ s, exec_commute (hrange v) hstats ?_ s⟩
  · obtain rfl | ⟨t, rfl⟩ := hstore
    · exact fun _ => rfl
    · exact (apartFromPoints_storeStats t).commutes hf
  · obtain rfl | ⟨t, rfl⟩ := hstore <;> exact fun _ => rfl

end Sys2Proof.Machine
end

section
/-! The output events: EMIT_FRAME, EMIT_DIAG, the beats that leave, and the Parsed Frame read back from its beats. -/

namespace Sys2Proof.Machine

/-! ### What the operations do -/

theorem exec_emitFrame (s : State) : exec .emitFrame s = .next s.emitFrame := rfl

theorem exec_emitDiag (d : Diag) (s : State) : exec (.emitDiag d) s = .next (s.emit (.diag d)) := rfl

theorem State.emit_eq (e : Event) (s : State) : s.emit e = { s with events := s.events ++ [e] } := rfl

theorem State.emitFrame_eq (s : State) : s.emitFrame =
    { s with events := s.events ++ [.frame s.dec.pf], outBeats := s.outBeats ++ frameBeats s.dec.pf } := rfl

theorem State.takeBeat_eq (s : State) : s.takeBeat = { s with outBeats := s.outBeats.drop 1 } := by
  rw [State.takeBeat, List.drop_one]

/-- Settles O48: EMIT_FRAME is one event, then the beats of the same Parsed Frame. -/
theorem emitFrameAppendsTheParsedFrame : Obligations.EmitFrameAppendsTheParsedFrame := by
  intro s
  rw [exec_emitFrame, State.emitFrame_eq]

/-- Settles O49: EMIT_DIAG is one event. -/
theorem emitDiagIsInformationOnly : Obligations.EmitDiagIsInformationOnly := by
  intro s d
  rw [exec_emitDiag, State.emit_eq]

/-- Settles O58: an edge with `out_ready` is served at rest, and takes the first of the waiting beats. -/
theorem outputBeatsLeaveInOrder : Obligations.OutputBeatsLeaveInOrder := by
  intro s rest he hin
  rw [step_outReady he hin, State.takeBeat_eq]

/-! ### The Parsed Frame from its beats (R254) -/

@[simp] theorem pointBeat_kind (p : RadarPoint) : (pointBeat p).kind = 1 := rfl

@[simp] theorem rangeBinBeat_kind (bin : Word) : (rangeBinBeat bin).kind = 3 := rfl

@[simp] theorem statsBeat_kind (t : Stats) : (statsBeat t).kind = 4 := rfl

@[simp] theorem rangeBeginBeat_kind (bins : List Word) : (rangeBeginBeat bins).kind = 2 := rfl

@[simp] theorem frameEndBeat_kind (pf : ParsedFrame) : (frameEndBeat pf).kind = 5 := rfl

theorem frameBeginBeat_fields {a b : ParsedFrame} (h : frameBeginBeat a = frameBeginBeat b) :
    a.frameNumber = b.frameNumber ∧ a.numDetectedObj = b.numDetectedObj := by
  simp only [frameBeginBeat, Beat.mk.injEq, true_and] at h
  obtain ⟨h, hnum⟩ := append_injective h
  exact ⟨hnum, (append_injective h).2⟩

theorem statsBeats_eq_map (t : Option Stats) : statsBeats t = t.toList.map statsBeat := by
  cases t <;> rfl

/-- The beats behind the range profile: the statistics and the end of the frame. -/
def closingBeats (pf : ParsedFrame) : List Beat := statsBeats pf.stats ++ [frameEndBeat pf]

theorem frameBeats_eq (pf : ParsedFrame) : frameBeats pf =
    frameBeginBeat pf :: (pf.points.map pointBeat ++ (rangeBeats pf.rangeProfile ++ closingBeats pf)) := rfl

/-- The closing beats start with `STATS` or `FRAME_END`. -/
theorem closingBeats_head {pf : ParsedFrame} : ∀ b ∈ (closingBeats pf).head?, b.kind = 4 ∨ b.kind = 5 := by
  unfold closingBeats
  cases pf.stats <;> simp [statsBeats]

/-- What follows the points starts with `RANGE_BEGIN`, `STATS` or `FRAME_END`, and so with no `POINT`. -/
theorem head_kind_ne_point {pf : ParsedFrame} :
    ∀ b ∈ (rangeBeats pf.rangeProfile ++ closingBeats pf).head?, b.kind ≠ 1 := by
  cases pf.rangeProfile with
  | none =>
    intro b hb
    obtain h | h := closingBeats_head b hb <;> rw [h] <;> decide
  | some bins => simp [rangeBeats]

/-- The closing beats start with no `RANGE_BIN`. -/
theorem closingBeats_head_ne_rangeBin {pf : ParsedFrame} : ∀ b ∈ (closingBeats pf).head?, b.kind ≠ 3 := by
  intro b hb
  obtain h | h := closingBeats_head b hb <;> rw [h] <;> decide

theorem closingBeats_ne_rangeBeginBeat {pf : ParsedFrame} {bins : List Word} {r : List Beat} :
    closingBeats pf ≠ rangeBeginBeat bins :: r := by
  intro h
  have hkind := closingBeats_head (pf := pf) (rangeBeginBeat bins) (by rw [h]; rfl)
  exact absurd hkind (by simp)

/-- The closing beats determine the statistics and the error code. -/
theorem closingBeats_fields {a b : ParsedFrame} (h : closingBeats a = closingBeats b) :
    a.stats = b.stats ∧ a.errorCode = b.errorCode := by
  rw [closingBeats, closingBeats, statsBeats_eq_map, statsBeats_eq_map] at h
  have hend : ∀ pf : ParsedFrame, ∀ e ∈ [frameEndBeat pf].head?, e.kind ≠ 4 := by simp
  obtain ⟨hstats, herr⟩ := beats_split statsBeat_kind (fun _ _ => statsBeat_injective) (hend a) (hend b) h
  exact ⟨by rw [← Option.head?_toList (o := a.stats), hstats, Option.head?_toList],
    frameEndBeat_errorCode (List.singleton_inj.1 herr)⟩

/-- The beats behind the points determine the range profile: whether it is present, by the kind of the first of them,
and its bins, which end where the kind changes. -/
theorem rangeBeats_split {a b : ParsedFrame} {x y : Option (List Word)}
    (h : rangeBeats x ++ closingBeats a = rangeBeats y ++ closingBeats b) :
    x = y ∧ closingBeats a = closingBeats b := by
  cases x with
  | none =>
    cases y with
    | none => exact ⟨rfl, h⟩
    | some bins => exact absurd h closingBeats_ne_rangeBeginBeat
  | some bins =>
    cases y with
    | none => exact absurd h.symm closingBeats_ne_rangeBeginBeat
    | some bins' =>
      obtain ⟨hbins, hclosing⟩ := beats_split rangeBinBeat_kind (fun _ _ => rangeBinBeat_injective)
        closingBeats_head_ne_rangeBin closingBeats_head_ne_rangeBin (List.cons.inj h).2
      exact ⟨congrArg some hbins, hclosing⟩

/-- Settles O50: the kinds of the beats cut them into their runs, and each run determines the fields it carries. -/
theorem beatsDetermineTheParsedFrame : Obligations.BeatsDetermineTheParsedFrame := by
  intro a b h
  rw [frameBeats_eq, frameBeats_eq] at h
  obtain ⟨hbegin, hrest⟩ := List.cons.inj h
  obtain ⟨hnumber, hobj⟩ := frameBeginBeat_fields hbegin
  obtain ⟨hpoints, hrest⟩ :=
    beats_split pointBeat_kind (fun _ _ => pointBeat_injective) head_kind_ne_point head_kind_ne_point hrest
  obtain ⟨hrange, hclosing⟩ := rangeBeats_split hrest
  obtain ⟨hstats, herr⟩ := closingBeats_fields hclosing
  cases a
  cases b
  simp_all only

end Sys2Proof.Machine
end

section
/-! Reset from any state (R310), and the calls that overlap (R315). -/

namespace Sys2Proof.Machine

/-! ### RESET -/

/-- What RESET makes of a state: the reset state, with the parameters and what is not the block's own kept
(log entries 1, 2, 6, 7). -/
def State.restart (s : State) : State :=
  { State.reset with
    params := s.params
    events := s.events
    inputs := s.inputs
    dec := { Scratch.atReset with draws := s.dec.draws } }

theorem exec_reset (s : State) : exec .reset s = .next s.restart := rfl

theorem reset_restart : State.reset.restart = State.reset := rfl

/-- R34 (a): an empty buffer holds no magic word and is within every threshold. -/
theorem atRest_of_seeking_empty {s : State} (he : s.evaluating = false) (ho : s.chunkOpen = false)
    (hst : s.st = .seekingSync) (hbuf : s.buf = []) (hv : s.hdrValid = false) : AtRest s := by
  have hcoh : Coherent s := by
    simpa only [Coherent, hst] using hv
  have hset : Settled s := by
    simp only [Settled, hst, hbuf]
    exact ⟨rfl, Nat.zero_le _⟩
  exact ⟨he, ho, hcoh, hset⟩

theorem atRest_restart (s : State) : AtRest s.restart :=
  atRest_of_seeking_empty rfl rfl rfl rfl rfl

/-- Settles O2: RESET answers `restart`, which is at rest and takes the reset state to itself. -/
theorem resetReturnsToSeeking : Obligations.ResetReturnsToSeeking := by
  refine ⟨fun s => ⟨s.restart, exec_reset s, rfl, rfl, rfl, rfl, rfl, rfl, rfl, rfl, rfl, atRest_restart s⟩, ?_⟩
  rw [exec_reset, reset_restart]

/-! ### Overlapping calls -/

theorem step_overlap {s : State} {a b : Selector} {rest : List Input} (he : s.evaluating = false)
    (hin : s.inputs = .overlap a b :: rest) : step s = .refused .overlappingCall := by
  simp [step, he, hin]

/-- A PUSH inside another call's evaluation or inside an unfinished chunk. -/
theorem execPush_of_busy {s : State} (chunk : List Byte) (hbusy : s.evaluating = true ∨ s.chunkOpen = true) :
    execPush chunk s = .refused .overlappingCall := by
  simp [execPush, hbusy]

/-- Settles O9: the step refuses the input, and PUSH refuses before it looks at its chunk. -/
theorem overlappingCallsAreRefused : Obligations.OverlappingCallsAreRefused :=
  ⟨fun _ _ _ _ he hin => step_overlap he hin, fun _ chunk hbusy => execPush_of_busy chunk hbusy⟩

end Sys2Proof.Machine
end

section
/-! The rows of the table that stand for wire formats: the frame start (R83), and the fixed layouts (R94). -/

namespace Sys2Proof.Machine

variable {s : State}

/-! ### FRAME -/

theorem exec_frame_of_match {i : Nat} (hi : firstMatch Config.magic s.buf = some i) :
    exec .frame s = .next (s.startFrameAt i) := by
  simp only [exec, execFrame, hi]

theorem exec_frame_of_no_match (hn : firstMatch Config.magic s.buf = none) : exec .frame s = .next s := by
  simp only [exec, execFrame, hn]

theorem State.startFrameAt_eq (i : Nat) (s : State) :
    s.startFrameAt i = { s with buf := s.buf.drop i, st := .readingHeader, evaluating := true } := rfl

/-- Settles O20: the least offset of the magic word is the first match, and no offset of it is no match. -/
theorem frameStartsAtTheFirstMagic : Obligations.FrameStartsAtTheFirstMagic := by
  refine fun s => ⟨fun i hm hmin => ?_, fun hn => ?_⟩
  · rw [exec_frame_of_match (firstMatch_eq_some.2 ⟨hm, hmin⟩), State.startFrameAt_eq]
  · exact exec_frame_of_no_match (firstMatch_eq_none.2 hn)

/-! ### Each layout's row is one latch (log entry 13) -/

theorem exec_layoutFrameHeader (h : Header) (s : State) :
    exec (.layoutFrameHeader h) s = .next (s.latchHeader h) := rfl

theorem exec_layoutTlvRecord (type : Word) (v : List Byte) (s : State) :
    exec (.layoutTlvRecord type v) s =
      .next (s.withDec (s.dec.loadRecordHeader type (BitVec.ofNat 32 v.length))) := rfl

theorem exec_layoutPointUnitHeader (u : Units) (counts : Word) (s : State) :
    exec (.layoutPointUnitHeader u counts) s = .next (s.withDec (s.dec.loadUnits u)) := rfl

theorem exec_layoutCompactPoint (r : RawPoint) (s : State) :
    exec (.layoutCompactPoint r) s = .next (s.withDec (s.dec.loadRaw r)) := rfl

theorem exec_layoutRangeBin (bin : Word) (s : State) :
    exec (.layoutRangeBin bin) s = .next (s.withDec (s.dec.appendBin bin)) := rfl

theorem exec_layoutStats (t : Stats) (power : BitVec 64) (rest : List Byte) (s : State) :
    exec (.layoutStats t power rest) s = .next (s.withDec (s.dec.loadStat t)) := rfl

/-- Settles O55: each latch writes the registers of its own row only, and TLV_HDR_LEN is 8. -/
theorem layoutsLatchTheirFields : Obligations.LayoutsLatchTheirFields := by
  refine fun s => ⟨fun h => ?_, fun type v => ?_, fun u c => ?_, fun r => ?_, fun b => ?_, fun t p rest => ?_⟩
  · rw [exec_layoutFrameHeader, State.latchHeader]
  · rw [exec_layoutTlvRecord, State.withDec, Scratch.loadRecordHeader, Config.tlvHdrLen]
  · rw [exec_layoutPointUnitHeader, State.withDec, Scratch.loadUnits]
  · rw [exec_layoutCompactPoint, State.withDec, Scratch.loadRaw]
  · rw [exec_layoutRangeBin, State.withDec, Scratch.appendBin]
  · rw [exec_layoutStats, State.withDec, Scratch.loadStat]

end Sys2Proof.Machine
end
